-- ==== Sys2Proof/Word.lean ====
section
/-! DEFINITION. The words the block handles: 32-bit command and data words (R70, R78) and bytes (R22). -/

namespace Sys2Proof

/-- A command word on the command port (R70) or a response's data word (R78). -/
abbrev Word := BitVec 32

/-- One byte of the reservoir or of the byte source (R22, R91). -/
abbrev Byte := BitVec 8

end Sys2Proof
end

