-- ==== Sys2Proof/Syntax.lean ====
section
/-! DEFINITION. The ten commands of "BRB command set v1" (R2, R72), one constructor per row of the opcode table. -/

namespace Sys2Proof

/-- A command with its operand fields, each as wide as its format makes it (R71, R73).  An operand outside its
accepted range is a term of this type: it is refused by `Instr.wellFormed` and, when it runs, by the command's
own BadOperand check (R76). -/
inductive Instr where
  /-- READBIT (R114). -/
  | readbit
  /-- READBITS `n` (R115). -/
  | readbits (n : BitVec 6)
  /-- POSITION (R116). -/
  | position
  /-- SEEK `bitPos` (R117). -/
  | seek (bitPos : BitVec 15)
  /-- REFILL `sizeBytes`, `beginBytes` (R92). -/
  | refill (sizeBytes beginBytes : BitVec 12)
  /-- SFDECODE `gr`, `ch` (R135). -/
  | sfdecode (gr ch : BitVec 1)
  /-- WRSI `addr`, `data` (R162). -/
  | wrsi (addr : BitVec 3) (data : BitVec 8)
  /-- RDSFL `gr`, `ch`, `band` (R164). -/
  | rdsfl (gr ch : BitVec 1) (band : BitVec 5)
  /-- RDSFS `gr`, `ch`, `band`, `win` (R165). -/
  | rdsfs (gr ch : BitVec 1) (band : BitVec 4) (win : BitVec 2)
  /-- RDSTAT (R166). -/
  | rdstat
deriving DecidableEq, Repr

end Sys2Proof
end

