-- ==== Sys2Proof/WellFormed.lean ====
section
/-! DEFINITION. Which operand values the commands accept: the "BadOperand" column of R73. -/

namespace Sys2Proof

/-- The operands lie in the ranges of R73.  REFILL is always well formed: a `sizeBytes` above MAX_SIZE is the
document's own MainDataTooLarge, not a BadOperand (R76), and a `beginBytes` above `top` is the underrun. -/
def Instr.wellFormed : Instr → Bool
  | .readbit => true
  | .readbits n => decide (n.toNat ≤ 32)
  | .position => true
  | .seek _ => true
  | .refill _ _ => true
  | .sfdecode _ _ => true
  | .wrsi addr data => decide (addr.toNat ≤ 5) && (decide (addr.toNat ≤ 3) || decide (data.toNat ≤ 15))
  | .rdsfl _ _ band => decide (band.toNat ≤ 20)
  | .rdsfs _ _ band win => decide (band.toNat ≤ 12) && decide (win.toNat ≤ 2)
  | .rdstat => true

end Sys2Proof
end

