-- ==== Sys2Proof/Decode.lean ====
section
/-! DEFINITION. Decoding a command word (R70 to R77) and, after it, the encoder from the same formats (R71).
The decoder goes by the opcode and the reserved bits of each format (R70, R71, R74); that this is the match and
mask table of R72 is a statement, not the definition. -/

namespace Sys2Proof

/-- Why a word is no command; both complete with IllegalCommand (R74, R75). -/
inductive DecodeError where
  /-- Opcode 0x0 or 0xB..0xF (R75). -/
  | reservedOpcode
  /-- A reserved bit of the opcode's format is 1 (R74). -/
  | reservedBits
deriving DecidableEq, Repr

/-- `w[lo + len - 1 : lo]`, word bit numbering (R9b). -/
def field (w : Word) (lo len : Nat) : BitVec len := w.extractLsb' lo len

/-- `i` if bits [27:`lo`] of the word, the reserved bits of its format, are zero (R71, R74). -/
def ifReservedZero (w : Word) (lo : Nat) (i : Instr) : Except DecodeError Instr :=
  if field w lo (28 - lo) = 0 then .ok i else .error .reservedBits

/-- The command a word selects, or the reason it is illegal: total on 32-bit words (R77).  An operand outside its
accepted range is decoded as it stands; the command then completes with BadOperand (R76; log entry 11). -/
def decode (w : Word) : Except DecodeError Instr :=
  match (field w 28 4).toNat with
  | 0x1 => ifReservedZero w 0 .readbit
  | 0x2 => ifReservedZero w 6 (.readbits (field w 0 6))
  | 0x3 => ifReservedZero w 0 .position
  | 0x4 => ifReservedZero w 15 (.seek (field w 0 15))
  | 0x5 => ifReservedZero w 24 (.refill (field w 12 12) (field w 0 12))
  | 0x6 => ifReservedZero w 2 (.sfdecode (field w 1 1) (field w 0 1))
  | 0x7 => ifReservedZero w 11 (.wrsi (field w 8 3) (field w 0 8))
  | 0x8 => ifReservedZero w 7 (.rdsfl (field w 6 1) (field w 5 1) (field w 0 5))
  | 0x9 => ifReservedZero w 8 (.rdsfs (field w 7 1) (field w 6 1) (field w 2 4) (field w 0 2))
  | 0xA => ifReservedZero w 0 .rdstat
  | _ => .error .reservedOpcode

/-- The word of a command: opcode, reserved zeros, operand fields, most significant first, as R71 draws them. -/
def encode : Instr → Word
  | .readbit => 0x1#4 ++ 0#28
  | .readbits n => 0x2#4 ++ 0#22 ++ n
  | .position => 0x3#4 ++ 0#28
  | .seek bitPos => 0x4#4 ++ 0#13 ++ bitPos
  | .refill sizeBytes beginBytes => 0x5#4 ++ 0#4 ++ sizeBytes ++ beginBytes
  | .sfdecode gr ch => 0x6#4 ++ 0#26 ++ gr ++ ch
  | .wrsi addr data => 0x7#4 ++ 0#17 ++ addr ++ data
  | .rdsfl gr ch band => 0x8#4 ++ 0#21 ++ gr ++ ch ++ band
  | .rdsfs gr ch band win => 0x9#4 ++ 0#20 ++ gr ++ ch ++ band ++ win
  | .rdstat => 0xA#4 ++ 0#28

/-- The command the decoder reads from an instruction whose bits are `w`, of which the table gives `nbits`: a
command is one 32-bit word presented whole (R70), so the bits above `nbits` are 0 and there is no byte order. -/
def decodeTableWord (nbits w : Nat) : Option Instr :=
  match decode (BitVec.ofNat 32 (w % 2 ^ nbits)) with
  | .ok i => some i
  | .error _ => none

end Sys2Proof
end

