-- ==== Sys2Proof/Config.lean ====
section
/-! DEFINITION. The configuration of the block: the three parameters R8 asks a model to take as fields. -/

namespace Sys2Proof

/-- The parameters of R7 and R8.  A configuration is a constant of the machine (R34a); the model carries it in
`State.cfg`, which no step writes, so that a statement about every state is a statement about every
configuration (log entry 1). -/
structure Config where
  /-- `C`, the reservoir's capacity in bytes (R7). -/
  capacity : Nat
  /-- `MAX_SIZE`, the largest `sizeBytes` REFILL accepts (R7). -/
  maxSize : Nat
  /-- `SLEN_TABLE`: for each `scalefacCompress` the widths `(slen1, slen2)`, each 0..4 (R131). -/
  slenTable : Vector (Fin 5 × Fin 5) 16
deriving DecidableEq, Repr

/-- What the spec requires of every configuration: the capacity fits the 12 bits of `top` (R7, R23), and entry 5
of the table is (1, 1), the one entry the source gives (R131).  The other two constraints of R131 (sixteen
entries, widths 0..4) hold by the field's type. -/
def Config.ok (c : Config) : Bool :=
  decide (c.capacity ≤ 4095) && decide (c.slenTable[5] = (1, 1))

end Sys2Proof
end

