-- ==== Sys2Proof/Machine/Parameters.lean ====
section
/-! DEFINITION. The values the parameters take in the spec: the document's C and MAX_SIZE (R7) and the default
SLEN_TABLE (R131). -/

namespace Sys2Proof.Machine

/-- The default SLEN_TABLE of R131, entry `sc` = `(slen1, slen2)`.  PRESUMED but for entry 5: the spec marks the
other fifteen as general knowledge (G1).  unsafe: log entry 1. -/
def defaultSlenTable : Vector (Fin 5 × Fin 5) 16 :=
  #v[(0, 0), (0, 1), (0, 2), (0, 3), (3, 0), (1, 1), (1, 2), (1, 3),
     (2, 1), (2, 2), (2, 3), (3, 1), (3, 2), (3, 3), (4, 2), (4, 3)]

/-- `C = 2048`, `MAX_SIZE = 1500` and the default table (R7, R131). -/
def documentConfig : Config where
  capacity := 2048
  maxSize := 1500
  slenTable := defaultSlenTable

end Sys2Proof.Machine
end

