-- ==== Sys2Proof/Machine/State.lean ====
section
/-! DEFINITION. The state of the block (R22 to R32) with its configuration and its ports, as plain data, and the
state right after reset (R35). -/

namespace Sys2Proof.Machine

/-- The result codes of R196.  Codes 7 and 12..15 are reserved and never produced, so they have no constructor
(U11; log entry 10). -/
inductive ResultCode where
  | ok
  | mainDataTooLarge
  | frameUndecodable
  | unexpectedEndOfStream
  | sourceError
  /-- Host-level (R206): never produced by the block. -/
  | frameSizeInvalid
  /-- Host-level (R206): never produced by the block. -/
  | huffmanDecodeError
  | illegalCommand
  | badOperand
  | readBeyondTop
  | reservoirOverflow
deriving DecidableEq, Repr

/-- One response: a result code and a 32-bit data word (R78). -/
structure Response where
  code : ResultCode
  data : Word
deriving DecidableEq, Repr

/-- The status of one answer of the byte source (R91). -/
inductive PullStatus where
  | more
  | endOfStream
  | err (e : Word)
deriving DecidableEq, Repr

/-- One answer of the byte source to a Pull: the bytes delivered and the status (R91). -/
structure PullAnswer where
  bytes : List Byte
  status : PullStatus
deriving DecidableEq, Repr

/-- What arrives from the host's side: a command word on the command port (R70) or the reset input (R220). -/
inductive PortEvent where
  | command (w : Word)
  | reset
deriving DecidableEq, Repr

/-- The reservoir's bytes by offset (R22), in the canonical form `Memory.wf` of Machine/Ops.lean: offsets strictly
rising and no entry equal to 0, which is what an unlisted offset reads as (DESIGN CHOICE, unsafe: log entry 2). -/
abbrev Memory := List Host.Cell

/-- The machine: the block's architectural state (R22 to R32), the configuration it is built with (R7, R8) and
what stands at its ports (R21). -/
structure State where
  /-- `C`, `MAX_SIZE`, `SLEN_TABLE`; no step writes it (R34a; log entry 1). -/
  cfg : Config
  /-- The reservoir `buf[0..C-1]` (R22). -/
  buf : Memory
  /-- The number of valid bytes (R23). -/
  top : BitVec 12
  /-- The cursor's byte offset (R23). -/
  bytePos : BitVec 12
  /-- The cursor's bit in that byte, stream bit numbering (R23, R9a). -/
  bitIdx : BitVec 3
  /-- `scalefacL[gr][ch][band]` at index `gr * 42 + ch * 21 + band` (R27). -/
  scalefacL : Vector (BitVec 4) 84
  /-- `scalefacS[gr][ch][band][win]` at index `gr * 78 + ch * 39 + band * 3 + win` (R28). -/
  scalefacS : Vector (BitVec 4) 156
  /-- `SI_GC[gr * 2 + ch]` (R31). -/
  siGC : Vector (BitVec 8) 4
  /-- `SI_SCFSI[ch]` (R32). -/
  siSCFSI : Vector (BitVec 4) 2
  /-- The code of the most recent command other than RDSTAT (R30). -/
  lastResult : ResultCode
  /-- Sticky: some command completed with a guard error (R30). -/
  guardFault : Bool
  /-- What the host presents, oldest first (R20, R24; log entry 6). -/
  events : List PortEvent
  /-- The answers the byte source will give, oldest first (R91; log entry 4). -/
  source : List PullAnswer
  /-- The responses given so far, oldest first (R78; log entry 7). -/
  responses : List Response
deriving DecidableEq, Repr

/-- Why the model stops. -/
inductive Fault where
  /-- A read of a reservoir offset at or beyond `C`, which does not exist (R50).  Raised by READBIT, READBITS,
  SFDECODE and REFILL, only in states with `top > C`, which no run reaches (R25, R94).  safe: the model stops
  where the spec gives no value (log entry 3). -/
  | offsetOutsideReservoir
deriving DecidableEq, Repr

/-- Why an instruction has no meaning. -/
inductive Refusal where
  /-- An arm of `exec` that has no meaning yet; no arm is left so.  safe: nothing is claimed of it. -/
  | notModelled (mnemonic : String)
deriving DecidableEq, Repr

/-- The machine right after reset (R35), built with the spec's configuration and with nothing presented at its
ports (log entries 2, 4, 6, 7). -/
def State.reset : State where
  cfg := documentConfig
  buf := []
  top := 0
  bytePos := 0
  bitIdx := 0
  scalefacL := Vector.replicate 84 0
  scalefacS := Vector.replicate 156 0
  siGC := Vector.replicate 4 0
  siSCFSI := Vector.replicate 2 0
  lastResult := .ok
  guardFault := false
  events := []
  source := []
  responses := []

end Sys2Proof.Machine
end

