-- ==== Sys2Proof/Machine/Flags.lean ====
section
/-! DEFINITION. The status flags (R30), the numbers of the result codes (R196), and STATUS (R33, R166). -/

namespace Sys2Proof.Machine

/-- The numeric value of a result code (R196). -/
def ResultCode.toBits : ResultCode → BitVec 4
  | .ok => 0
  | .mainDataTooLarge => 1
  | .frameUndecodable => 2
  | .unexpectedEndOfStream => 3
  | .sourceError => 4
  | .frameSizeInvalid => 5
  | .huffmanDecodeError => 6
  | .illegalCommand => 8
  | .badOperand => 9
  | .readBeyondTop => 10
  | .reservoirOverflow => 11

/-- The guard errors, codes 8 to 11 (R197). -/
def ResultCode.isGuard : ResultCode → Bool
  | .illegalCommand => true
  | .badOperand => true
  | .readBeyondTop => true
  | .reservoirOverflow => true
  | .ok => false
  | .mainDataTooLarge => false
  | .frameUndecodable => false
  | .unexpectedEndOfStream => false
  | .sourceError => false
  | .frameSizeInvalid => false
  | .huffmanDecodeError => false

/-- What every completion but RDSTAT's does to the flags: `lastResult` takes the code, and a guard error sets the
sticky `guardFault` (R30, R199). -/
def State.setFlags (s : State) (code : ResultCode) : State :=
  { s with lastResult := code, guardFault := s.guardFault || code.isGuard }

/-- STATUS: `(guardFault << 16) | (lastResult << 12) | top` (R33, R166). -/
def State.statusWord (s : State) : Word :=
  ((if s.guardFault then 1#32 else 0#32) <<< 16) ||| (s.lastResult.toBits.setWidth 32 <<< 12)
    ||| s.top.setWidth 32

end Sys2Proof.Machine
end

