-- ==== Sys2Proof/Machine/Operands.lean ====
section
/-! DEFINITION. Operand forms: how operand fields and side-information fields are read (R73, R31, R32, R130) and
how they name table entries (R27, R28, R50).  Every operand is an unsigned integer taken as it stands (R73). -/

namespace Sys2Proof.Machine

/-- `k = gr * 2 + ch`, the index of `SI_GC` (R31). -/
def siIndex (gr ch : BitVec 1) : Nat := gr.toNat * 2 + ch.toNat

/-- Where `scalefacL[gr][ch][band]` stands in `State.scalefacL` (R27). -/
def longIndex (gr ch : BitVec 1) (band : Nat) : Nat := gr.toNat * 42 + ch.toNat * 21 + band

/-- Where `scalefacS[gr][ch][band][win]` stands in `State.scalefacS` (R28). -/
def shortIndex (gr ch : BitVec 1) (band win : Nat) : Nat :=
  gr.toNat * 78 + ch.toNat * 39 + band * 3 + win

/-- `SI_GC[k][3:0]` (R31). -/
def scalefacCompress (gc : BitVec 8) : BitVec 4 := gc.extractLsb' 0 4

/-- `SI_GC[k][4]` (R31). -/
def windowSwitchFlag (gc : BitVec 8) : BitVec 1 := gc.extractLsb' 4 1

/-- `SI_GC[k][6:5]` (R31). -/
def blockType (gc : BitVec 8) : BitVec 2 := gc.extractLsb' 5 2

/-- `SI_GC[k][7]` (R31). -/
def mixedBlockFlag (gc : BitVec 8) : BitVec 1 := gc.extractLsb' 7 1

/-- `scfsi[g]`, bit `g` of `SI_SCFSI[ch]` (R32). -/
def scfsiFlag (scfsi : BitVec 4) (g : Nat) : Bool := scfsi.getLsbD g

/-- READBITS accepts `n` in 0..32 (R73, R115). -/
def readbitsAccepts (n : BitVec 6) : Bool := decide (n.toNat ≤ 32)

/-- WRSI accepts `addr` 0..5, and with `addr` 4 or 5 only `data[7:4] = 0` (R73, R162). -/
def wrsiAccepts (addr : BitVec 3) (data : BitVec 8) : Bool :=
  decide (addr.toNat < 6) && (decide (addr.toNat < 4) || decide (data.extractLsb' 4 4 = 0))

/-- RDSFL accepts `band` 0..20 (R73, R164). -/
def rdsflAccepts (band : BitVec 5) : Bool := decide (band.toNat ≤ 20)

/-- RDSFS accepts `band` 0..12 and `win` 0..2 (R73, R165). -/
def rdsfsAccepts (band : BitVec 4) (win : BitVec 2) : Bool :=
  decide (band.toNat ≤ 12) && decide (win.toNat ≤ 2)

end Sys2Proof.Machine
end

