-- ==== Sys2Proof/Machine/Ops.lean ====
section
/-! DEFINITION. The named operations the commands share: the reservoir's bytes and stream bits (R9, R13, R22), the
cursor (R23, R51), the read guard (R112), the tables and side-information registers (R27 to R32), the byte source
(R91, R93), completing a command and raising an error (R12, R78, R199), and the reset event (R220). -/

namespace Sys2Proof.Machine

/-! ### The reservoir's bytes -/

/-- The canonical form: offsets strictly rising, no entry equal to what an unlisted offset reads as. -/
abbrev Memory.wf (m : Memory) : Prop :=
  m.Pairwise (fun x y => x.1 < y.1) ∧ ∀ x ∈ m, x.2 ≠ 0

/-- Every listed offset lies below `c`. -/
abbrev Memory.within (m : Memory) (c : Nat) : Prop := ∀ x ∈ m, x.1 < c

/-- `buf[a]`.  An unlisted offset reads 0 (DESIGN CHOICE, unsafe: log entry 2). -/
def Memory.read : Memory → Nat → Byte
  | [], _ => 0
  | (b, v) :: rest, a => if a = b then v else Memory.read rest a

/-- The entries for `bytes` at ascending offsets from `start`. -/
def Memory.cells : Nat → List Byte → Memory
  | _, [] => []
  | start, v :: rest =>
    if v = 0 then Memory.cells (start + 1) rest else (start, v) :: Memory.cells (start + 1) rest

/-- `buf[start + j] <- bytes[j]` for every `j`, as one assignment (R95, R96). -/
def Memory.writeBytes (m : Memory) (start : Nat) (bytes : List Byte) : Memory :=
  m.filter (fun x => decide (x.1 < start)) ++ Memory.cells start bytes
    ++ m.filter (fun x => decide (start + bytes.length ≤ x.1))

/-- `buf[start .. start + n - 1]`, ascending. -/
def Memory.readBytes (m : Memory) (start n : Nat) : List Byte :=
  (List.range n).map (fun i => m.read (start + i))

/-! ### Stream bits -/

/-- Stream bit `k` of a byte, bit 0 the most significant: `(b >> (7 - k)) & 1` (R9a). -/
def streambit (b : Byte) (k : Nat) : Nat := (b.toNat >>> (7 - k)) &&& 1

/-- `BitAt(p)`, the stream bit at bit position `p` (R13, R51). -/
def Memory.bitAt (m : Memory) (p : Nat) : Nat := streambit (m.read (p / 8)) (p % 8)

/-- `Bits(p, n)`: the first bit read becomes the most significant (R13, R54). -/
def Memory.bits (m : Memory) (p : Nat) : Nat → Nat
  | 0 => 0
  | n + 1 => 2 * Memory.bits m p n + m.bitAt (p + n)

/-! ### The cursor -/

/-- `pos = bytePos * 8 + bitIdx` (R11, R51). -/
def State.pos (s : State) : Nat := s.bytePos.toNat * 8 + s.bitIdx.toNat

/-- Sets the cursor to bit position `p`: `bytePos <- p / 8`, `bitIdx <- p % 8` (R13, R117). -/
def State.setPos (s : State) (p : Nat) : State :=
  { s with bytePos := BitVec.ofNat 12 (p / 8), bitIdx := BitVec.ofNat 3 (p % 8) }

/-- `Advance(n)` (R13). -/
def State.advance (s : State) (n : Nat) : State := s.setPos (s.pos + n)

/-- How a read of bits at the cursor stands. -/
inductive Room where
  /-- Every bit lies in the valid region (R112). -/
  | admitted
  /-- Some bit lies at an offset at or beyond `top` (R112). -/
  | beyondTop
  /-- Below `top`, but at an offset the reservoir does not have (R50): only where `top > C` (log entry 3). -/
  | noSuchOffset
deriving DecidableEq, Repr

/-- The read guard: a read of no bits is always admitted, a read of `n ≥ 1` bits when `pos + n ≤ 8 * top` (R112,
R136). -/
def State.room (s : State) (n : Nat) : Room :=
  if n = 0 then .admitted
  else if 8 * s.top.toNat < s.pos + n then .beyondTop
  else if 8 * s.cfg.capacity < s.pos + n then .noSuchOffset
  else .admitted

/-! ### Tables and side-information registers -/

/-- `scalefacL[gr][ch][band]` (R27). -/
def State.longEntry (s : State) (gr ch : BitVec 1) (band : Nat) : BitVec 4 :=
  s.scalefacL[longIndex gr ch band]?.getD 0

/-- `scalefacL[gr][ch][band] <- v` (R27). -/
def State.setLong (s : State) (gr ch : BitVec 1) (band : Nat) (v : BitVec 4) : State :=
  { s with scalefacL := s.scalefacL.setIfInBounds (longIndex gr ch band) v }

/-- `scalefacS[gr][ch][band][win]` (R28). -/
def State.shortEntry (s : State) (gr ch : BitVec 1) (band win : Nat) : BitVec 4 :=
  s.scalefacS[shortIndex gr ch band win]?.getD 0

/-- `scalefacS[gr][ch][band][win] <- v` (R28). -/
def State.setShort (s : State) (gr ch : BitVec 1) (band win : Nat) (v : BitVec 4) : State :=
  { s with scalefacS := s.scalefacS.setIfInBounds (shortIndex gr ch band win) v }

/-- `SI_GC[gr * 2 + ch]` (R31). -/
def State.gc (s : State) (gr ch : BitVec 1) : BitVec 8 := s.siGC[siIndex gr ch]?.getD 0

/-- `SI_SCFSI[ch]` (R32). -/
def State.scfsi (s : State) (ch : BitVec 1) : BitVec 4 := s.siSCFSI[ch.toNat]?.getD 0

/-- Writes the side-information register at `addr`: 0..3 are `SI_GC[addr]`, 4 and 5 are `SI_SCFSI[addr - 4]`
(R161, R162).  No register stands at 6 and 7. -/
def State.setSideInfo (s : State) (addr : Nat) (data : BitVec 8) : State :=
  if addr ≤ 3 then { s with siGC := s.siGC.setIfInBounds addr data }
  else { s with siSCFSI := s.siSCFSI.setIfInBounds (addr - 4) (data.extractLsb' 0 4) }

/-- `(slen1, slen2) = SLEN_TABLE[sc]` (R131). -/
def State.slen (s : State) (sc : BitVec 4) : Nat × Nat :=
  let entry := s.cfg.slenTable[sc.toNat]?.getD (0, 0)
  (entry.1.val, entry.2.val)

/-! ### Completing a command -/

/-- Gives the response on the port and takes the command off it (R20, R78). -/
def State.respond (s : State) (code : ResultCode) (data : Word) : State :=
  { s with responses := s.responses ++ [⟨code, data⟩], events := s.events.tail }

/-- Completes a command: the flags of R30 and the response of R78. -/
def State.complete (s : State) (code : ResultCode) (data : Word) : State :=
  (s.setFlags code).respond code data

/-- `return OK(d)` (R12). -/
def State.returnOk (s : State) (data : Word) : State := s.complete .ok data

/-- `raise <Code>(d)` (R12, R199): the block's one way of taking an error.  There is no handler, no saved
register and no return from it (R200, R202).  A guard error is no stop of the model: it sets the never-cleared mark
(DEDUCED: log entry 9). -/
def State.raise (s : State) (code : ResultCode) (data : Word) : State := s.complete code data

/-! ### The byte source -/

/-- How `Acquire(s)` ends (R93); `rest` is what the source has still to answer. -/
inductive Acquired where
  /-- The request was satisfied with exactly these bytes. -/
  | done (fresh : List Byte) (rest : List PullAnswer)
  /-- The source answered `Err(e)`. -/
  | sourceError (e : Word) (rest : List PullAnswer)
  /-- The source ended before the request was satisfied. -/
  | endOfStream (rest : List PullAnswer)
  /-- The source gives no further answer: the block waits (R91, R231). -/
  | waiting
deriving DecidableEq, Repr

/-- The bytes gathered before, put in front (R93: `got <- got ++ bytes`). -/
def Acquired.after (got : List Byte) : Acquired → Acquired
  | .done fresh rest => .done (got ++ fresh) rest
  | .sourceError e rest => .sourceError e rest
  | .endOfStream rest => .endOfStream rest
  | .waiting => .waiting

/-- `Acquire(m)` (R93), one Pull per listed answer (R91): bytes are counted before the status is examined, `Err`
is reported even if its bytes complete the request, `End` with the last bytes needed is no failure, and with
`m = 0` no pull is made.  A listed answer of more than `m` bytes, which no source gives to `Pull(m)` (R91),
delivers its first `m` with status `More` and keeps the rest for the next Pull (DESIGN CHOICE: log entry 4). -/
def acquire : Nat → List PullAnswer → Acquired
  | 0, source => .done [] source
  | _ + 1, [] => .waiting
  | m + 1, answer :: rest =>
    if m + 1 < answer.bytes.length then
      .done (answer.bytes.take (m + 1)) (⟨answer.bytes.drop (m + 1), answer.status⟩ :: rest)
    else
      match answer.status with
      | .err e => .sourceError e rest
      | .endOfStream =>
        if answer.bytes.length < m + 1 then .endOfStream rest else .done answer.bytes rest
      | .more => (acquire (m + 1 - answer.bytes.length) rest).after answer.bytes

/-! ### Reset -/

/-- The reset event (R220): every state element takes its reset value (R35); configuration and ports are not
state of the block.  The event is taken off the port and no response is given.  `buf`, unspecified after reset,
is left with nothing listed (DESIGN CHOICE: log entry 8). -/
def State.applyReset (s : State) : State :=
  { State.reset with
    cfg := s.cfg, events := s.events.tail, source := s.source, responses := s.responses }

/-- Reset while a REFILL waits on a silent source: the command is abandoned without a response and the bytes
already pulled are lost (R220; log entry 8). -/
def State.abandon (s : State) : State :=
  { s with events := s.events.tail, source := [] }.applyReset

end Sys2Proof.Machine
end

