-- ==== Sys2Proof/Machine/BitReader.lean ====
section
/-! DEFINITION. The bit reader: READBIT, READBITS, POSITION, SEEK (R110 to R121). -/

namespace Sys2Proof.Machine

/-- READBIT (R114). -/
def execReadbit (s : State) : Host.Outcome State Fault Refusal :=
  match s.room 1 with
  | .beyondTop => .next (s.raise .readBeyondTop 0)
  | .noSuchOffset => .fault .offsetOutsideReservoir
  | .admitted =>
    let b := (s.buf.read s.bytePos.toNat >>> (7 - s.bitIdx.toNat)) &&& 1#8
    let moved :=
      if s.bitIdx = 7 then { s with bytePos := s.bytePos + 1, bitIdx := 0 }
      else { s with bitIdx := s.bitIdx + 1 }
    .next (moved.returnOk (b.setWidth 32))

/-- READBITS `n` (R115, R113). -/
def execReadbits (n : BitVec 6) (s : State) : Host.Outcome State Fault Refusal :=
  if readbitsAccepts n then
    if n = 0 then .next (s.returnOk 0)
    else
      match s.room n.toNat with
      | .beyondTop => .next (s.raise .readBeyondTop 0)
      | .noSuchOffset => .fault .offsetOutsideReservoir
      | .admitted =>
        .next ((s.advance n.toNat).returnOk (BitVec.ofNat 32 (s.buf.bits s.pos n.toNat)))
  else .next (s.raise .badOperand 0)

/-- POSITION (R116). -/
def execPosition (s : State) : Host.Outcome State Fault Refusal :=
  .next (s.returnOk (BitVec.ofNat 32 s.pos))

/-- SEEK `bitPos` (R117): no range validation. -/
def execSeek (bitPos : BitVec 15) (s : State) : Host.Outcome State Fault Refusal :=
  .next ((s.setPos bitPos.toNat).returnOk 0)

end Sys2Proof.Machine
end

