-- ==== Sys2Proof/Machine/RegisterAccess.lean ====
section
/-! DEFINITION. The register-access commands WRSI, RDSFL, RDSFS, RDSTAT (R160 to R167). -/

namespace Sys2Proof.Machine

/-- WRSI `addr`, `data` (R162). -/
def execWrsi (addr : BitVec 3) (data : BitVec 8) (s : State) : Host.Outcome State Fault Refusal :=
  if wrsiAccepts addr data then .next ((s.setSideInfo addr.toNat data).returnOk 0)
  else .next (s.raise .badOperand 0)

/-- RDSFL `gr`, `ch`, `band` (R164). -/
def execRdsfl (gr ch : BitVec 1) (band : BitVec 5) (s : State) :
    Host.Outcome State Fault Refusal :=
  if rdsflAccepts band then .next (s.returnOk ((s.longEntry gr ch band.toNat).setWidth 32))
  else .next (s.raise .badOperand 0)

/-- RDSFS `gr`, `ch`, `band`, `win` (R165). -/
def execRdsfs (gr ch : BitVec 1) (band : BitVec 4) (win : BitVec 2) (s : State) :
    Host.Outcome State Fault Refusal :=
  if rdsfsAccepts band win then
    .next (s.returnOk ((s.shortEntry gr ch band.toNat win.toNat).setWidth 32))
  else .next (s.raise .badOperand 0)

/-- RDSTAT (R166): the one command that writes no flag. -/
def execRdstat (s : State) : Host.Outcome State Fault Refusal :=
  .next (s.respond .ok s.statusWord)

end Sys2Proof.Machine
end

