-- ==== Sys2Proof/Machine/Reservoir.lean ====
section
/-! DEFINITION. The reservoir and REFILL (R90 to R101). -/

namespace Sys2Proof.Machine

/-- The underrun commit (R96): append at `top`, cursor to (0, 0). -/
def State.commitUnderrun (s : State) (fresh : List Byte) : State :=
  { s with
    buf := s.buf.writeBytes s.top.toNat fresh
    top := BitVec.ofNat 12 (s.top.toNat + fresh.length)
    bytePos := 0
    bitIdx := 0 }

/-- The normal commit (R95): the last `beginBytes` bytes to the front, the fresh bytes after them, cursor to
(0, 0).  The move is on the old contents. -/
def State.commitNormal (s : State) (beginBytes : Nat) (fresh : List Byte) : State :=
  { s with
    buf := s.buf.writeBytes 0 (s.buf.readBytes (s.top.toNat - beginBytes) beginBytes ++ fresh)
    top := BitVec.ofNat 12 (beginBytes + fresh.length)
    bytePos := 0
    bitIdx := 0 }

/-- Lines 4..6 and 9..11 of R92: Acquire, then `commit` and the result it ends with.  A failed Acquire commits
nothing (R98); a source that gives no further answer leaves the command waiting at the port, with no response
and nothing changed (R91, R231; log entry 5). -/
def State.acquireThen (s : State) (sizeBytes : Nat)
    (commit : List Byte → State → State) (code : ResultCode) : Host.Outcome State Fault Refusal :=
  match acquire sizeBytes s.source with
  | .done fresh rest => .next ((commit fresh { s with source := rest }).complete code 0)
  | .sourceError e rest => .next ({ s with source := rest }.raise .sourceError e)
  | .endOfStream rest => .next ({ s with source := rest }.raise .unexpectedEndOfStream 0)
  | .waiting => .next s

/-- What REFILL's checks, made before any byte is pulled, decide (R92, R97). -/
inductive RefillPath where
  /-- `sizeBytes > MAX_SIZE` (line 1). -/
  | tooLarge
  /-- The new `top` would exceed C (lines 3 and 8, R94). -/
  | overflow
  /-- The history to keep lies at offsets the reservoir does not have: only where `top > C` (log entry 3). -/
  | noSuchOffset
  /-- `beginBytes > top` (lines 4..6). -/
  | underrun
  /-- `beginBytes <= top` (lines 9..11). -/
  | normal
deriving DecidableEq, Repr

/-- REFILL's checks in the order of R97. -/
def State.refillPath (s : State) (sizeBytes beginBytes : Nat) : RefillPath :=
  if s.cfg.maxSize < sizeBytes then .tooLarge
  else if s.top.toNat < beginBytes then
    if s.cfg.capacity < s.top.toNat + sizeBytes then .overflow else .underrun
  else if s.cfg.capacity < beginBytes + sizeBytes then .overflow
  else if 0 < beginBytes ∧ s.cfg.capacity < s.top.toNat then .noSuchOffset
  else .normal

/-- REFILL `sizeBytes`, `beginBytes` (R92). -/
def execRefill (sizeBytes beginBytes : BitVec 12) (s : State) : Host.Outcome State Fault Refusal :=
  match s.refillPath sizeBytes.toNat beginBytes.toNat with
  | .tooLarge => .next (s.raise .mainDataTooLarge 0)
  | .overflow => .next (s.raise .reservoirOverflow 0)
  | .noSuchOffset => .fault .offsetOutsideReservoir
  | .underrun =>
    s.acquireThen sizeBytes.toNat (fun fresh t => t.commitUnderrun fresh) .frameUndecodable
  | .normal =>
    s.acquireThen sizeBytes.toNat (fun fresh t => t.commitNormal beginBytes.toNat fresh) .ok

/-- Is the command a REFILL that passes its checks and then waits for a byte source that gives no further answer
(R231)?  Its command stays at the port.  No other command waits (R231). -/
def waits (i : Instr) (s : State) : Bool :=
  match i with
  | .refill sizeBytes beginBytes =>
    match s.refillPath sizeBytes.toNat beginBytes.toNat with
    | .underrun => decide (acquire sizeBytes.toNat s.source = .waiting)
    | .normal => decide (acquire sizeBytes.toNat s.source = .waiting)
    | .tooLarge => false
    | .overflow => false
    | .noSuchOffset => false
  | .readbit => false
  | .readbits _ => false
  | .position => false
  | .seek _ => false
  | .sfdecode _ _ => false
  | .wrsi _ _ => false
  | .rdsfl _ _ _ => false
  | .rdsfs _ _ _ _ => false
  | .rdstat => false

end Sys2Proof.Machine
end

