-- ==== Sys2Proof/Machine/ScaleFactor.lean ====
section
/-! DEFINITION. The scale-factor decoder SFDECODE (R130 to R146). -/

namespace Sys2Proof.Machine

/-- The three shapes of a (granule, channel) (R133). -/
inductive Branch where
  | mixed
  | short
  | long
deriving DecidableEq, Repr

/-- Branch selection by `ws`, `bt`, `mx` and nothing else (R133). -/
def selectBranch (gc : BitVec 8) : Branch :=
  if windowSwitchFlag gc ≠ 0 ∧ blockType gc = 2 then
    if mixedBlockFlag gc ≠ 0 then .mixed else .short
  else .long

/-- The bands of group `g` (R132). -/
def groupBands (g : Nat) : List Nat :=
  match g with
  | 0 => List.range' 0 6
  | 1 => List.range' 6 5
  | 2 => List.range' 11 5
  | _ => List.range' 16 5

/-- `wL(g)` (R132). -/
def longWidth (slen : Nat × Nat) (g : Nat) : Nat := if g < 2 then slen.1 else slen.2

/-- `wS(band)` (R132). -/
def shortWidth (slen : Nat × Nat) (band : Nat) : Nat := if band < 6 then slen.1 else slen.2

/-- Is group `g` read fresh?  `scfsi[g] == 0 or gr == 0` (R138). -/
def groupFresh (gr : BitVec 1) (scfsi : BitVec 4) (g : Nat) : Bool :=
  !scfsiFlag scfsi g || decide (gr = 0)

/-- `fresh(g) * |G[g]| * wL(g)` (R134). -/
def groupNeed (gr : BitVec 1) (scfsi : BitVec 4) (slen : Nat × Nat) (g : Nat) : Nat :=
  if groupFresh gr scfsi g then (groupBands g).length * longWidth slen g else 0

/-- `need`, the number of stream bits the branch consumes (R134). -/
def needBits (branch : Branch) (gr : BitVec 1) (scfsi : BitVec 4) (slen : Nat × Nat) : Nat :=
  match branch with
  | .mixed => 17 * slen.1 + 18 * slen.2
  | .short => 18 * slen.1 + 18 * slen.2
  | .long =>
    groupNeed gr scfsi slen 0 + groupNeed gr scfsi slen 1 + groupNeed gr scfsi slen 2
      + groupNeed gr scfsi slen 3

/-- One assignment of the decoder's loops (R137, R138). -/
inductive SfAction where
  /-- `scalefacL[gr][ch][band] <- rb(width)`. -/
  | freshLong (band width : Nat)
  /-- `scalefacS[gr][ch][band][win] <- rb(width)`. -/
  | freshShort (band win width : Nat)
  /-- `scalefacL[gr][ch][band] <- scalefacL[0][ch][band]`. -/
  | copyLong (band : Nat)
deriving DecidableEq, Repr

/-- The three windows of a short band, consecutive in the stream (R137). -/
def shortBandActions (slen : Nat × Nat) (band : Nat) : List SfAction :=
  (List.range 3).map (fun win => .freshShort band win (shortWidth slen band))

/-- One band group of Branch B, fresh or copied as a whole (R138). -/
def groupActions (gr : BitVec 1) (scfsi : BitVec 4) (slen : Nat × Nat) (g : Nat) : List SfAction :=
  if groupFresh gr scfsi g then
    (groupBands g).map (fun band => .freshLong band (longWidth slen g))
  else (groupBands g).map (fun band => .copyLong band)

/-- The assignments of a branch in the order they are executed (R137, R138, R139). -/
def sfActions (branch : Branch) (gr : BitVec 1) (scfsi : BitVec 4) (slen : Nat × Nat) :
    List SfAction :=
  match branch with
  | .mixed =>
    (List.range 8).map (fun band => .freshLong band slen.1)
      ++ (List.range' 3 9).flatMap (shortBandActions slen)
  | .short => (List.range 12).flatMap (shortBandActions slen)
  | .long => (List.range 4).flatMap (groupActions gr scfsi slen)

/-- One assignment: `rb(width)` is the internal READBITS, which returns `Bits(pos, width)` and advances the
cursor by `width`; `rb(0)` gives 0 and reads nothing (R135, R140). -/
def runSfAction (gr ch : BitVec 1) (s : State) (action : SfAction) : State :=
  match action with
  | .freshLong band width =>
    (s.setLong gr ch band (BitVec.ofNat 4 (s.buf.bits s.pos width))).advance width
  | .freshShort band win width =>
    (s.setShort gr ch band win (BitVec.ofNat 4 (s.buf.bits s.pos width))).advance width
  | .copyLong band => s.setLong gr ch band (s.longEntry 0 ch band)

/-- SFDECODE `gr`, `ch` (R135), all or nothing (R136); the data word is the position after the last
scale-factor bit (R142). -/
def execSfdecode (gr ch : BitVec 1) (s : State) : Host.Outcome State Fault Refusal :=
  let gc := s.gc gr ch
  let slen := s.slen (scalefacCompress gc)
  let branch := selectBranch gc
  match s.room (needBits branch gr (s.scfsi ch) slen) with
  | .beyondTop => .next (s.raise .readBeyondTop 0)
  | .noSuchOffset => .fault .offsetOutsideReservoir
  | .admitted =>
    let t := (sfActions branch gr (s.scfsi ch) slen).foldl (runSfAction gr ch) s
    .next (t.returnOk (BitVec.ofNat 32 t.pos))

end Sys2Proof.Machine
end

