-- ==== Sys2Proof/Machine/Dispatch.lean ====
section
/-! DEFINITION. One arm per command: what a legal command does to the machine (R72). -/

namespace Sys2Proof.Machine

def exec (i : Instr) (s : State) : Host.Outcome State Fault Refusal :=
  match i with
  | .readbit => Sys2Proof.Machine.execReadbit s
  | .readbits n => Sys2Proof.Machine.execReadbits n s
  | .position => Sys2Proof.Machine.execPosition s
  | .seek bitPos => Sys2Proof.Machine.execSeek bitPos s
  | .refill sizeBytes beginBytes => Sys2Proof.Machine.execRefill sizeBytes beginBytes s
  | .sfdecode gr ch => Sys2Proof.Machine.execSfdecode gr ch s
  | .wrsi addr data => Sys2Proof.Machine.execWrsi addr data s
  | .rdsfl gr ch band => Sys2Proof.Machine.execRdsfl gr ch band s
  | .rdsfs gr ch band win => Sys2Proof.Machine.execRdsfs gr ch band win s
  | .rdstat => Sys2Proof.Machine.execRdstat s

end Sys2Proof.Machine
end

