-- ==== Sys2Proof/Machine/Step.lean ====
section
/-! DEFINITION. One step: the block takes what the host presents next and runs it to completion (R20, R24, R59). -/

namespace Sys2Proof.Machine

/-- With nothing presented the block waits (R221).  A reset is applied (R220).  A command word is decoded and run
(R77); an illegal word completes with IllegalCommand(0) (R74, R75).  A REFILL that waits on a silent byte source
while the host applies reset is abandoned (R220). -/
def step (s : State) : Host.Outcome State Fault Refusal :=
  match s.events with
  | [] => .next s
  | .reset :: _ => .next s.applyReset
  | .command w :: rest =>
    match decode w with
    | .error _ => .next (s.raise .illegalCommand 0)
    | .ok i =>
      if waits i s && decide (rest.head? = some .reset) then .next s.abandon
      else exec i s

/-- `s` with the host presenting the instruction whose bits are `w` next (log entry 6). -/
def State.withFetchWord (s : State) (nbits w : Nat) : State :=
  { s with events := .command (BitVec.ofNat 32 (w % 2 ^ nbits)) :: s.events }

end Sys2Proof.Machine
end

