-- ==== Sys2Proof/Machine/HostSequence.lean ====
section
/-! DEFINITION. What the spec settles about the host that drives the block (R176 to R188) and the pseudo-commands'
expansions (R80).  Nothing here adds behaviour to the block: these are plain functions of the host's side (DESIGN
CHOICE: log entry 13). -/

namespace Sys2Proof.Machine

/-- `frameSizeBytes = floor(144 * bitrate / samplingFrequency) + paddingBit` (R177). -/
def frameSizeBytes (bitrate samplingFrequency : Nat) (padding : Bool) : Nat :=
  144 * bitrate / samplingFrequency + padding.toNat

/-- The host's check of the frame size: above 2000 it fails with FrameSizeInvalid and issues no command (R177). -/
def checkFrameSize (size : Nat) : Except ResultCode Nat :=
  if 2000 < size then .error .frameSizeInvalid else .ok size

/-- The channel count of a frame: mono or stereo, the only two there are (R14, R176). -/
inductive Channels where
  | mono
  | stereo
deriving DecidableEq, Repr

/-- `nch`: 1 for mono, 2 for stereo (R176). -/
def Channels.nch : Channels → Nat
  | .mono => 1
  | .stereo => 2

/-- `sideInfoSize = 17` if mono, `32` if stereo (R178). -/
def sideInfoSize : Channels → Nat
  | .mono => 17
  | .stereo => 32

/-- `mainDataSize = frameSizeBytes - sideInfoSize - 4`, minus 2 more if CRC is present (R179).  Where the
difference is negative the host must not issue REFILL: no operand. -/
def mainDataSize (frameSize : Nat) (channels : Channels) (crc : Bool) : Option Nat :=
  if sideInfoSize channels + 4 + 2 * crc.toNat ≤ frameSize then
    some (frameSize - sideInfoSize channels - 4 - 2 * crc.toNat)
  else none

/-- REWIND is SEEK 0 (R80). -/
def pseudoRewind : Instr := .seek 0

/-- WRGC `gr, ch, sc, ws, bt, mx` is WRSI `gr*2+ch, (mx<<7) | (bt<<5) | (ws<<4) | sc` (R80). -/
def pseudoWrgc (gr ch : BitVec 1) (sc : BitVec 4) (ws : BitVec 1) (bt : BitVec 2) (mx : BitVec 1) :
    Instr :=
  .wrsi (BitVec.ofNat 3 (gr.toNat * 2 + ch.toNat))
    (mx.setWidth 8 <<< 7 ||| bt.setWidth 8 <<< 5 ||| ws.setWidth 8 <<< 4 ||| sc.setWidth 8)

/-- WRSCFSI `ch, s0, s1, s2, s3` is WRSI `4+ch, (s3<<3) | (s2<<2) | (s1<<1) | s0` (R80). -/
def pseudoWrscfsi (ch s0 s1 s2 s3 : BitVec 1) : Instr :=
  .wrsi (BitVec.ofNat 3 (4 + ch.toNat))
    (s3.setWidth 8 <<< 3 ||| s2.setWidth 8 <<< 2 ||| s1.setWidth 8 <<< 1 ||| s0.setWidth 8)

/-- The (granule, channel) pairs of a frame in the host's order: granule 0..1, channel 0..(nch-1) (R183). -/
def frameOrder (channels : Channels) : List (BitVec 1 × BitVec 1) :=
  [0#1, 1#1].flatMap fun gr =>
    (List.range channels.nch).map fun ch => (gr, BitVec.ofNat 1 ch)

/-! ### The Huffman collaborator -/

/-- The four commands the collaborator issues (R121, R182, R207). -/
inductive ReadCommand where
  | readbit
  | readbits (n : BitVec 6)
  | position
  | seek (bitPos : BitVec 15)
deriving DecidableEq, Repr

/-- The command on the port; the block cannot tell it from the host's own (R21). -/
def ReadCommand.instr : ReadCommand → Instr
  | .readbit => .readbit
  | .readbits n => .readbits n
  | .position => .position
  | .seek bitPos => .seek bitPos

/-- What the collaborator does with one (granule, channel): the commands it issues and then its verdict, both free
inputs (R182, R188, U13). -/
structure Collaboration where
  commands : List ReadCommand
  succeeded : Bool
deriving DecidableEq, Repr

/-- The collaborator: the host hands it `gr`, `ch` and the start boundary that SFDECODE returned (R142, R182).  For
each state it may be any such function, so what it does can follow the bits it reads (log entry 13). -/
abbrev Collaborator := BitVec 1 → BitVec 1 → Word → Collaboration

/-! ### One frame -/

/-- How the host's work on a frame ends. -/
inductive FrameEnd where
  /-- Every step succeeded. -/
  | decoded
  /-- The frame is aborted with this code: the first response that is not OK, or HuffmanDecodeError on the
  collaborator's failure (R180, R182, R184, R206). -/
  | aborted (code : ResultCode)
  /-- The REFILL waits for ever (R231; log entry 5). -/
  | waiting
deriving DecidableEq, Repr

/-- The block's state where the host's work on the frame ends, and how it ends. -/
abbrev HostOutcome := Host.Outcome (State × FrameEnd) Fault Refusal

/-- Presents one command: on OK the host goes on with the data word, on any other response it aborts the frame with
that code (R80, R180, R182). -/
def hostCommand (i : Instr) (s : State) (onOk : Word → State → HostOutcome) : HostOutcome :=
  match exec i s with
  | .next t =>
    if waits i s then .next (t, .waiting)
    else
      match t.responses.getLast? with
      | some r => if r.code = .ok then onOk r.data t else .next (t, .aborted r.code)
      | none => .next (t, .waiting)
  | .fault f => .fault f
  | .refused r => .refused r

/-- The collaborator's commands in turn, then `onDone` (R182 (c)).  A response that is not OK aborts the frame with
its code, whatever the verdict would have been (R80; which code the caller then sees is a DESIGN CHOICE: log
entry 13). -/
def hostReads (onDone : State → HostOutcome) : List ReadCommand → State → HostOutcome
  | [], s => onDone s
  | c :: rest, s => hostCommand c.instr s fun _ t => hostReads onDone rest t

/-- One (granule, channel) (R182): SFDECODE; on OK the collaborator is handed the returned position and issues its
commands; its failure aborts the frame with HuffmanDecodeError, its success leads to `onDone`, with the cursor
where it left it. -/
def hostStep (huffman : Collaborator) (gr ch : BitVec 1) (onDone : State → HostOutcome)
    (s : State) : HostOutcome :=
  hostCommand (.sfdecode gr ch) s fun start t =>
    hostReads
      (fun u =>
        if (huffman gr ch start).succeeded then onDone u else .next (u, .aborted .huffmanDecodeError))
      (huffman gr ch start).commands t

/-- The steps of a frame in order (R183). -/
def hostSteps (huffman : Collaborator) : List (BitVec 1 × BitVec 1) → State → HostOutcome
  | [], s => .next (s, .decoded)
  | (gr, ch) :: rest, s => hostStep huffman gr ch (hostSteps huffman rest) s

/-- FRAME `nch, size, begin` (R80, R183): REFILL, and on OK the steps of the frame. -/
def pseudoFrame (channels : Channels) (size beginBytes : BitVec 12) (huffman : Collaborator)
    (s : State) : HostOutcome :=
  hostCommand (.refill size beginBytes) s fun _ t => hostSteps huffman (frameOrder channels) t

end Sys2Proof.Machine
end

