-- ==== Sys2Proof/Safety.lean ====
section
/-! DEFINITION. What counts as a safe state, and the words the claims are made in: the invariant of every state a run
reaches, how a command completes, and which parts of the state it leaves alone. -/

namespace Sys2Proof.Machine

/-! ### Safe states -/

/-- The invariant of the block: true at reset and kept by every step. -/
structure State.Inv (s : State) : Prop where
  /-- The configuration is one the spec allows (R7, R131). -/
  config : s.cfg.ok = true
  /-- The reservoir's bytes are in canonical form. -/
  canonical : s.buf.wf
  /-- Only offsets 0..C-1 are listed (R50). -/
  within : s.buf.within s.cfg.capacity
  /-- `top <= C` (R25, R94). -/
  top_le : s.top.toNat ≤ s.cfg.capacity
  /-- The block never stores the host-level codes (R196). -/
  blockCode : s.lastResult ≠ .frameSizeInvalid ∧ s.lastResult ≠ .huffmanDecodeError
  /-- A guard error is never forgotten (R30). -/
  guardMarked : s.lastResult.isGuard = true → s.guardFault = true
  /-- Short band 12 is 0 from reset onward (R141). -/
  band12 : ∀ gr ch : BitVec 1, ∀ win < 3, s.shortEntry gr ch 12 win = 0

/-- `pos <= 8 * top`, the stronger form of `bytePos <= top` that every command but SEEK keeps (R25). -/
def State.CursorInside (s : State) : Prop := s.pos ≤ 8 * s.top.toNat

/-! ### What the spec's encoding says, for statements about words -/

/-- The match and mask columns of R72. -/
def opcodeRows : List (Word × Word) :=
  [(0x10000000, 0xFFFFFFFF), (0x20000000, 0xFFFFFFC0), (0x30000000, 0xFFFFFFFF),
   (0x40000000, 0xFFFF8000), (0x50000000, 0xFF000000), (0x60000000, 0xFFFFFFFC),
   (0x70000000, 0xFFFFF800), (0x80000000, 0xFFFFFF80), (0x90000000, 0xFFFFFF00),
   (0xA0000000, 0xFFFFFFFF)]

/-- The bits of a command word that the format of opcode `op` assigns to no field (R70, R71). -/
def reservedMask (op : Nat) : Word :=
  match op with
  | 0x2 => 0x0FFFFFC0
  | 0x4 => 0x0FFF8000
  | 0x5 => 0x0F000000
  | 0x6 => 0x0FFFFFFC
  | 0x7 => 0x0FFFF800
  | 0x8 => 0x0FFFFF80
  | 0x9 => 0x0FFFFF00
  | _ => 0x0FFFFFFF

/-! ### How a command completes -/

/-- `t` is `s` after one response with this code and data: the command is off the port and the configuration as it
was (R20, R78). -/
structure Responded (s t : State) (code : ResultCode) (data : Word) : Prop where
  responses : t.responses = s.responses ++ [⟨code, data⟩]
  events : t.events = s.events.tail
  config : t.cfg = s.cfg

/-- `t` is `s` after a completion that also writes the flags as R30 says. -/
structure Completed (s t : State) (code : ResultCode) (data : Word) : Prop
    extends Responded s t code data where
  lastResult : t.lastResult = code
  guardFault : t.guardFault = (s.guardFault || code.isGuard)

/-! ### What a command leaves alone -/

/-- Every byte of the reservoir reads as before, and `top` is as before. -/
structure SameReservoir (s t : State) : Prop where
  bytes : ∀ a, t.buf.read a = s.buf.read a
  top : t.top = s.top

structure SameCursor (s t : State) : Prop where
  bytePos : t.bytePos = s.bytePos
  bitIdx : t.bitIdx = s.bitIdx

structure SameTables (s t : State) : Prop where
  long : t.scalefacL = s.scalefacL
  short : t.scalefacS = s.scalefacS

structure SameSideInfo (s t : State) : Prop where
  gc : t.siGC = s.siGC
  scfsi : t.siSCFSI = s.siSCFSI

/-- All architectural state but the status flags is as before (R200's "unchanged" rows). -/
structure OnlyFlags (s t : State) : Prop where
  reservoir : SameReservoir s t
  cursor : SameCursor s t
  tables : SameTables s t
  sideInfo : SameSideInfo s t

/-- All architectural state but the cursor and the status flags is as before, and the byte source was not asked. -/
structure OnlyCursor (s t : State) : Prop where
  reservoir : SameReservoir s t
  tables : SameTables s t
  sideInfo : SameSideInfo s t
  source : t.source = s.source

/-- The command completes with this non-OK code and data 0, changes nothing but the flags and asks the byte source
nothing. -/
def Refuses (i : Instr) (s : State) (code : ResultCode) : Prop :=
  ∃ t, exec i s = .next t ∧ Completed s t code 0 ∧ OnlyFlags s t ∧ t.source = s.source

/-! ### Contents and streams -/

/-- The valid bytes of the reservoir, `buf[0 .. top-1]` (R23, R55). -/
def State.contents (s : State) : List Byte := s.buf.readBytes 0 s.top.toNat

/-- The bytes the byte source has still to deliver, in stream order (R62). -/
def streamBytes (source : List PullAnswer) : List Byte := source.flatMap PullAnswer.bytes

/-- Two states that differ, if at all, in bytes at offsets at or beyond `top` only (R55). -/
structure SameButBeyondTop (s t : State) : Prop where
  config : t.cfg = s.cfg
  top : t.top = s.top
  valid : ∀ a < s.top.toNat, t.buf.read a = s.buf.read a
  cursor : SameCursor s t
  tables : SameTables s t
  sideInfo : SameSideInfo s t
  lastResult : t.lastResult = s.lastResult
  guardFault : t.guardFault = s.guardFault
  events : t.events = s.events
  source : t.source = s.source
  responses : t.responses = s.responses

/-! ### Sequences of commands -/

/-- Runs commands in order, whatever their results. -/
def runAll : List Instr → State → Option State
  | [], s => some s
  | i :: rest, s =>
    match exec i s with
    | .next t => runAll rest t
    | .fault _ => none
    | .refused _ => none

/-- The data words of some responses, read as one number whose first bit is the most significant (R113). -/
def composeBits (responses : List Response) : Nat :=
  responses.foldl (fun acc r => 2 * acc + r.data.toNat) 0

/-! ### What the spec's tables and checks say, for statements about results -/

/-- The codes a command can complete with, the row of the command in R198; IllegalCommand stands there for words
that are not the command. -/
def possibleCodes : Instr → List ResultCode
  | .readbit => [.ok, .readBeyondTop]
  | .readbits _ => [.ok, .badOperand, .readBeyondTop]
  | .position => [.ok]
  | .seek _ => [.ok]
  | .refill _ _ =>
    [.ok, .mainDataTooLarge, .frameUndecodable, .unexpectedEndOfStream, .sourceError,
     .reservoirOverflow]
  | .sfdecode _ _ => [.ok, .readBeyondTop]
  | .wrsi _ _ => [.ok, .badOperand]
  | .rdsfl _ _ _ => [.ok, .badOperand]
  | .rdsfs _ _ _ _ => [.ok, .badOperand]
  | .rdstat => [.ok]

/-- The checks REFILL passes before it asks the byte source for anything: the size bound, and the capacity bound of
the path that `beginBytes > top` selects (R92, R94, R97). -/
def RefillAdmitted (s : State) (sizeBytes beginBytes : BitVec 12) : Prop :=
  sizeBytes.toNat ≤ s.cfg.maxSize
    ∧ (if s.top.toNat < beginBytes.toNat then s.top.toNat else beginBytes.toNat) + sizeBytes.toNat
        ≤ s.cfg.capacity
    ∧ s.top.toNat ≤ s.cfg.capacity ∧ s.cfg.capacity ≤ 4095

/-- The code REFILL reports by the order of its checks (R97), none while the byte source gives no answer. -/
def refillCode (s : State) (sizeBytes beginBytes : BitVec 12) : Option ResultCode :=
  if s.cfg.maxSize < sizeBytes.toNat then some .mainDataTooLarge
  else if s.cfg.capacity
      < (if s.top.toNat < beginBytes.toNat then s.top.toNat else beginBytes.toNat) + sizeBytes.toNat then
    some .reservoirOverflow
  else
    match acquire sizeBytes.toNat s.source with
    | .sourceError _ _ => some .sourceError
    | .endOfStream _ => some .unexpectedEndOfStream
    | .waiting => none
    | .done _ _ => some (if s.top.toNat < beginBytes.toNat then .frameUndecodable else .ok)

/-- The next step applies reset: it stands at the port, or it ends a REFILL that waits for ever (R220). -/
def ResetTaken (s : State) : Prop :=
  (∃ rest, s.events = .reset :: rest)
    ∨ ∃ w rest i, s.events = .command w :: .reset :: rest ∧ decode w = .ok i ∧ waits i s = true

/-! ### The decoder's fields in the stream -/

/-- The group of a long band: [0,6), [6,11), [11,16), [16,21) (R132). -/
def bandGroup (band : Nat) : Nat :=
  if band < 6 then 0 else if band < 11 then 1 else if band < 16 then 2 else 3

/-- Is the band read fresh in Branch B: `scfsi[g] == 0 or gr == 0` for its group (R138)? -/
def BandFresh (gr : BitVec 1) (scfsi : BitVec 4) (band : Nat) : Prop :=
  scfsi.getLsbD (bandGroup band) = false ∨ gr = 0

/-- The width of a long band in Branch B: `slen1` for the first two groups, `slen2` for the last two (R132). -/
def bandWidth (slen : Nat × Nat) (band : Nat) : Nat := if band < 11 then slen.1 else slen.2

/-- The bits Branch B consumes before it comes to `band`: the widths of the fresh bands below it (R138, R139). -/
def longOffset (gr : BitVec 1) (scfsi : BitVec 4) (slen : Nat × Nat) (band : Nat) : Nat :=
  ((List.range band).map fun b =>
    if scfsi.getLsbD (bandGroup b) = false ∨ gr = 0 then bandWidth slen b else 0).sum

/-- The bits the short branch consumes before it comes to window `win` of `band` (R137). -/
def shortOffset (slen : Nat × Nat) (band win : Nat) : Nat :=
  if band < 6 then (band * 3 + win) * slen.1 else 18 * slen.1 + (band * 3 + win - 18) * slen.2

/-- The bits the mixed branch consumes before it comes to window `win` of short `band` (R137). -/
def mixedOffset (slen : Nat × Nat) (band win : Nat) : Nat :=
  8 * slen.1 + (if band < 6 then (band * 3 + win - 9) * slen.1
    else 9 * slen.1 + (band * 3 + win - 18) * slen.2)

/-- The width of a short band's fields (R132). -/
def shortBandWidth (slen : Nat × Nat) (band : Nat) : Nat := if band < 6 then slen.1 else slen.2

/-- `ws != 0 and bt == 2` (R133), on the register's bits (R31). -/
def ShortOrMixed (gc : BitVec 8) : Prop := gc.getLsbD 4 = true ∧ gc.extractLsb' 5 2 = 2

/-- `mx != 0` (R133), on the register's bits (R31). -/
def Mixed (gc : BitVec 8) : Prop := gc.getLsbD 7 = true

/-- The widths SFDECODE takes for this (granule, channel): `SLEN_TABLE[sc]`, `sc` bits [3:0] of the register
(R31, R131). -/
def State.widths (s : State) (gr ch : BitVec 1) : Nat × Nat :=
  s.slen (BitVec.ofNat 4 ((s.gc gr ch).toNat % 16))

/-- One fresh group's part of `need` in Branch B (R134). -/
def groupBits (gr : BitVec 1) (scfsi : BitVec 4) (g size width : Nat) : Nat :=
  if scfsi.getLsbD g = false ∨ gr = 0 then size * width else 0

/-- `need` of R134. -/
def State.bitsNeeded (s : State) (gr ch : BitVec 1) : Nat :=
  let w := s.widths gr ch
  if (s.gc gr ch).getLsbD 4 = true ∧ (s.gc gr ch).extractLsb' 5 2 = 2 then
    if (s.gc gr ch).getLsbD 7 = true then 17 * w.1 + 18 * w.2 else 18 * w.1 + 18 * w.2
  else
    groupBits gr (s.scfsi ch) 0 6 w.1 + groupBits gr (s.scfsi ch) 1 5 w.1
      + groupBits gr (s.scfsi ch) 2 5 w.2 + groupBits gr (s.scfsi ch) 3 5 w.2

/-- No entry of another (granule, channel) than this one is changed (R141). -/
structure OtherEntriesSame (s t : State) (gr ch : BitVec 1) : Prop where
  long : ∀ gr' ch' : BitVec 1, (gr', ch') ≠ (gr, ch) → ∀ band < 21,
    t.longEntry gr' ch' band = s.longEntry gr' ch' band
  short : ∀ gr' ch' : BitVec 1, (gr', ch') ≠ (gr, ch) → ∀ band < 13, ∀ win < 3,
    t.shortEntry gr' ch' band win = s.shortEntry gr' ch' band win

/-- What no SFDECODE changes: the reservoir, the side information, the byte source, and the entries of every other
(granule, channel) (R135, R141). -/
structure OnlyDecoded (s t : State) (gr ch : BitVec 1) : Prop where
  reservoir : SameReservoir s t
  sideInfo : SameSideInfo s t
  source : t.source = s.source
  others : OtherEntriesSame s t gr ch

end Sys2Proof.Machine
end

