-- ==== Sys2Proof/Certificates/Slice0/Obligations.lean ====
section
/-! DEFINITION. The statements for the provers, from the spec's numbered rules.  Where a statement about every state
could fail only in states no run reaches, it has `top <= C` or the invariant `State.Inv` as a premise;
`ResetStateMeetsTheInvariant` and `EveryStepKeepsTheInvariant` state that invariant. -/

open Sys2Proof Sys2Proof.Machine

/-! ### Encoding -/

/-- R72: a word selects the row whose match it has under the row's mask; a word that matches no row is illegal. -/
def Obligations.OpcodeMapSelectsTheRow : Prop :=
  ∀ w : Word,
    (w &&& 0xFFFFFFFF = 0x10000000 ↔ decode w = .ok .readbit)
    ∧ (w &&& 0xFFFFFFC0 = 0x20000000 ↔ ∃ n, decode w = .ok (.readbits n))
    ∧ (w &&& 0xFFFFFFFF = 0x30000000 ↔ decode w = .ok .position)
    ∧ (w &&& 0xFFFF8000 = 0x40000000 ↔ ∃ p, decode w = .ok (.seek p))
    ∧ (w &&& 0xFF000000 = 0x50000000 ↔ ∃ size beg, decode w = .ok (.refill size beg))
    ∧ (w &&& 0xFFFFFFFC = 0x60000000 ↔ ∃ gr ch, decode w = .ok (.sfdecode gr ch))
    ∧ (w &&& 0xFFFFF800 = 0x70000000 ↔ ∃ addr data, decode w = .ok (.wrsi addr data))
    ∧ (w &&& 0xFFFFFF80 = 0x80000000 ↔ ∃ gr ch band, decode w = .ok (.rdsfl gr ch band))
    ∧ (w &&& 0xFFFFFF00 = 0x90000000 ↔ ∃ gr ch band win, decode w = .ok (.rdsfs gr ch band win))
    ∧ (w &&& 0xFFFFFFFF = 0xA0000000 ↔ decode w = .ok .rdstat)
    ∧ ((∀ row ∈ opcodeRows, w &&& row.2 ≠ row.1) ↔ ∃ e, decode w = .error e)

/-- R70, R71, R73: decoding the word of a command gives the command back, every operand at every value its field
holds. -/
def Obligations.DecodeUndoesEncode : Prop :=
  ∀ i : Instr, decode (encode i) = .ok i

/-- R70, R71, R74: a word that decodes to a command is that command's word: no bit of it is ignored. -/
def Obligations.EncodeUndoesDecode : Prop :=
  ∀ (w : Word) (i : Instr), decode w = .ok i → encode i = w

/-- R71, R73: an operand is the unsigned integer in its field, as it stands. -/
def Obligations.OperandsAreTheFieldsOfTheWord : Prop :=
  ∀ w : Word,
    (∀ n, decode w = .ok (.readbits n) → n.toNat = w.toNat % 2 ^ 6)
    ∧ (∀ p, decode w = .ok (.seek p) → p.toNat = w.toNat % 2 ^ 15)
    ∧ (∀ size beg, decode w = .ok (.refill size beg) →
        size.toNat = w.toNat / 2 ^ 12 % 2 ^ 12 ∧ beg.toNat = w.toNat % 2 ^ 12)
    ∧ (∀ gr ch, decode w = .ok (.sfdecode gr ch) →
        gr.toNat = w.toNat / 2 % 2 ∧ ch.toNat = w.toNat % 2)
    ∧ (∀ addr data, decode w = .ok (.wrsi addr data) →
        addr.toNat = w.toNat / 2 ^ 8 % 2 ^ 3 ∧ data.toNat = w.toNat % 2 ^ 8)
    ∧ (∀ gr ch band, decode w = .ok (.rdsfl gr ch band) →
        gr.toNat = w.toNat / 2 ^ 6 % 2 ∧ ch.toNat = w.toNat / 2 ^ 5 % 2
          ∧ band.toNat = w.toNat % 2 ^ 5)
    ∧ (∀ gr ch band win, decode w = .ok (.rdsfs gr ch band win) →
        gr.toNat = w.toNat / 2 ^ 7 % 2 ∧ ch.toNat = w.toNat / 2 ^ 6 % 2
          ∧ band.toNat = w.toNat / 2 ^ 2 % 2 ^ 4 ∧ win.toNat = w.toNat % 2 ^ 2)

/-- R79: the example words decode to the commands they stand for. -/
def Obligations.ExampleWordsDecode : Prop :=
  decode 0x5018C000 = .ok (.refill 396 0) ∧ decode 0x10000000 = .ok .readbit
    ∧ decode 0x20000009 = .ok (.readbits 9) ∧ decode 0x30000000 = .ok .position
    ∧ decode 0x40000015 = .ok (.seek 21) ∧ decode 0x60000002 = .ok (.sfdecode 1 0)
    ∧ decode 0x7000040F = .ok (.wrsi 4 0xF) ∧ decode 0x80000054 = .ok (.rdsfl 1 0 20)
    ∧ decode 0x9000006E = .ok (.rdsfs 0 1 11 2) ∧ decode 0xA0000000 = .ok .rdstat

/-- R74: a word with an opcode of R72 and a reserved bit of its format set completes with IllegalCommand(0) and
changes nothing but the status flags; equivalently it matches no row. -/
def Obligations.ReservedBitsAreIllegal : Prop :=
  ∀ (s : State) (w : Word) (rest : List PortEvent), s.events = .command w :: rest →
    1 ≤ w.toNat / 2 ^ 28 → w.toNat / 2 ^ 28 ≤ 0xA →
    (w &&& reservedMask (w.toNat / 2 ^ 28) ≠ 0 ↔ ∀ row ∈ opcodeRows, w &&& row.2 ≠ row.1)
    ∧ (w &&& reservedMask (w.toNat / 2 ^ 28) ≠ 0 →
        ∃ t, step s = .next t ∧ Completed s t .illegalCommand 0 ∧ OnlyFlags s t
          ∧ t.source = s.source)

/-- R75: a word with a reserved opcode completes with IllegalCommand(0) and changes nothing but the status flags; the
all-zero and the all-ones word are such words; every word matches exactly one row or is illegal. -/
def Obligations.ReservedOpcodesAreIllegal : Prop :=
  ∀ (s : State) (w : Word) (rest : List PortEvent), s.events = .command w :: rest →
    ((w.toNat / 2 ^ 28 = 0 ∨ 0xB ≤ w.toNat / 2 ^ 28) →
        ∃ t, step s = .next t ∧ Completed s t .illegalCommand 0 ∧ OnlyFlags s t
          ∧ t.source = s.source)
    ∧ ((w = 0 ∨ w = 0xFFFFFFFF) →
        ∃ t, step s = .next t ∧ Completed s t .illegalCommand 0 ∧ OnlyFlags s t
          ∧ t.source = s.source)
    ∧ ((∃! row, row ∈ opcodeRows ∧ w &&& row.2 = row.1)
        ∨ ∃ t, step s = .next t ∧ Completed s t .illegalCommand 0 ∧ OnlyFlags s t
          ∧ t.source = s.source)

/-- R76: the decoder's order of checks.  A word that is no command is IllegalCommand; a command whose operand is out
of range completes with BadOperand(0), before its own rule, and changes nothing but the status flags; one whose
operands are in range never does; a REFILL is never out of range, and a size above MAX_SIZE is its own
MainDataTooLarge. -/
def Obligations.OutOfRangeOperandsAreBadOperand : Prop :=
  ∀ (s : State) (w : Word) (rest : List PortEvent), s.events = .command w :: rest →
    (∀ e, decode w = .error e → ∃ t, step s = .next t ∧ Completed s t .illegalCommand 0)
    ∧ ∀ i : Instr, decode w = .ok i →
      (i.wellFormed = false →
          ∃ t, step s = .next t ∧ Completed s t .badOperand 0 ∧ OnlyFlags s t ∧ t.source = s.source)
      ∧ (i.wellFormed = true → ∀ t, step s = .next t →
          ∀ data, t.responses ≠ s.responses ++ [⟨.badOperand, data⟩])
      ∧ (∀ size beg, i = .refill size beg → i.wellFormed = true
          ∧ (s.cfg.maxSize < size.toNat → ∃ t, step s = .next t ∧ Completed s t .mainDataTooLarge 0))

/-! ### Steps, responses, reset, flags -/

/-- R20, R24, R70, R221: where a command word at the port decodes to a command, the step is that command's, unless
the host applies reset while the command waits on the byte source; with nothing presented the block waits and
nothing changes. -/
def Obligations.StepRunsTheDecodedCommand : Prop :=
  ∀ s : State,
    (∀ (w : Word) (rest : List PortEvent) (i : Instr),
      s.events = .command w :: rest → decode w = .ok i →
      ¬ (waits i s = true ∧ rest.head? = some .reset) → step s = exec i s)
    ∧ (s.events = [] → step s = .next s)

/-- R20, R78: a command gives exactly one response and leaves the port, or is a REFILL that waits.  The data of a
response is 0 for OK completions of SEEK, REFILL and WRSI and for every non-OK code but SourceError, where it is
the byte source's own word. -/
def Obligations.OneResponsePerCommand : Prop :=
  ∀ (i : Instr) (s t : State), exec i s = .next t →
    (waits i s = true ∧ t = s)
    ∨ ∃ r : Response, t.responses = s.responses ++ [r] ∧ t.events = s.events.tail
        ∧ (r.code ≠ .ok → r.code ≠ .sourceError → r.data = 0)
        ∧ (r.code = .ok →
            ((∃ p, i = .seek p) ∨ (∃ size beg, i = .refill size beg)
              ∨ ∃ addr data, i = .wrsi addr data) → r.data = 0)
        ∧ (r.code = .sourceError → ∃ size beg rest, i = .refill size beg
            ∧ acquire size.toNat s.source = .sourceError r.data rest)

/-- R35: the values after reset, in the reset state and after every step that takes a reset event. -/
def Obligations.ResetSetsTheResetValues : Prop :=
  ∀ s t : State,
    (t = State.reset
      ∨ ((∃ rest, s.events = .reset :: rest) ∧ step s = .next t)) →
    t.top = 0 ∧ t.bytePos = 0 ∧ t.bitIdx = 0
      ∧ (∀ gr ch : BitVec 1, ∀ band < 21, t.longEntry gr ch band = 0)
      ∧ (∀ gr ch : BitVec 1, ∀ band < 13, ∀ win < 3, t.shortEntry gr ch band win = 0)
      ∧ (∀ gr ch : BitVec 1, t.gc gr ch = 0) ∧ (∀ ch : BitVec 1, t.scfsi ch = 0)
      ∧ t.lastResult = .ok ∧ t.guardFault = false

/-- R220: a reset event always takes effect: it leaves the port, no response is given, and the machine is as at
reset but for its ports and configuration (log entry 8). -/
def Obligations.ResetEventIsTaken : Prop :=
  ∀ (s : State) (rest : List PortEvent), s.events = .reset :: rest →
    ∃ t, step s = .next t
      ∧ t = { State.reset with
              cfg := s.cfg, events := rest, source := s.source, responses := s.responses }

/-- R220: reset while a REFILL waits on the byte source abandons the command: no response, the reset state, and the
bytes already pulled are lost (log entry 8). -/
def Obligations.ResetAbandonsAWaitingRefill : Prop :=
  ∀ (s : State) (w : Word) (rest : List PortEvent) (i : Instr),
    s.events = .command w :: .reset :: rest → decode w = .ok i → waits i s = true →
    ∃ t, step s = .next t
      ∧ t = { State.reset with
              cfg := s.cfg, events := rest, source := [], responses := s.responses }

/-- R30, R220: only reset clears `guardFault`. -/
def Obligations.OnlyResetClearsGuardFault : Prop :=
  ∀ s t : State, step s = .next t → s.guardFault = true → t.guardFault = false → ResetTaken s

/-- R30, R199: `lastResult` takes the code of every command but RDSTAT, and `guardFault` is set by a guard error and
by nothing else; RDSTAT writes neither. -/
def Obligations.FlagsRecordTheCompletion : Prop :=
  ∀ (i : Instr) (s t : State) (r : Response),
    exec i s = .next t → t.responses = s.responses ++ [r] →
    (i ≠ .rdstat → t.lastResult = r.code
      ∧ (t.guardFault = true ↔ s.guardFault = true
          ∨ r.code = .illegalCommand ∨ r.code = .badOperand ∨ r.code = .readBeyondTop
          ∨ r.code = .reservoirOverflow))
    ∧ (i = .rdstat → t.lastResult = s.lastResult ∧ t.guardFault = s.guardFault)

/-- R203: the status flags are not inputs of any command but RDSTAT, which reports them: with other flags a command
gives the same response and the same state but for the flags. -/
def Obligations.StatusFlagsAreNoInputs : Prop :=
  ∀ (i : Instr) (s t : State) (last : ResultCode) (guard : Bool),
    i ≠ .rdstat → exec i s = .next t →
    ∃ t', exec i { s with lastResult := last, guardFault := guard } = .next t'
      ∧ { t' with lastResult := t.lastResult, guardFault := t.guardFault } = t

/-! ### The bit reader -/

/-- R114: READBIT returns the stream bit at the cursor and moves it one bit on, carrying into `bytePos`; it raises
ReadBeyondTop exactly when `bytePos >= top`; it is READBITS 1. -/
def Obligations.ReadBitReturnsTheBitAtTheCursor : Prop :=
  ∀ s : State, s.top.toNat ≤ s.cfg.capacity →
    (s.bytePos.toNat < s.top.toNat → ∃ t, exec .readbit s = .next t
      ∧ Completed s t .ok
          (BitVec.ofNat 32 ((s.buf.read s.bytePos.toNat).toNat / 2 ^ (7 - s.bitIdx.toNat) % 2))
      ∧ OnlyCursor s t
      ∧ (s.bitIdx = 7 → t.bytePos.toNat = s.bytePos.toNat + 1 ∧ t.bitIdx = 0)
      ∧ (s.bitIdx ≠ 7 → t.bytePos = s.bytePos ∧ t.bitIdx.toNat = s.bitIdx.toNat + 1))
    ∧ (s.top.toNat ≤ s.bytePos.toNat → Refuses .readbit s .readBeyondTop)
    ∧ exec .readbit s = exec (.readbits 1) s

/-- R115: READBITS returns `Bits(pos, n)`, the sum R13 gives, and moves the cursor `n` bits on; `n = 0` gives 0
wherever the cursor is; a read that would touch a byte at or beyond `top` is refused as a whole; `n > 32` is
BadOperand before that. -/
def Obligations.ReadBitsReturnsTheBitsAtTheCursor : Prop :=
  ∀ (s : State) (n : BitVec 6), s.top.toNat ≤ s.cfg.capacity →
    (32 < n.toNat → Refuses (.readbits n) s .badOperand)
    ∧ (n = 0 → ∃ t, exec (.readbits n) s = .next t ∧ Completed s t .ok 0 ∧ OnlyFlags s t
        ∧ t.source = s.source)
    ∧ (1 ≤ n.toNat → n.toNat ≤ 32 → 8 * s.top.toNat < s.pos + n.toNat →
        Refuses (.readbits n) s .readBeyondTop)
    ∧ (1 ≤ n.toNat → n.toNat ≤ 32 → s.pos + n.toNat ≤ 8 * s.top.toNat →
        ∃ t v, exec (.readbits n) s = .next t ∧ Completed s t .ok v
          ∧ v.toNat = ∑ k ∈ Finset.range n.toNat, s.buf.bitAt (s.pos + k) * 2 ^ (n.toNat - 1 - k)
          ∧ v.toNat < 2 ^ n.toNat
          ∧ OnlyCursor s t
          ∧ t.bytePos.toNat = (s.pos + n.toNat) / 8 ∧ t.bitIdx.toNat = (s.pos + n.toNat) % 8)

/-- R113: for every `n` in 0..32 an admitted READBITS `n` gives the bits of `n` READBITs in turn, composed with the
first the most significant, and leaves the cursor where they leave it; one that is not admitted is refused as a
whole. -/
def Obligations.MultiBitReadIsSingleBitReads : Prop :=
  ∀ (s : State) (n : BitVec 6), s.top.toNat ≤ s.cfg.capacity → n.toNat ≤ 32 →
    (n.toNat = 0 ∨ s.pos + n.toNat ≤ 8 * s.top.toNat →
      ∃ t u v, exec (.readbits n) s = .next t ∧ Completed s t .ok v
        ∧ runAll (List.replicate n.toNat .readbit) s = some u
        ∧ (∀ r ∈ u.responses.drop s.responses.length, r.code = .ok)
        ∧ (u.responses.drop s.responses.length).length = n.toNat
        ∧ v.toNat = composeBits (u.responses.drop s.responses.length)
        ∧ SameCursor u t ∧ SameReservoir u t)
    ∧ (n.toNat ≠ 0 → 8 * s.top.toNat < s.pos + n.toNat → Refuses (.readbits n) s .readBeyondTop)

/-- R116: POSITION returns `bytePos * 8 + bitIdx` for every cursor, and changes nothing but `lastResult`. -/
def Obligations.PositionReturnsTheCursor : Prop :=
  ∀ s : State, ∃ t v, exec .position s = .next t ∧ Completed s t .ok v
    ∧ v.toNat = s.bytePos.toNat * 8 + s.bitIdx.toNat ∧ v.toNat ≤ 32767
    ∧ OnlyFlags s t ∧ t.source = s.source

/-- R117: SEEK sets `bytePos = bitPos / 8` and `bitIdx = bitPos % 8` for every operand, whatever `top` is; from a
cursor beyond `8 * top` every read of one or more bits raises ReadBeyondTop, while POSITION, SEEK and READBITS 0
work. -/
def Obligations.SeekSetsTheCursor : Prop :=
  ∀ (s : State) (p : BitVec 15), ∃ t, exec (.seek p) s = .next t ∧ Completed s t .ok 0
    ∧ t.bytePos.toNat = p.toNat / 8 ∧ t.bitIdx.toNat = p.toNat % 8 ∧ OnlyCursor s t
    ∧ (8 * s.top.toNat < p.toNat →
        Refuses .readbit t .readBeyondTop
        ∧ (∀ n : BitVec 6, 1 ≤ n.toNat → n.toNat ≤ 32 → Refuses (.readbits n) t .readBeyondTop)
        ∧ (∃ u, exec .position t = .next u ∧ Completed t u .ok (BitVec.ofNat 32 p.toNat))
        ∧ (∀ q, ∃ u, exec (.seek q) t = .next u ∧ Completed t u .ok 0)
        ∧ ∃ u, exec (.readbits 0) t = .next u ∧ Completed t u .ok 0)

/-- R119 item 1: SEEK `p` followed by POSITION returns `p`. -/
def Obligations.SeekThenPositionReturnsTheOperand : Prop :=
  ∀ (s : State) (p : BitVec 15), ∃ t u v, exec (.seek p) s = .next t ∧ exec .position t = .next u
    ∧ Completed t u .ok v ∧ v.toNat = p.toNat

/-- R119 item 4: READBITS `a` then READBITS `b` is READBITS `a + b` with the results joined. -/
def Obligations.ReadsSplit : Prop :=
  ∀ (s : State) (a b : BitVec 6), s.top.toNat ≤ s.cfg.capacity → a.toNat + b.toNat ≤ 32 →
    s.pos + a.toNat + b.toNat ≤ 8 * s.top.toNat →
    ∃ t u v x y, exec (.readbits a) s = .next t ∧ Completed s t .ok x
      ∧ exec (.readbits b) t = .next u ∧ Completed t u .ok y
      ∧ exec (.readbits (a + b)) s = .next v ∧ Completed s v .ok (x <<< b.toNat ||| y)
      ∧ SameCursor u v

/-! ### REFILL -/

/-- R95: the normal commit. -/
def Obligations.RefillKeepsHistoryAndAppends : Prop :=
  ∀ (s : State) (size beg : BitVec 12) (fresh : List Byte) (rest : List PullAnswer),
    RefillAdmitted s size beg → beg.toNat ≤ s.top.toNat →
    acquire size.toNat s.source = .done fresh rest →
    ∃ t, exec (.refill size beg) s = .next t ∧ Completed s t .ok 0
      ∧ (∀ i < beg.toNat, t.buf.read i = s.buf.read (s.top.toNat - beg.toNat + i))
      ∧ (∀ j < size.toNat, fresh[j]? = some (t.buf.read (beg.toNat + j)))
      ∧ (∀ a, beg.toNat + size.toNat ≤ a → t.buf.read a = s.buf.read a)
      ∧ t.top.toNat = beg.toNat + size.toNat ∧ t.bytePos = 0 ∧ t.bitIdx = 0
      ∧ SameTables s t ∧ SameSideInfo s t ∧ t.source = rest

/-- R96: the underrun commit, after which the command reports FrameUndecodable; no other non-OK completion of a
command changes the reservoir or the cursor. -/
def Obligations.UnderrunAppendsAndReports : Prop :=
  (∀ (s : State) (size beg : BitVec 12) (fresh : List Byte) (rest : List PullAnswer),
    RefillAdmitted s size beg → s.top.toNat < beg.toNat →
    acquire size.toNat s.source = .done fresh rest →
    ∃ t, exec (.refill size beg) s = .next t ∧ Completed s t .frameUndecodable 0
      ∧ (∀ j < size.toNat, fresh[j]? = some (t.buf.read (s.top.toNat + j)))
      ∧ (∀ a, a < s.top.toNat ∨ s.top.toNat + size.toNat ≤ a → t.buf.read a = s.buf.read a)
      ∧ t.top.toNat = s.top.toNat + size.toNat ∧ t.bytePos = 0 ∧ t.bitIdx = 0
      ∧ SameTables s t ∧ SameSideInfo s t ∧ t.source = rest)
  ∧ ∀ (i : Instr) (s t : State) (r : Response), exec i s = .next t →
      t.responses = s.responses ++ [r] → r.code ≠ .ok → r.code ≠ .frameUndecodable →
      SameReservoir s t ∧ SameCursor s t

/-- R98: after MainDataTooLarge, ReservoirOverflow, UnexpectedEndOfStream and SourceError only the status flags have
changed, the cursor is not reset, and of the two source failures the source has moved on. -/
def Obligations.FailedRefillChangesOnlyTheFlags : Prop :=
  ∀ (s : State) (size beg : BitVec 12),
    (s.cfg.maxSize < size.toNat → Refuses (.refill size beg) s .mainDataTooLarge)
    ∧ (size.toNat ≤ s.cfg.maxSize →
        s.cfg.capacity
          < (if s.top.toNat < beg.toNat then s.top.toNat else beg.toNat) + size.toNat →
        Refuses (.refill size beg) s .reservoirOverflow)
    ∧ (RefillAdmitted s size beg → ∀ rest, acquire size.toNat s.source = .endOfStream rest →
        ∃ t, exec (.refill size beg) s = .next t ∧ Completed s t .unexpectedEndOfStream 0
          ∧ OnlyFlags s t ∧ t.source = rest)
    ∧ (RefillAdmitted s size beg → ∀ e rest, acquire size.toNat s.source = .sourceError e rest →
        ∃ t, exec (.refill size beg) s = .next t ∧ Completed s t .sourceError e
          ∧ OnlyFlags s t ∧ t.source = rest)

/-- R97: the order of REFILL's checks decides the code it reports. -/
def Obligations.RefillReportsByTheOrderOfItsChecks : Prop :=
  ∀ (s t : State) (size beg : BitVec 12) (r : Response), s.top.toNat ≤ s.cfg.capacity →
    exec (.refill size beg) s = .next t → t.responses = s.responses ++ [r] →
    refillCode s size beg = some r.code
      ∧ (s.top.toNat < beg.toNat → r.code = .unexpectedEndOfStream → t.top = s.top)

/-- R93: byte acquisition.  Answers that signal nothing are gathered until one decides: an error is reported with its
word even if its bytes complete the request, an end before the request is satisfied is UnexpectedEndOfStream, and
an answer that completes the request, end or not, is success with the bytes in the order they came.  With size 0
no pull is made. -/
def Obligations.AcquisitionFollowsTheAnswers : Prop :=
  (∀ (s : State) (size beg : BitVec 12) (before after : List PullAnswer) (last : PullAnswer),
    RefillAdmitted s size beg → s.source = before ++ last :: after →
    (∀ a ∈ before, a.status = .more) → (streamBytes before).length < size.toNat →
    (streamBytes before).length + last.bytes.length ≤ size.toNat →
    (∀ e, last.status = .err e →
        ∃ t, exec (.refill size beg) s = .next t ∧ Completed s t .sourceError e ∧ OnlyFlags s t
          ∧ t.source = after)
    ∧ (last.status = .endOfStream →
        (streamBytes before).length + last.bytes.length < size.toNat →
        ∃ t, exec (.refill size beg) s = .next t ∧ Completed s t .unexpectedEndOfStream 0
          ∧ OnlyFlags s t ∧ t.source = after)
    ∧ ((last.status = .more ∨ last.status = .endOfStream) →
        (streamBytes before).length + last.bytes.length = size.toNat →
        ∃ t, exec (.refill size beg) s = .next t
          ∧ Completed s t (if s.top.toNat < beg.toNat then .frameUndecodable else .ok) 0
          ∧ t.source = after
          ∧ ∀ j < size.toNat, (streamBytes before ++ last.bytes)[j]?
              = some (t.buf.read
                  ((if s.top.toNat < beg.toNat then s.top.toNat else beg.toNat) + j))))
  ∧ ∀ (s : State) (beg : BitVec 12), RefillAdmitted s 0 beg →
      ∃ t, exec (.refill 0 beg) s = .next t
        ∧ Completed s t (if s.top.toNat < beg.toNat then .frameUndecodable else .ok) 0
        ∧ t.source = s.source

/-- R230: how many bytes of the stream a REFILL has consumed, by its result. -/
def Obligations.RefillConsumesTheStreamInOrder : Prop :=
  ∀ (s t : State) (size beg : BitVec 12) (r : Response),
    exec (.refill size beg) s = .next t → t.responses = s.responses ++ [r] →
    ∃ pulled : List Byte, streamBytes s.source = pulled ++ streamBytes t.source
      ∧ (r.code = .ok ∨ r.code = .frameUndecodable → pulled.length = size.toNat)
      ∧ (r.code = .mainDataTooLarge ∨ r.code = .reservoirOverflow → pulled = [])
      ∧ (r.code = .unexpectedEndOfStream → pulled.length < size.toNat)
      ∧ (r.code = .sourceError → pulled.length ≤ size.toNat)

/-- R62, R95, R96, R98: the reservoir is a sliding window of the byte source's stream.  A successful REFILL keeps
the last `beginBytes` valid bytes and appends the next `sizeBytes` of the stream, an underrun appends and discards
nothing, and every other completion of every command leaves the valid bytes as they were. -/
def Obligations.ReservoirIsASlidingWindowOfTheStream : Prop :=
  ∀ (i : Instr) (s t : State) (r : Response), s.top.toNat ≤ s.cfg.capacity → s.cfg.capacity ≤ 4095 →
    exec i s = .next t → t.responses = s.responses ++ [r] →
    (∀ size beg, i = .refill size beg → r.code = .ok →
        t.contents = s.contents.drop (s.top.toNat - beg.toNat)
          ++ (streamBytes s.source).take size.toNat)
    ∧ (∀ size beg, i = .refill size beg → r.code = .frameUndecodable →
        t.contents = s.contents ++ (streamBytes s.source).take size.toNat)
    ∧ (((∃ size beg, i = .refill size beg) → r.code ≠ .ok ∧ r.code ≠ .frameUndecodable) →
        t.contents = s.contents)
    ∧ ((∀ size beg, i ≠ .refill size beg) → t.source = s.source)

/-- R100: after an underrun the next REFILL with `beginBytes' <= top` keeps the `beginBytes'` stream bytes
immediately before its own main data, exactly as if no underrun had happened, and it succeeds if the new `top`
fits. -/
def Obligations.HistoryIsTrueAfterAnUnderrun : Prop :=
  ∀ (s : State) (size beg size' beg' : BitVec 12) (fresh fresh' : List Byte)
    (rest rest' : List PullAnswer),
    RefillAdmitted s size beg → s.top.toNat < beg.toNat →
    acquire size.toNat s.source = .done fresh rest → acquire size'.toNat rest = .done fresh' rest' →
    size'.toNat ≤ s.cfg.maxSize → beg'.toNat ≤ s.top.toNat + size.toNat →
    beg'.toNat + size'.toNat ≤ s.cfg.capacity →
    ∃ t u, exec (.refill size beg) s = .next t ∧ Completed s t .frameUndecodable 0
      ∧ exec (.refill size' beg') t = .next u ∧ Completed t u .ok 0
      ∧ u.contents = (s.contents ++ fresh).drop (s.top.toNat + size.toNat - beg'.toNat) ++ fresh'

/-- R52, R225: a bit kept by a REFILL has another position after it: position `q` after names the bit that stood at
`8 * (top - beginBytes) + q` before. -/
def Obligations.PositionsShiftAcrossARefill : Prop :=
  ∀ (s t : State) (size beg : BitVec 12), RefillAdmitted s size beg → beg.toNat ≤ s.top.toNat →
    exec (.refill size beg) s = .next t → t.responses = s.responses ++ [⟨.ok, 0⟩] →
    ∀ q < 8 * beg.toNat,
      t.buf.bitAt q = s.buf.bitAt (8 * (s.top.toNat - beg.toNat) + q)

/-- R91, R231: while the byte source has answered with too few bytes and signalled nothing, REFILL does not complete:
no response, nothing changed, the command still at the port, for this step and so for every later one (log entry 5:
the waiting step is the model's own form). -/
def Obligations.RefillWaitsForTheSource : Prop :=
  ∀ (s : State) (size beg : BitVec 12) (rest : List PortEvent),
    RefillAdmitted s size beg → (∀ a ∈ s.source, a.status = .more) →
    (streamBytes s.source).length < size.toNat →
    s.events = .command (encode (.refill size beg)) :: rest →
    exec (.refill size beg) s = .next s ∧ waits (.refill size beg) s = true
      ∧ (rest.head? ≠ some .reset → step s = .next s)

/-- R99: the bounds and the zero-size cases with the document's C and MAX_SIZE. -/
def Obligations.RefillBoundsOfTheDocument : Prop :=
  ∀ (s : State) (size beg : BitVec 12), s.cfg.capacity = 2048 → s.cfg.maxSize = 1500 →
    s.top.toNat ≤ 2048 →
    (1501 ≤ size.toNat → Refuses (.refill size beg) s .mainDataTooLarge)
    ∧ (size.toNat ≤ 1500 → beg.toNat ≤ s.top.toNat → 2049 ≤ beg.toNat + size.toNat →
        Refuses (.refill size beg) s .reservoirOverflow)
    ∧ (size.toNat ≤ 1500 → s.top.toNat < beg.toNat → 2049 ≤ s.top.toNat + size.toNat →
        Refuses (.refill size beg) s .reservoirOverflow)
    ∧ (∀ fresh rest, size.toNat ≤ 1500 → beg.toNat ≤ s.top.toNat → beg.toNat + size.toNat ≤ 2048 →
        acquire size.toNat s.source = .done fresh rest →
        ∃ t, exec (.refill size beg) s = .next t ∧ Completed s t .ok 0
          ∧ t.top.toNat = beg.toNat + size.toNat)
    ∧ (∀ fresh rest, size.toNat ≤ 1500 → s.top.toNat < beg.toNat →
        s.top.toNat + size.toNat ≤ 2048 → acquire size.toNat s.source = .done fresh rest →
        ∃ t, exec (.refill size beg) s = .next t ∧ Completed s t .frameUndecodable 0
          ∧ t.top.toNat = s.top.toNat + size.toNat)
    ∧ (size = 0 → beg.toNat ≤ s.top.toNat →
        ∃ t, exec (.refill size beg) s = .next t ∧ Completed s t .ok 0 ∧ t.source = s.source
          ∧ t.contents = s.contents.drop (s.top.toNat - beg.toNat) ∧ t.pos = 0)
    ∧ (size = 0 → s.top.toNat < beg.toNat →
        ∃ t, exec (.refill size beg) s = .next t ∧ Completed s t .frameUndecodable 0
          ∧ t.source = s.source ∧ SameReservoir s t ∧ t.pos = 0)

/-! ### SFDECODE -/

/-- R138: Branch B.  A fresh band takes the bits at its place in the stream, a reused group takes granule 0's values
of the same channel and no bits, the order of the fields is the order of the bands, and nothing else is written. -/
def Obligations.LongBlockReadsOrCopiesEachGroup : Prop :=
  ∀ (s : State) (gr ch : BitVec 1), s.top.toNat ≤ s.cfg.capacity → ¬ ShortOrMixed (s.gc gr ch) →
    s.bitsNeeded gr ch = 0 ∨ s.pos + s.bitsNeeded gr ch ≤ 8 * s.top.toNat →
    ∃ t, exec (.sfdecode gr ch) s = .next t
      ∧ Completed s t .ok (BitVec.ofNat 32 (s.pos + s.bitsNeeded gr ch))
      ∧ t.pos = s.pos + s.bitsNeeded gr ch
      ∧ (∀ band < 21, BandFresh gr (s.scfsi ch) band →
          (t.longEntry gr ch band).toNat
            = s.buf.bits (s.pos + longOffset gr (s.scfsi ch) (s.widths gr ch) band)
                (bandWidth (s.widths gr ch) band))
      ∧ (∀ band < 21, ¬ BandFresh gr (s.scfsi ch) band →
          t.longEntry gr ch band = s.longEntry 0 ch band)
      ∧ t.scalefacS = s.scalefacS ∧ OnlyDecoded s t gr ch

/-- R137: Branch A.  A mixed block reads long bands 0..7 at `slen1` and then short bands 3..11, a short block reads
short bands 0..11, three windows each, `slen1` below band 6 and `slen2` from it on; every other entry is as it
was. -/
def Obligations.ShortAndMixedBlocksReadTheirBands : Prop :=
  ∀ (s : State) (gr ch : BitVec 1), s.top.toNat ≤ s.cfg.capacity → ShortOrMixed (s.gc gr ch) →
    s.bitsNeeded gr ch = 0 ∨ s.pos + s.bitsNeeded gr ch ≤ 8 * s.top.toNat →
    ∃ t, exec (.sfdecode gr ch) s = .next t
      ∧ Completed s t .ok (BitVec.ofNat 32 (s.pos + s.bitsNeeded gr ch))
      ∧ t.pos = s.pos + s.bitsNeeded gr ch
      ∧ (Mixed (s.gc gr ch) →
          (∀ band < 8, (t.longEntry gr ch band).toNat
              = s.buf.bits (s.pos + band * (s.widths gr ch).1) (s.widths gr ch).1)
          ∧ (∀ band, 8 ≤ band → band < 21 → t.longEntry gr ch band = s.longEntry gr ch band)
          ∧ (∀ band, 3 ≤ band → band ≤ 11 → ∀ win < 3, (t.shortEntry gr ch band win).toNat
              = s.buf.bits (s.pos + mixedOffset (s.widths gr ch) band win)
                  (shortBandWidth (s.widths gr ch) band))
          ∧ (∀ band < 13, band < 3 ∨ band = 12 → ∀ win < 3,
              t.shortEntry gr ch band win = s.shortEntry gr ch band win))
      ∧ (¬ Mixed (s.gc gr ch) →
          t.scalefacL = s.scalefacL
          ∧ (∀ band < 12, ∀ win < 3, (t.shortEntry gr ch band win).toNat
              = s.buf.bits (s.pos + shortOffset (s.widths gr ch) band win)
                  (shortBandWidth (s.widths gr ch) band))
          ∧ (∀ win < 3, t.shortEntry gr ch 12 win = s.shortEntry gr ch 12 win))
      ∧ OnlyDecoded s t gr ch

/-- R136: if the bits are not all there, SFDECODE raises ReadBeyondTop before any entry is written and without moving
the cursor; if they are, its reads run through and sum to `need`; if none are needed it succeeds whatever the
cursor holds. -/
def Obligations.SfdecodeIsAllOrNothing : Prop :=
  ∀ (s : State) (gr ch : BitVec 1),
    (0 < s.bitsNeeded gr ch → 8 * s.top.toNat < s.pos + s.bitsNeeded gr ch →
        Refuses (.sfdecode gr ch) s .readBeyondTop)
    ∧ (s.top.toNat ≤ s.cfg.capacity → s.pos + s.bitsNeeded gr ch ≤ 8 * s.top.toNat →
        ∃ t, exec (.sfdecode gr ch) s = .next t ∧ t.lastResult = .ok
          ∧ t.pos = s.pos + s.bitsNeeded gr ch)
    ∧ (s.bitsNeeded gr ch = 0 → ∃ t, exec (.sfdecode gr ch) s = .next t
        ∧ Completed s t .ok (BitVec.ofNat 32 s.pos) ∧ SameCursor s t)

/-- R134, R143: an SFDECODE that returns OK advances the position by exactly `need`, given by R134's formulas, and
returns the new position. -/
def Obligations.SfdecodeConsumesExactlyWhatItNeeds : Prop :=
  ∀ (s t : State) (gr ch : BitVec 1) (data : Word), s.top.toNat ≤ s.cfg.capacity →
    s.cfg.capacity ≤ 4095 →
    exec (.sfdecode gr ch) s = .next t → t.responses = s.responses ++ [⟨.ok, data⟩] →
    t.pos = s.pos + s.bitsNeeded gr ch ∧ data.toNat = t.pos

/-- R134: `need` is at most 144 for every table of R131, and at most 126 with the default table (PRESUMED but for
entry 5: log entry 1). -/
def Obligations.BitsNeededAreBounded : Prop :=
  ∀ (s : State) (gr ch : BitVec 1),
    s.bitsNeeded gr ch ≤ 144
      ∧ (s.cfg.slenTable = defaultSlenTable → s.bitsNeeded gr ch ≤ 126)

/-- R144: SCFSI copy correctness. -/
def Obligations.ScfsiReuseCopiesGranuleZero : Prop :=
  ∀ (s t : State) (ch : BitVec 1) (data : Word),
    ¬ ShortOrMixed (s.gc 1 ch) →
    exec (.sfdecode 1 ch) s = .next t → t.responses = s.responses ++ [⟨.ok, data⟩] →
    (∀ band < 21, (s.scfsi ch).getLsbD (bandGroup band) = true →
        t.longEntry 1 ch band = t.longEntry 0 ch band
          ∧ t.longEntry 0 ch band = s.longEntry 0 ch band)
    ∧ ((∀ g < 4, (s.scfsi ch).getLsbD g = true) → SameCursor s t)

/-- R141: entries a branch does not write keep their value; short band 12 is never written by any command, and is 0
from reset onward. -/
def Obligations.UnwrittenEntriesKeepTheirValue : Prop :=
  (∀ (i : Instr) (s t : State), exec i s = .next t →
    ∀ gr ch : BitVec 1, ∀ win < 3, t.shortEntry gr ch 12 win = s.shortEntry gr ch 12 win)
  ∧ (∀ gr ch : BitVec 1, ∀ win < 3, State.reset.shortEntry gr ch 12 win = 0)
  ∧ (∀ s t : State, step s = .next t → ∀ gr ch : BitVec 1, ∀ win < 3,
      s.shortEntry gr ch 12 win = 0 → t.shortEntry gr ch 12 win = 0)
  ∧ ∀ (s t : State) (gr ch : BitVec 1), exec (.sfdecode gr ch) s = .next t →
      OtherEntriesSame s t gr ch
      ∧ (ShortOrMixed (s.gc gr ch) → Mixed (s.gc gr ch) →
          (∀ band, 8 ≤ band → band < 21 → t.longEntry gr ch band = s.longEntry gr ch band)
          ∧ ∀ band < 3, ∀ win < 3, t.shortEntry gr ch band win = s.shortEntry gr ch band win)
      ∧ (ShortOrMixed (s.gc gr ch) → ¬ Mixed (s.gc gr ch) → t.scalefacL = s.scalefacL)
      ∧ (¬ ShortOrMixed (s.gc gr ch) → t.scalefacS = s.scalefacS)

/-- R140: a field of width 0 is written with 0 and consumes nothing: with both widths 0 a granule-0 long block
completes wherever the cursor is and clears all its 21 entries. -/
def Obligations.ZeroWidthFieldsAreWrittenWithZero : Prop :=
  ∀ (s : State) (ch : BitVec 1), s.widths 0 ch = (0, 0) → ¬ ShortOrMixed (s.gc 0 ch) →
    ∃ t, exec (.sfdecode 0 ch) s = .next t ∧ Completed s t .ok (BitVec.ofNat 32 s.pos)
      ∧ (∀ band < 21, t.longEntry 0 ch band = 0) ∧ SameCursor s t ∧ OnlyDecoded s t 0 ch

/-! ### Register access -/

/-- R162: WRSI writes the one register its address names, or raises BadOperand and writes none. -/
def Obligations.WrsiWritesOneRegister : Prop :=
  ∀ (s : State) (addr : BitVec 3) (data : BitVec 8),
    (6 ≤ addr.toNat → Refuses (.wrsi addr data) s .badOperand)
    ∧ (4 ≤ addr.toNat → 16 ≤ data.toNat → Refuses (.wrsi addr data) s .badOperand)
    ∧ (addr.toNat ≤ 3 → ∃ t, exec (.wrsi addr data) s = .next t ∧ Completed s t .ok 0
        ∧ t.siGC[addr.toNat]? = some data
        ∧ (∀ k, k ≠ addr.toNat → t.siGC[k]? = s.siGC[k]?) ∧ t.siSCFSI = s.siSCFSI
        ∧ SameReservoir s t ∧ SameCursor s t ∧ SameTables s t ∧ t.source = s.source)
    ∧ (4 ≤ addr.toNat → addr.toNat ≤ 5 → data.toNat ≤ 15 →
        ∃ t v, exec (.wrsi addr data) s = .next t ∧ Completed s t .ok 0
        ∧ t.siSCFSI[addr.toNat - 4]? = some v ∧ v.toNat = data.toNat
        ∧ (∀ k, k ≠ addr.toNat - 4 → t.siSCFSI[k]? = s.siSCFSI[k]?) ∧ t.siGC = s.siGC
        ∧ SameReservoir s t ∧ SameCursor s t ∧ SameTables s t ∧ t.source = s.source)

/-- R163: a side-information register holds its value until a WRSI to its address or reset, and is observable only
through SFDECODE: with other side information every other command gives the same response and the same reservoir,
cursor and tables. -/
def Obligations.SideInfoHoldsUntilWrittenOrReset : Prop :=
  (∀ (s t : State), step s = .next t → ¬ ResetTaken s →
    (∀ k < 4, t.siGC[k]? ≠ s.siGC[k]? → ∃ w rest addr data,
        s.events = .command w :: rest ∧ decode w = .ok (.wrsi addr data) ∧ addr.toNat = k)
    ∧ (∀ k < 2, t.siSCFSI[k]? ≠ s.siSCFSI[k]? → ∃ w rest addr data,
        s.events = .command w :: rest ∧ decode w = .ok (.wrsi addr data) ∧ addr.toNat = k + 4))
  ∧ ∀ (i : Instr) (s t : State) (gc : Vector (BitVec 8) 4) (scfsi : Vector (BitVec 4) 2),
      (∀ gr ch, i ≠ .sfdecode gr ch) → exec i s = .next t →
      ∃ t', exec i { s with siGC := gc, siSCFSI := scfsi } = .next t' ∧ t'.responses = t.responses
        ∧ SameReservoir t t' ∧ SameCursor t t' ∧ SameTables t t' ∧ t'.lastResult = t.lastResult
        ∧ t'.guardFault = t.guardFault

/-- R164: RDSFL returns the current entry, or BadOperand for bands above 20. -/
def Obligations.RdsflReturnsTheLongEntry : Prop :=
  ∀ (s : State) (gr ch : BitVec 1) (band : BitVec 5),
    (20 < band.toNat → Refuses (.rdsfl gr ch band) s .badOperand)
    ∧ (band.toNat ≤ 20 → ∃ t v, exec (.rdsfl gr ch band) s = .next t ∧ Completed s t .ok v
        ∧ s.scalefacL[gr.toNat * 42 + ch.toNat * 21 + band.toNat]?.map BitVec.toNat = some v.toNat
        ∧ v.toNat ≤ 15 ∧ OnlyFlags s t ∧ t.source = s.source)

/-- R165: RDSFS returns the current entry, or BadOperand for bands above 12 and windows above 2; band 12 always reads
0 (in every state that meets the invariant). -/
def Obligations.RdsfsReturnsTheShortEntry : Prop :=
  ∀ (s : State) (gr ch : BitVec 1) (band : BitVec 4) (win : BitVec 2),
    (12 < band.toNat ∨ 2 < win.toNat → Refuses (.rdsfs gr ch band win) s .badOperand)
    ∧ (band.toNat ≤ 12 → win.toNat ≤ 2 →
        ∃ t v, exec (.rdsfs gr ch band win) s = .next t ∧ Completed s t .ok v
          ∧ s.scalefacS[gr.toNat * 78 + ch.toNat * 39 + band.toNat * 3 + win.toNat]?.map BitVec.toNat
              = some v.toNat
          ∧ v.toNat ≤ 15 ∧ OnlyFlags s t ∧ t.source = s.source
          ∧ (s.Inv → band = 12 → v = 0))

/-- R166: RDSTAT returns STATUS and changes no state at all, so that a second RDSTAT returns the same word. -/
def Obligations.RdstatReportsAndChangesNothing : Prop :=
  ∀ s : State, ∃ t u v, exec .rdstat s = .next t ∧ Responded s t .ok v
    ∧ v.toNat = s.guardFault.toNat * 2 ^ 16 + s.lastResult.toBits.toNat * 2 ^ 12 + s.top.toNat
    ∧ OnlyFlags s t ∧ t.source = s.source ∧ t.lastResult = s.lastResult
    ∧ t.guardFault = s.guardFault ∧ exec .rdstat t = .next u ∧ Responded t u .ok v

/-! ### Whole-machine rules -/

/-- R200: a non-OK completion of any step leaves all architectural state but the status flags as it was, except
FrameUndecodable, which comes after the underrun commit; the flags record it; an overflow has not advanced the
source, and an end of stream has. -/
def Obligations.NonOkCompletionsArePrecise : Prop :=
  ∀ (s t : State) (r : Response), step s = .next t → t.responses = s.responses ++ [r] →
    r.code ≠ .ok →
    t.lastResult = r.code ∧ t.guardFault = (s.guardFault || r.code.isGuard)
    ∧ (r.code ≠ .frameUndecodable → OnlyFlags s t)
    ∧ (r.code = .reservoirOverflow → t.source = s.source)
    ∧ (r.code = .unexpectedEndOfStream → t.source.length < s.source.length)
    ∧ (r.code = .frameUndecodable →
        (∃ w rest size beg fresh, s.events = .command w :: rest ∧ decode w = .ok (.refill size beg)
          ∧ acquire size.toNat s.source = .done fresh t.source
          ∧ (s.cfg.capacity ≤ 4095 → t.top.toNat = s.top.toNat + size.toNat)
          ∧ (∀ j < size.toNat, fresh[j]? = some (t.buf.read (s.top.toNat + j)))
          ∧ ∀ a, a < s.top.toNat ∨ s.top.toNat + size.toNat ≤ a → t.buf.read a = s.buf.read a)
        ∧ t.bytePos = 0 ∧ t.bitIdx = 0 ∧ SameTables s t ∧ SameSideInfo s t)

/-- R198: a command completes only with the codes of its row. -/
def Obligations.CommandsReportOnlyTheirCodes : Prop :=
  ∀ (i : Instr) (s t : State) (r : Response),
    exec i s = .next t → t.responses = s.responses ++ [r] → r.code ∈ possibleCodes i

/-- R26: only reset and REFILL change `top` and `buf`, and `top` falls only by reset or by the carry-forward of a
successful REFILL. -/
def Obligations.OnlyResetAndRefillChangeTheReservoir : Prop :=
  ∀ s t : State, s.cfg.capacity ≤ 4095 → step s = .next t → ¬ ResetTaken s →
    ((t.top ≠ s.top ∨ ∃ a, t.buf.read a ≠ s.buf.read a) →
        ∃ w rest size beg, s.events = .command w :: rest ∧ decode w = .ok (.refill size beg))
    ∧ (t.top.toNat < s.top.toNat → t.responses = s.responses ++ [⟨.ok, 0⟩])

/-- R55: bytes at offsets at or beyond `top` cannot be observed: two states that differ in such bytes only run every
command alike, with the same response, and end in states that again differ in such bytes only. -/
def Obligations.BytesBeyondTopAreUnobservable : Prop :=
  ∀ (i : Instr) (s s' t : State), s.top.toNat ≤ s.cfg.capacity → s.cfg.capacity ≤ 4095 →
    SameButBeyondTop s s' → exec i s = .next t →
    ∃ t', exec i s' = .next t' ∧ SameButBeyondTop t t'

/-- R77, R222: in every safe state every step has a next state.  This is not completion of a command: an idle port and
a REFILL that waits have a next state too, the same state again, by the model's choice (log entries 5 and 6). -/
def Obligations.EveryStepHasANextStateInSafeStates : Prop :=
  ∀ s : State, s.Inv → ∃ t, step s = .next t

/-- The model's only stop: a read of an offset the reservoir does not have (R50), only where `top > C`.  The fault is
the model's own (log entry 3). -/
def Obligations.OnlyTheMissingOffsetStops : Prop :=
  ∀ (i : Instr) (s : State),
    (∀ f, exec i s = .fault f → s.cfg.capacity < s.top.toNat) ∧ (∀ r, exec i s ≠ .refused r)

/-- R35: the state after reset meets the invariant. -/
def Obligations.ResetStateMeetsTheInvariant : Prop := State.reset.Inv

/-- R25, R30, R94, R141, R196: every step keeps the invariant. -/
def Obligations.EveryStepKeepsTheInvariant : Prop :=
  ∀ s t : State, s.Inv → step s = .next t → t.Inv

/-- R25: `top <= C` and `bitIdx <= 7` hold after every step from a safe state; every step but a SEEK beyond `8 * top`
keeps `pos <= 8 * top`; such a SEEK completes with OK and leaves it broken; and where it does not hold every read of
one or more bits raises ReadBeyondTop. -/
def Obligations.EveryCommandButSeekKeepsTheCursorInside : Prop :=
  ∀ s : State, s.Inv →
    (∀ t, step s = .next t → t.top.toNat ≤ t.cfg.capacity ∧ t.bitIdx.toNat ≤ 7)
    ∧ (∀ t, step s = .next t → s.CursorInside →
        (∀ w rest p, s.events = .command w :: rest → decode w = .ok (.seek p) →
          p.toNat ≤ 8 * s.top.toNat) → t.CursorInside)
    ∧ (∀ p : BitVec 15, 8 * s.top.toNat < p.toNat →
        ∃ t, exec (.seek p) s = .next t ∧ Completed s t .ok 0 ∧ ¬ t.CursorInside)
    ∧ (¬ s.CursorInside → Refuses .readbit s .readBeyondTop
        ∧ ∀ n : BitVec 6, 1 ≤ n.toNat → n.toNat ≤ 32 → Refuses (.readbits n) s .readBeyondTop)

/-! ### The host's side -/

/-- R177, R178, R179: the host's arithmetic. -/
def Obligations.HostComputesTheMainDataSize : Prop :=
  (∀ size : Nat, checkFrameSize size = .error .frameSizeInvalid ↔ 2000 < size)
  ∧ (∀ (bitrate rate : Nat), 0 < rate → ∀ padding : Bool,
      rate * (frameSizeBytes bitrate rate padding - padding.toNat) ≤ 144 * bitrate
        ∧ 144 * bitrate < rate * (frameSizeBytes bitrate rate padding - padding.toNat + 1))
  ∧ ∀ (size : Nat) (crc : Bool) (m : Nat),
      (mainDataSize size .mono crc = some m ↔ m + 17 + 4 + (if crc then 2 else 0) = size)
      ∧ (mainDataSize size .stereo crc = some m ↔ m + 32 + 4 + (if crc then 2 else 0) = size)

/-- R80, R31, R32: WRGC and WRSCFSI put each of their arguments into its own field, where the decoder reads it, and
leave every other side-information register. -/
def Obligations.PseudoCommandsWriteTheirFields : Prop :=
  ∀ (s : State) (gr ch : BitVec 1),
    (∀ (sc : BitVec 4) (ws : BitVec 1) (bt : BitVec 2) (mx : BitVec 1),
      ∃ t, exec (pseudoWrgc gr ch sc ws bt mx) s = .next t ∧ Completed s t .ok 0
        ∧ scalefacCompress (t.gc gr ch) = sc ∧ windowSwitchFlag (t.gc gr ch) = ws
        ∧ blockType (t.gc gr ch) = bt ∧ mixedBlockFlag (t.gc gr ch) = mx
        ∧ (∀ gr' ch' : BitVec 1, (gr', ch') ≠ (gr, ch) → t.gc gr' ch' = s.gc gr' ch')
        ∧ t.siSCFSI = s.siSCFSI)
    ∧ ∀ s0 s1 s2 s3 : BitVec 1,
      ∃ t, exec (pseudoWrscfsi ch s0 s1 s2 s3) s = .next t ∧ Completed s t .ok 0
        ∧ (scfsiFlag (t.scfsi ch) 0 = true ↔ s0 = 1) ∧ (scfsiFlag (t.scfsi ch) 1 = true ↔ s1 = 1)
        ∧ (scfsiFlag (t.scfsi ch) 2 = true ↔ s2 = 1) ∧ (scfsiFlag (t.scfsi ch) 3 = true ↔ s3 = 1)
        ∧ (∀ ch' : BitVec 1, ch' ≠ ch → t.scfsi ch' = s.scfsi ch') ∧ t.siGC = s.siGC

/-- R180, R183: on any response to the frame's REFILL other than OK the host issues no SFDECODE: the frame ends with
that code in the state that REFILL left. -/
def Obligations.FrameStopsWhenItsRefillFails : Prop :=
  ∀ (s t : State) (channels : Channels) (size beg : BitVec 12) (huffman : Collaborator) (r : Response),
    exec (.refill size beg) s = .next t → t.responses = s.responses ++ [r] → r.code ≠ .ok →
    pseudoFrame channels size beg huffman s = .next (t, .aborted r.code)

/-- R182, R183: one (granule, channel) of a frame.  An SFDECODE that is not OK aborts the frame with its code.  After
an OK one the collaborator is handed the returned position; where all its commands are answered with OK, its
failure aborts the frame with HuffmanDecodeError where it left the block, and after its success the next step starts
there, the cursor not reset; a command of it that is not answered with OK aborts the frame with that code (the
model's choice of the code: log entry 13). -/
def Obligations.FrameStepFollowsTheCollaborator : Prop :=
  ∀ (s t : State) (huffman : Collaborator) (gr ch : BitVec 1) (rest : List (BitVec 1 × BitVec 1))
    (r : Response),
    exec (.sfdecode gr ch) s = .next t → t.responses = s.responses ++ [r] →
    (r.code ≠ .ok → hostSteps huffman ((gr, ch) :: rest) s = .next (t, .aborted r.code))
    ∧ (r.code = .ok →
        (∀ u, runAll ((huffman gr ch r.data).commands.map ReadCommand.instr) t = some u →
          (∀ q ∈ u.responses.drop t.responses.length, q.code = .ok) →
          ((huffman gr ch r.data).succeeded = false →
              hostSteps huffman ((gr, ch) :: rest) s = .next (u, .aborted .huffmanDecodeError))
          ∧ ((huffman gr ch r.data).succeeded = true →
              hostSteps huffman ((gr, ch) :: rest) s = hostSteps huffman rest u))
        ∧ ∀ before c after u v q, (huffman gr ch r.data).commands = before ++ c :: after →
            runAll (before.map ReadCommand.instr) t = some u →
            (∀ q ∈ u.responses.drop t.responses.length, q.code = .ok) →
            exec c.instr u = .next v → v.responses = u.responses ++ [q] → q.code ≠ .ok →
            hostSteps huffman ((gr, ch) :: rest) s = .next (v, .aborted q.code))
end

