-- ==== Sys2Proof/Laws/Encoding.lean ====
section
/-! SUPPORT. The words of the commands as numbers (R71), and the fields of a word as quotients and remainders. -/

namespace Sys2Proof

theorem field_toNat (w : Word) (lo len : Nat) :
    (field w lo len).toNat = w.toNat / 2 ^ lo % 2 ^ len := by
  simp [field, BitVec.extractLsb'_toNat, Nat.shiftRight_eq_div_pow]

/-- Appending puts the left part above the right one. -/
theorem toNat_append {m n : Nat} (x : BitVec m) (y : BitVec n) :
    (x ++ y).toNat = x.toNat * 2 ^ n + y.toNat := by
  rw [BitVec.toNat_append, ← Nat.shiftLeft_add_eq_or_of_lt y.isLt, Nat.shiftLeft_eq]

theorem encode_readbit_toNat : (encode .readbit).toNat = 0x10000000 := by decide

theorem encode_position_toNat : (encode .position).toNat = 0x30000000 := by decide

theorem encode_rdstat_toNat : (encode .rdstat).toNat = 0xA0000000 := by decide

theorem encode_readbits_toNat (n : BitVec 6) :
    (encode (.readbits n)).toNat
      = 0x20000000 + n.toNat := by
  change (0x2#4 ++ 0#22 ++ n).toNat = _
  rw [toNat_append, toNat_append]; simp

theorem encode_seek_toNat (p : BitVec 15) :
    (encode (.seek p)).toNat
      = 0x40000000 + p.toNat := by
  change (0x4#4 ++ 0#13 ++ p).toNat = _
  rw [toNat_append, toNat_append]; simp

theorem encode_refill_toNat (size beg : BitVec 12) :
    (encode (.refill size beg)).toNat
      = 0x50000000 + size.toNat * 2 ^ 12 + beg.toNat := by
  change (0x5#4 ++ 0#4 ++ size ++ beg).toNat = _
  rw [toNat_append, toNat_append, toNat_append]; simp; omega

theorem encode_sfdecode_toNat (gr ch : BitVec 1) :
    (encode (.sfdecode gr ch)).toNat
      = 0x60000000 + gr.toNat * 2 + ch.toNat := by
  change (0x6#4 ++ 0#26 ++ gr ++ ch).toNat = _
  rw [toNat_append, toNat_append, toNat_append]; simp; omega

theorem encode_wrsi_toNat (addr : BitVec 3) (data : BitVec 8) :
    (encode (.wrsi addr data)).toNat
      = 0x70000000 + addr.toNat * 2 ^ 8 + data.toNat := by
  change (0x7#4 ++ 0#17 ++ addr ++ data).toNat = _
  rw [toNat_append, toNat_append, toNat_append]; simp; omega

theorem encode_rdsfl_toNat (gr ch : BitVec 1) (band : BitVec 5) :
    (encode (.rdsfl gr ch band)).toNat
      = 0x80000000 + gr.toNat * 2 ^ 6 + ch.toNat * 2 ^ 5 + band.toNat := by
  change (0x8#4 ++ 0#21 ++ gr ++ ch ++ band).toNat = _
  rw [toNat_append, toNat_append, toNat_append, toNat_append]; simp; omega

theorem encode_rdsfs_toNat (gr ch : BitVec 1) (band : BitVec 4) (win : BitVec 2) :
    (encode (.rdsfs gr ch band win)).toNat
      = 0x90000000 + gr.toNat * 2 ^ 7 + ch.toNat * 2 ^ 6 + band.toNat * 2 ^ 2 + win.toNat := by
  change (0x9#4 ++ 0#20 ++ gr ++ ch ++ band ++ win).toNat = _
  rw [toNat_append, toNat_append, toNat_append, toNat_append, toNat_append]; simp; omega

end Sys2Proof
end

