-- ==== Sys2Proof/Laws/Memory.lean ====
section
/-! SUPPORT. The reservoir's bytes: a write keeps the canonical form and the bounds, a read after a write gives the
bytes written and leaves every other offset alone, and a bit depends on its byte only. -/

namespace Sys2Proof.Machine

/-! ### Reading -/

@[simp] theorem Memory.read_nil (a : Nat) : Memory.read [] a = 0 := rfl

@[simp] theorem Memory.read_cons (b : Nat) (v : Byte) (m : Memory) (a : Nat) :
    Memory.read ((b, v) :: m) a = if a = b then v else Memory.read m a := rfl

/-- An offset that is not listed reads 0. -/
theorem Memory.read_unlisted (m : Memory) (a : Nat) (h : ∀ x ∈ m, x.1 ≠ a) : m.read a = 0 := by
  induction m with
  | nil => rfl
  | cons c m ih =>
    obtain ⟨b, v⟩ := c
    have hb : b ≠ a := h (b, v) List.mem_cons_self
    rw [Memory.read_cons, if_neg (Ne.symm hb)]
    exact ih fun x hx => h x (List.mem_cons_of_mem _ hx)

theorem Memory.read_append_left (l r : Memory) (a : Nat) (h : ∀ x ∈ r, x.1 ≠ a) :
    Memory.read (l ++ r) a = Memory.read l a := by
  induction l with
  | nil => simpa using Memory.read_unlisted r a h
  | cons c l ih => obtain ⟨b, v⟩ := c; simp [ih]

theorem Memory.read_append_right (l r : Memory) (a : Nat) (h : ∀ x ∈ l, x.1 ≠ a) :
    Memory.read (l ++ r) a = Memory.read r a := by
  induction l with
  | nil => rfl
  | cons c l ih =>
    obtain ⟨b, v⟩ := c
    have hb : b ≠ a := h (b, v) List.mem_cons_self
    rw [List.cons_append, Memory.read_cons, if_neg (Ne.symm hb)]
    exact ih fun x hx => h x (List.mem_cons_of_mem _ hx)

theorem Memory.read_filter (m : Memory) (p : Nat → Bool) (a : Nat) :
    Memory.read (m.filter fun x => p x.1) a = if p a then m.read a else 0 := by
  induction m with
  | nil => simp
  | cons c m ih =>
    obtain ⟨b, v⟩ := c
    by_cases hb : p b
    · rw [List.filter_cons_of_pos (by simpa using hb), Memory.read_cons, Memory.read_cons, ih]
      by_cases hab : a = b <;> simp [hab, hb]
    · rw [List.filter_cons_of_neg (by simpa using hb), ih, Memory.read_cons]
      by_cases hab : a = b
      · subst hab; simp [hb]
      · simp [hab]

/-! ### The cells of a block of bytes -/

theorem Memory.mem_cells (start : Nat) (bytes : List Byte) (x : Host.Cell)
    (h : x ∈ Memory.cells start bytes) : start ≤ x.1 ∧ x.1 < start + bytes.length ∧ x.2 ≠ 0 := by
  induction bytes generalizing start with
  | nil => simp [Memory.cells] at h
  | cons v rest ih =>
    rw [Memory.cells] at h
    split at h
    · have := ih _ h
      exact ⟨by omega, by simp only [List.length_cons]; omega, this.2.2⟩
    · rename_i hv
      rcases List.mem_cons.mp h with rfl | h
      · exact ⟨Nat.le_refl _, by simp, hv⟩
      · have := ih _ h
        exact ⟨by omega, by simp only [List.length_cons]; omega, this.2.2⟩

theorem Memory.wf_cells (start : Nat) (bytes : List Byte) : Memory.wf (Memory.cells start bytes) := by
  refine ⟨?_, fun x hx => (Memory.mem_cells _ _ x hx).2.2⟩
  induction bytes generalizing start with
  | nil => exact List.Pairwise.nil
  | cons v rest ih =>
    rw [Memory.cells]
    split
    · exact ih _
    · exact List.Pairwise.cons (fun x hx => (Memory.mem_cells _ _ x hx).1) (ih _)

theorem Memory.read_cells (start : Nat) (bytes : List Byte) (a : Nat) :
    Memory.read (Memory.cells start bytes) a
      = if start ≤ a then bytes[a - start]?.getD 0 else 0 := by
  induction bytes generalizing start with
  | nil => simp [Memory.cells]
  | cons v rest ih =>
    have key : Memory.read (Memory.cells start (v :: rest)) a
        = if a = start then v else Memory.read (Memory.cells (start + 1) rest) a := by
      rw [Memory.cells]
      split
      · rename_i hv
        split
        · rename_i ha
          rw [ih, if_neg (by omega), hv]
        · rfl
      · rfl
    rw [key, ih]
    by_cases ha : a = start
    · simp [ha]
    · by_cases hlt : start + 1 ≤ a
      · obtain ⟨k, rfl⟩ : ∃ k, a = start + 1 + k := ⟨a - (start + 1), by omega⟩
        have e : start + 1 + k - start = k + 1 := by omega
        simp [ha, e, show start ≤ start + 1 + k by omega]
      · simp [ha, hlt, show ¬ start ≤ a by omega]

/-! ### Writing -/

/-- A write of bytes keeps the canonical form. -/
theorem Memory.wf_writeBytes (m : Memory) (start : Nat) (bytes : List Byte) (h : m.wf) :
    (m.writeBytes start bytes).wf := by
  obtain ⟨hp, hz⟩ := h
  obtain ⟨cp, cz⟩ := Memory.wf_cells start bytes
  refine ⟨?_, ?_⟩
  · refine List.pairwise_append.mpr ⟨List.pairwise_append.mpr ⟨hp.filter _, cp, ?_⟩, hp.filter _, ?_⟩
    · intro x hx y hy
      have hx' : x.1 < start := by simpa using (List.mem_filter.mp hx).2
      have := (Memory.mem_cells _ _ y hy).1
      omega
    · intro x hx y hy
      have hy' : start + bytes.length ≤ y.1 := by simpa using (List.mem_filter.mp hy).2
      rcases List.mem_append.mp hx with hx | hx
      · have hx' : x.1 < start := by simpa using (List.mem_filter.mp hx).2
        omega
      · have := (Memory.mem_cells _ _ x hx).2.1
        omega
  · intro x hx
    rcases List.mem_append.mp hx with hx | hx
    · rcases List.mem_append.mp hx with hx | hx
      · exact hz x (List.mem_filter.mp hx).1
      · exact cz x hx
    · exact hz x (List.mem_filter.mp hx).1

/-- A write below `c` keeps every listed offset below `c`. -/
theorem Memory.within_writeBytes (m : Memory) (c start : Nat) (bytes : List Byte) (h : m.within c)
    (hc : start + bytes.length ≤ c) : (m.writeBytes start bytes).within c := by
  intro x hx
  rcases List.mem_append.mp hx with hx | hx
  · rcases List.mem_append.mp hx with hx | hx
    · exact h x (List.mem_filter.mp hx).1
    · have := (Memory.mem_cells _ _ x hx).2.1
      omega
  · exact h x (List.mem_filter.mp hx).1

/-- A read after a write: the bytes written at their offsets, the old byte at every other. -/
theorem Memory.read_writeBytes (m : Memory) (start : Nat) (bytes : List Byte) (a : Nat) :
    (m.writeBytes start bytes).read a
      = if start ≤ a ∧ a < start + bytes.length then bytes[a - start]?.getD 0 else m.read a := by
  unfold Memory.writeBytes
  by_cases hlo : a < start
  · rw [Memory.read_append_left, Memory.read_append_left,
      Memory.read_filter m (fun b => decide (b < start)), if_pos (by simpa using hlo),
      if_neg (by omega)]
    · intro x hx
      have := (Memory.mem_cells _ _ x hx).1
      omega
    · intro x hx
      have : start + bytes.length ≤ x.1 := by simpa using (List.mem_filter.mp hx).2
      omega
  · have hleft : ∀ x ∈ m.filter (fun x => decide (x.1 < start)), x.1 ≠ a := by
      intro x hx
      have : x.1 < start := by simpa using (List.mem_filter.mp hx).2
      omega
    by_cases hhi : a < start + bytes.length
    · rw [Memory.read_append_left, Memory.read_append_right _ _ _ hleft, Memory.read_cells,
        if_pos (by omega), if_pos (by omega)]
      intro x hx
      have : start + bytes.length ≤ x.1 := by simpa using (List.mem_filter.mp hx).2
      omega
    · rw [Memory.read_append_right, Memory.read_filter m (fun b => decide (start + bytes.length ≤ b)),
        if_pos (by simpa using Nat.le_of_not_lt hhi), if_neg (by omega)]
      intro x hx
      rcases List.mem_append.mp hx with hx | hx
      · exact hleft x hx
      · have := (Memory.mem_cells _ _ x hx).2.1
        omega

@[simp] theorem Memory.length_readBytes (m : Memory) (start n : Nat) :
    (m.readBytes start n).length = n := by simp [Memory.readBytes]

theorem Memory.getElem?_readBytes (m : Memory) (start n i : Nat) (h : i < n) :
    (m.readBytes start n)[i]? = some (m.read (start + i)) := by
  simp [Memory.readBytes, h]

/-! ### Stream bits -/

theorem streambit_lt_two (b : Byte) (k : Nat) : streambit b k < 2 := by
  unfold streambit
  rw [Nat.and_one_is_mod]
  exact Nat.mod_lt _ (by decide)

theorem Memory.bitAt_lt_two (m : Memory) (p : Nat) : m.bitAt p < 2 := streambit_lt_two _ _

@[simp] theorem Memory.bits_zero (m : Memory) (p : Nat) : m.bits p 0 = 0 := rfl

theorem Memory.bits_succ (m : Memory) (p n : Nat) :
    m.bits p (n + 1) = 2 * m.bits p n + m.bitAt (p + n) := rfl

/-- `n` stream bits make a number below `2 ^ n` (R115). -/
theorem Memory.bits_lt (m : Memory) (p n : Nat) : m.bits p n < 2 ^ n := by
  induction n with
  | zero => simp
  | succ n ih =>
    have := m.bitAt_lt_two (p + n)
    rw [Memory.bits_succ, pow_succ]; omega

/-- Reads compose: the first `a` bits are the more significant (R54, R119). -/
theorem Memory.bits_add (m : Memory) (p a b : Nat) :
    m.bits p (a + b) = m.bits p a * 2 ^ b + m.bits (p + a) b := by
  induction b with
  | zero => simp
  | succ b ih =>
    rw [← Nat.add_assoc, Memory.bits_succ, ih, Memory.bits_succ, pow_succ, Nat.add_assoc p a b]
    ring

/-- Bits agree where the bytes they lie in agree. -/
theorem Memory.bits_congr (m m' : Memory) (p n c : Nat) (h : ∀ a, a < c → m'.read a = m.read a)
    (hn : p + n ≤ 8 * c) : m'.bits p n = m.bits p n := by
  induction n with
  | zero => rfl
  | succ n ih =>
    rw [Memory.bits_succ, Memory.bits_succ, ih (by omega), Memory.bitAt, Memory.bitAt,
      h _ (by omega)]

end Sys2Proof.Machine
end

