-- ==== Sys2Proof/Laws/State.lean ====
section
/-! SUPPORT. One lemma per field per state update, each true by rfl, so that no proof unfolds a record update. -/

namespace Sys2Proof.Machine

@[simp] theorem State.returnOk_eq (s : State) (data : Word) : s.returnOk data = s.complete .ok data := rfl

@[simp] theorem State.raise_eq (s : State) (code : ResultCode) (data : Word) :
    s.raise code data = s.complete code data := rfl

theorem State.advance_eq (s : State) (n : Nat) : s.advance n = s.setPos (s.pos + n) := rfl

/-! ### setFlags -/

@[simp] theorem State.setFlags_cfg (s : State) (code : ResultCode) : (s.setFlags code).cfg = s.cfg := rfl
@[simp] theorem State.setFlags_buf (s : State) (code : ResultCode) : (s.setFlags code).buf = s.buf := rfl
@[simp] theorem State.setFlags_top (s : State) (code : ResultCode) : (s.setFlags code).top = s.top := rfl
@[simp] theorem State.setFlags_bytePos (s : State) (code : ResultCode) :
    (s.setFlags code).bytePos = s.bytePos := rfl
@[simp] theorem State.setFlags_bitIdx (s : State) (code : ResultCode) :
    (s.setFlags code).bitIdx = s.bitIdx := rfl
@[simp] theorem State.setFlags_scalefacL (s : State) (code : ResultCode) :
    (s.setFlags code).scalefacL = s.scalefacL := rfl
@[simp] theorem State.setFlags_scalefacS (s : State) (code : ResultCode) :
    (s.setFlags code).scalefacS = s.scalefacS := rfl
@[simp] theorem State.setFlags_siGC (s : State) (code : ResultCode) : (s.setFlags code).siGC = s.siGC := rfl
@[simp] theorem State.setFlags_siSCFSI (s : State) (code : ResultCode) :
    (s.setFlags code).siSCFSI = s.siSCFSI := rfl
@[simp] theorem State.setFlags_lastResult (s : State) (code : ResultCode) :
    (s.setFlags code).lastResult = code := rfl
@[simp] theorem State.setFlags_guardFault (s : State) (code : ResultCode) :
    (s.setFlags code).guardFault = (s.guardFault || code.isGuard) := rfl
@[simp] theorem State.setFlags_events (s : State) (code : ResultCode) :
    (s.setFlags code).events = s.events := rfl
@[simp] theorem State.setFlags_source (s : State) (code : ResultCode) :
    (s.setFlags code).source = s.source := rfl
@[simp] theorem State.setFlags_responses (s : State) (code : ResultCode) :
    (s.setFlags code).responses = s.responses := rfl

/-! ### respond -/

@[simp] theorem State.respond_cfg (s : State) (code : ResultCode) (data : Word) :
    (s.respond code data).cfg = s.cfg := rfl
@[simp] theorem State.respond_buf (s : State) (code : ResultCode) (data : Word) :
    (s.respond code data).buf = s.buf := rfl
@[simp] theorem State.respond_top (s : State) (code : ResultCode) (data : Word) :
    (s.respond code data).top = s.top := rfl
@[simp] theorem State.respond_bytePos (s : State) (code : ResultCode) (data : Word) :
    (s.respond code data).bytePos = s.bytePos := rfl
@[simp] theorem State.respond_bitIdx (s : State) (code : ResultCode) (data : Word) :
    (s.respond code data).bitIdx = s.bitIdx := rfl
@[simp] theorem State.respond_scalefacL (s : State) (code : ResultCode) (data : Word) :
    (s.respond code data).scalefacL = s.scalefacL := rfl
@[simp] theorem State.respond_scalefacS (s : State) (code : ResultCode) (data : Word) :
    (s.respond code data).scalefacS = s.scalefacS := rfl
@[simp] theorem State.respond_siGC (s : State) (code : ResultCode) (data : Word) :
    (s.respond code data).siGC = s.siGC := rfl
@[simp] theorem State.respond_siSCFSI (s : State) (code : ResultCode) (data : Word) :
    (s.respond code data).siSCFSI = s.siSCFSI := rfl
@[simp] theorem State.respond_lastResult (s : State) (code : ResultCode) (data : Word) :
    (s.respond code data).lastResult = s.lastResult := rfl
@[simp] theorem State.respond_guardFault (s : State) (code : ResultCode) (data : Word) :
    (s.respond code data).guardFault = s.guardFault := rfl
@[simp] theorem State.respond_events (s : State) (code : ResultCode) (data : Word) :
    (s.respond code data).events = s.events.tail := rfl
@[simp] theorem State.respond_source (s : State) (code : ResultCode) (data : Word) :
    (s.respond code data).source = s.source := rfl
@[simp] theorem State.respond_responses (s : State) (code : ResultCode) (data : Word) :
    (s.respond code data).responses = s.responses ++ [⟨code, data⟩] := rfl

/-! ### complete -/

@[simp] theorem State.complete_cfg (s : State) (code : ResultCode) (data : Word) :
    (s.complete code data).cfg = s.cfg := rfl
@[simp] theorem State.complete_buf (s : State) (code : ResultCode) (data : Word) :
    (s.complete code data).buf = s.buf := rfl
@[simp] theorem State.complete_top (s : State) (code : ResultCode) (data : Word) :
    (s.complete code data).top = s.top := rfl
@[simp] theorem State.complete_bytePos (s : State) (code : ResultCode) (data : Word) :
    (s.complete code data).bytePos = s.bytePos := rfl
@[simp] theorem State.complete_bitIdx (s : State) (code : ResultCode) (data : Word) :
    (s.complete code data).bitIdx = s.bitIdx := rfl
@[simp] theorem State.complete_scalefacL (s : State) (code : ResultCode) (data : Word) :
    (s.complete code data).scalefacL = s.scalefacL := rfl
@[simp] theorem State.complete_scalefacS (s : State) (code : ResultCode) (data : Word) :
    (s.complete code data).scalefacS = s.scalefacS := rfl
@[simp] theorem State.complete_siGC (s : State) (code : ResultCode) (data : Word) :
    (s.complete code data).siGC = s.siGC := rfl
@[simp] theorem State.complete_siSCFSI (s : State) (code : ResultCode) (data : Word) :
    (s.complete code data).siSCFSI = s.siSCFSI := rfl
@[simp] theorem State.complete_lastResult (s : State) (code : ResultCode) (data : Word) :
    (s.complete code data).lastResult = code := rfl
@[simp] theorem State.complete_guardFault (s : State) (code : ResultCode) (data : Word) :
    (s.complete code data).guardFault = (s.guardFault || code.isGuard) := rfl
@[simp] theorem State.complete_events (s : State) (code : ResultCode) (data : Word) :
    (s.complete code data).events = s.events.tail := rfl
@[simp] theorem State.complete_source (s : State) (code : ResultCode) (data : Word) :
    (s.complete code data).source = s.source := rfl
@[simp] theorem State.complete_responses (s : State) (code : ResultCode) (data : Word) :
    (s.complete code data).responses = s.responses ++ [⟨code, data⟩] := rfl

/-! ### setPos -/

@[simp] theorem State.setPos_cfg (s : State) (p : Nat) : (s.setPos p).cfg = s.cfg := rfl
@[simp] theorem State.setPos_buf (s : State) (p : Nat) : (s.setPos p).buf = s.buf := rfl
@[simp] theorem State.setPos_top (s : State) (p : Nat) : (s.setPos p).top = s.top := rfl
@[simp] theorem State.setPos_bytePos (s : State) (p : Nat) :
    (s.setPos p).bytePos = BitVec.ofNat 12 (p / 8) := rfl
@[simp] theorem State.setPos_bitIdx (s : State) (p : Nat) :
    (s.setPos p).bitIdx = BitVec.ofNat 3 (p % 8) := rfl
@[simp] theorem State.setPos_scalefacL (s : State) (p : Nat) : (s.setPos p).scalefacL = s.scalefacL := rfl
@[simp] theorem State.setPos_scalefacS (s : State) (p : Nat) : (s.setPos p).scalefacS = s.scalefacS := rfl
@[simp] theorem State.setPos_siGC (s : State) (p : Nat) : (s.setPos p).siGC = s.siGC := rfl
@[simp] theorem State.setPos_siSCFSI (s : State) (p : Nat) : (s.setPos p).siSCFSI = s.siSCFSI := rfl
@[simp] theorem State.setPos_lastResult (s : State) (p : Nat) : (s.setPos p).lastResult = s.lastResult := rfl
@[simp] theorem State.setPos_guardFault (s : State) (p : Nat) : (s.setPos p).guardFault = s.guardFault := rfl
@[simp] theorem State.setPos_events (s : State) (p : Nat) : (s.setPos p).events = s.events := rfl
@[simp] theorem State.setPos_source (s : State) (p : Nat) : (s.setPos p).source = s.source := rfl
@[simp] theorem State.setPos_responses (s : State) (p : Nat) : (s.setPos p).responses = s.responses := rfl

/-! ### setLong -/

@[simp] theorem State.setLong_cfg (s : State) (gr ch : BitVec 1) (band : Nat) (v : BitVec 4) :
    (s.setLong gr ch band v).cfg = s.cfg := rfl
@[simp] theorem State.setLong_buf (s : State) (gr ch : BitVec 1) (band : Nat) (v : BitVec 4) :
    (s.setLong gr ch band v).buf = s.buf := rfl
@[simp] theorem State.setLong_top (s : State) (gr ch : BitVec 1) (band : Nat) (v : BitVec 4) :
    (s.setLong gr ch band v).top = s.top := rfl
@[simp] theorem State.setLong_bytePos (s : State) (gr ch : BitVec 1) (band : Nat) (v : BitVec 4) :
    (s.setLong gr ch band v).bytePos = s.bytePos := rfl
@[simp] theorem State.setLong_bitIdx (s : State) (gr ch : BitVec 1) (band : Nat) (v : BitVec 4) :
    (s.setLong gr ch band v).bitIdx = s.bitIdx := rfl
@[simp] theorem State.setLong_scalefacL (s : State) (gr ch : BitVec 1) (band : Nat) (v : BitVec 4) :
    (s.setLong gr ch band v).scalefacL = s.scalefacL.setIfInBounds (longIndex gr ch band) v := rfl
@[simp] theorem State.setLong_scalefacS (s : State) (gr ch : BitVec 1) (band : Nat) (v : BitVec 4) :
    (s.setLong gr ch band v).scalefacS = s.scalefacS := rfl
@[simp] theorem State.setLong_siGC (s : State) (gr ch : BitVec 1) (band : Nat) (v : BitVec 4) :
    (s.setLong gr ch band v).siGC = s.siGC := rfl
@[simp] theorem State.setLong_siSCFSI (s : State) (gr ch : BitVec 1) (band : Nat) (v : BitVec 4) :
    (s.setLong gr ch band v).siSCFSI = s.siSCFSI := rfl
@[simp] theorem State.setLong_lastResult (s : State) (gr ch : BitVec 1) (band : Nat) (v : BitVec 4) :
    (s.setLong gr ch band v).lastResult = s.lastResult := rfl
@[simp] theorem State.setLong_guardFault (s : State) (gr ch : BitVec 1) (band : Nat) (v : BitVec 4) :
    (s.setLong gr ch band v).guardFault = s.guardFault := rfl
@[simp] theorem State.setLong_events (s : State) (gr ch : BitVec 1) (band : Nat) (v : BitVec 4) :
    (s.setLong gr ch band v).events = s.events := rfl
@[simp] theorem State.setLong_source (s : State) (gr ch : BitVec 1) (band : Nat) (v : BitVec 4) :
    (s.setLong gr ch band v).source = s.source := rfl
@[simp] theorem State.setLong_responses (s : State) (gr ch : BitVec 1) (band : Nat) (v : BitVec 4) :
    (s.setLong gr ch band v).responses = s.responses := rfl

/-! ### setShort -/

@[simp] theorem State.setShort_cfg (s : State) (gr ch : BitVec 1) (band win : Nat) (v : BitVec 4) :
    (s.setShort gr ch band win v).cfg = s.cfg := rfl
@[simp] theorem State.setShort_buf (s : State) (gr ch : BitVec 1) (band win : Nat) (v : BitVec 4) :
    (s.setShort gr ch band win v).buf = s.buf := rfl
@[simp] theorem State.setShort_top (s : State) (gr ch : BitVec 1) (band win : Nat) (v : BitVec 4) :
    (s.setShort gr ch band win v).top = s.top := rfl
@[simp] theorem State.setShort_bytePos (s : State) (gr ch : BitVec 1) (band win : Nat) (v : BitVec 4) :
    (s.setShort gr ch band win v).bytePos = s.bytePos := rfl
@[simp] theorem State.setShort_bitIdx (s : State) (gr ch : BitVec 1) (band win : Nat) (v : BitVec 4) :
    (s.setShort gr ch band win v).bitIdx = s.bitIdx := rfl
@[simp] theorem State.setShort_scalefacL (s : State) (gr ch : BitVec 1) (band win : Nat) (v : BitVec 4) :
    (s.setShort gr ch band win v).scalefacL = s.scalefacL := rfl
@[simp] theorem State.setShort_scalefacS (s : State) (gr ch : BitVec 1) (band win : Nat) (v : BitVec 4) :
    (s.setShort gr ch band win v).scalefacS = s.scalefacS.setIfInBounds (shortIndex gr ch band win) v := rfl
@[simp] theorem State.setShort_siGC (s : State) (gr ch : BitVec 1) (band win : Nat) (v : BitVec 4) :
    (s.setShort gr ch band win v).siGC = s.siGC := rfl
@[simp] theorem State.setShort_siSCFSI (s : State) (gr ch : BitVec 1) (band win : Nat) (v : BitVec 4) :
    (s.setShort gr ch band win v).siSCFSI = s.siSCFSI := rfl
@[simp] theorem State.setShort_lastResult (s : State) (gr ch : BitVec 1) (band win : Nat) (v : BitVec 4) :
    (s.setShort gr ch band win v).lastResult = s.lastResult := rfl
@[simp] theorem State.setShort_guardFault (s : State) (gr ch : BitVec 1) (band win : Nat) (v : BitVec 4) :
    (s.setShort gr ch band win v).guardFault = s.guardFault := rfl
@[simp] theorem State.setShort_events (s : State) (gr ch : BitVec 1) (band win : Nat) (v : BitVec 4) :
    (s.setShort gr ch band win v).events = s.events := rfl
@[simp] theorem State.setShort_source (s : State) (gr ch : BitVec 1) (band win : Nat) (v : BitVec 4) :
    (s.setShort gr ch band win v).source = s.source := rfl
@[simp] theorem State.setShort_responses (s : State) (gr ch : BitVec 1) (band win : Nat) (v : BitVec 4) :
    (s.setShort gr ch band win v).responses = s.responses := rfl

/-! ### commitUnderrun -/

@[simp] theorem State.commitUnderrun_cfg (s : State) (fresh : List Byte) :
    (s.commitUnderrun fresh).cfg = s.cfg := rfl
@[simp] theorem State.commitUnderrun_buf (s : State) (fresh : List Byte) :
    (s.commitUnderrun fresh).buf = s.buf.writeBytes s.top.toNat fresh := rfl
@[simp] theorem State.commitUnderrun_top (s : State) (fresh : List Byte) :
    (s.commitUnderrun fresh).top = BitVec.ofNat 12 (s.top.toNat + fresh.length) := rfl
@[simp] theorem State.commitUnderrun_bytePos (s : State) (fresh : List Byte) :
    (s.commitUnderrun fresh).bytePos = 0 := rfl
@[simp] theorem State.commitUnderrun_bitIdx (s : State) (fresh : List Byte) :
    (s.commitUnderrun fresh).bitIdx = 0 := rfl
@[simp] theorem State.commitUnderrun_scalefacL (s : State) (fresh : List Byte) :
    (s.commitUnderrun fresh).scalefacL = s.scalefacL := rfl
@[simp] theorem State.commitUnderrun_scalefacS (s : State) (fresh : List Byte) :
    (s.commitUnderrun fresh).scalefacS = s.scalefacS := rfl
@[simp] theorem State.commitUnderrun_siGC (s : State) (fresh : List Byte) :
    (s.commitUnderrun fresh).siGC = s.siGC := rfl
@[simp] theorem State.commitUnderrun_siSCFSI (s : State) (fresh : List Byte) :
    (s.commitUnderrun fresh).siSCFSI = s.siSCFSI := rfl
@[simp] theorem State.commitUnderrun_lastResult (s : State) (fresh : List Byte) :
    (s.commitUnderrun fresh).lastResult = s.lastResult := rfl
@[simp] theorem State.commitUnderrun_guardFault (s : State) (fresh : List Byte) :
    (s.commitUnderrun fresh).guardFault = s.guardFault := rfl
@[simp] theorem State.commitUnderrun_events (s : State) (fresh : List Byte) :
    (s.commitUnderrun fresh).events = s.events := rfl
@[simp] theorem State.commitUnderrun_source (s : State) (fresh : List Byte) :
    (s.commitUnderrun fresh).source = s.source := rfl
@[simp] theorem State.commitUnderrun_responses (s : State) (fresh : List Byte) :
    (s.commitUnderrun fresh).responses = s.responses := rfl

/-! ### commitNormal -/

@[simp] theorem State.commitNormal_cfg (s : State) (n : Nat) (fresh : List Byte) :
    (s.commitNormal n fresh).cfg = s.cfg := rfl
@[simp] theorem State.commitNormal_buf (s : State) (n : Nat) (fresh : List Byte) :
    (s.commitNormal n fresh).buf = s.buf.writeBytes 0 (s.buf.readBytes (s.top.toNat - n) n ++ fresh) := rfl
@[simp] theorem State.commitNormal_top (s : State) (n : Nat) (fresh : List Byte) :
    (s.commitNormal n fresh).top = BitVec.ofNat 12 (n + fresh.length) := rfl
@[simp] theorem State.commitNormal_bytePos (s : State) (n : Nat) (fresh : List Byte) :
    (s.commitNormal n fresh).bytePos = 0 := rfl
@[simp] theorem State.commitNormal_bitIdx (s : State) (n : Nat) (fresh : List Byte) :
    (s.commitNormal n fresh).bitIdx = 0 := rfl
@[simp] theorem State.commitNormal_scalefacL (s : State) (n : Nat) (fresh : List Byte) :
    (s.commitNormal n fresh).scalefacL = s.scalefacL := rfl
@[simp] theorem State.commitNormal_scalefacS (s : State) (n : Nat) (fresh : List Byte) :
    (s.commitNormal n fresh).scalefacS = s.scalefacS := rfl
@[simp] theorem State.commitNormal_siGC (s : State) (n : Nat) (fresh : List Byte) :
    (s.commitNormal n fresh).siGC = s.siGC := rfl
@[simp] theorem State.commitNormal_siSCFSI (s : State) (n : Nat) (fresh : List Byte) :
    (s.commitNormal n fresh).siSCFSI = s.siSCFSI := rfl
@[simp] theorem State.commitNormal_lastResult (s : State) (n : Nat) (fresh : List Byte) :
    (s.commitNormal n fresh).lastResult = s.lastResult := rfl
@[simp] theorem State.commitNormal_guardFault (s : State) (n : Nat) (fresh : List Byte) :
    (s.commitNormal n fresh).guardFault = s.guardFault := rfl
@[simp] theorem State.commitNormal_events (s : State) (n : Nat) (fresh : List Byte) :
    (s.commitNormal n fresh).events = s.events := rfl
@[simp] theorem State.commitNormal_source (s : State) (n : Nat) (fresh : List Byte) :
    (s.commitNormal n fresh).source = s.source := rfl
@[simp] theorem State.commitNormal_responses (s : State) (n : Nat) (fresh : List Byte) :
    (s.commitNormal n fresh).responses = s.responses := rfl

/-! ### setSideInfo -/

@[simp] theorem State.setSideInfo_cfg (s : State) (addr : Nat) (data : BitVec 8) :
    (s.setSideInfo addr data).cfg = s.cfg := by
  unfold State.setSideInfo; split <;> rfl
@[simp] theorem State.setSideInfo_buf (s : State) (addr : Nat) (data : BitVec 8) :
    (s.setSideInfo addr data).buf = s.buf := by
  unfold State.setSideInfo; split <;> rfl
@[simp] theorem State.setSideInfo_top (s : State) (addr : Nat) (data : BitVec 8) :
    (s.setSideInfo addr data).top = s.top := by
  unfold State.setSideInfo; split <;> rfl
@[simp] theorem State.setSideInfo_bytePos (s : State) (addr : Nat) (data : BitVec 8) :
    (s.setSideInfo addr data).bytePos = s.bytePos := by
  unfold State.setSideInfo; split <;> rfl
@[simp] theorem State.setSideInfo_bitIdx (s : State) (addr : Nat) (data : BitVec 8) :
    (s.setSideInfo addr data).bitIdx = s.bitIdx := by
  unfold State.setSideInfo; split <;> rfl
@[simp] theorem State.setSideInfo_scalefacL (s : State) (addr : Nat) (data : BitVec 8) :
    (s.setSideInfo addr data).scalefacL = s.scalefacL := by
  unfold State.setSideInfo; split <;> rfl
@[simp] theorem State.setSideInfo_scalefacS (s : State) (addr : Nat) (data : BitVec 8) :
    (s.setSideInfo addr data).scalefacS = s.scalefacS := by
  unfold State.setSideInfo; split <;> rfl
@[simp] theorem State.setSideInfo_lastResult (s : State) (addr : Nat) (data : BitVec 8) :
    (s.setSideInfo addr data).lastResult = s.lastResult := by
  unfold State.setSideInfo; split <;> rfl
@[simp] theorem State.setSideInfo_guardFault (s : State) (addr : Nat) (data : BitVec 8) :
    (s.setSideInfo addr data).guardFault = s.guardFault := by
  unfold State.setSideInfo; split <;> rfl
@[simp] theorem State.setSideInfo_events (s : State) (addr : Nat) (data : BitVec 8) :
    (s.setSideInfo addr data).events = s.events := by
  unfold State.setSideInfo; split <;> rfl
@[simp] theorem State.setSideInfo_source (s : State) (addr : Nat) (data : BitVec 8) :
    (s.setSideInfo addr data).source = s.source := by
  unfold State.setSideInfo; split <;> rfl
@[simp] theorem State.setSideInfo_responses (s : State) (addr : Nat) (data : BitVec 8) :
    (s.setSideInfo addr data).responses = s.responses := by
  unfold State.setSideInfo; split <;> rfl

/-! ### applyReset and abandon -/

@[simp] theorem State.applyReset_cfg (s : State) : s.applyReset.cfg = s.cfg := rfl
@[simp] theorem State.applyReset_buf (s : State) : s.applyReset.buf = State.reset.buf := rfl
@[simp] theorem State.applyReset_top (s : State) : s.applyReset.top = State.reset.top := rfl
@[simp] theorem State.applyReset_bytePos (s : State) : s.applyReset.bytePos = State.reset.bytePos := rfl
@[simp] theorem State.applyReset_bitIdx (s : State) : s.applyReset.bitIdx = State.reset.bitIdx := rfl
@[simp] theorem State.applyReset_scalefacL (s : State) : s.applyReset.scalefacL = State.reset.scalefacL := rfl
@[simp] theorem State.applyReset_scalefacS (s : State) : s.applyReset.scalefacS = State.reset.scalefacS := rfl
@[simp] theorem State.applyReset_siGC (s : State) : s.applyReset.siGC = State.reset.siGC := rfl
@[simp] theorem State.applyReset_siSCFSI (s : State) : s.applyReset.siSCFSI = State.reset.siSCFSI := rfl
@[simp] theorem State.applyReset_lastResult (s : State) : s.applyReset.lastResult = State.reset.lastResult := rfl
@[simp] theorem State.applyReset_guardFault (s : State) : s.applyReset.guardFault = State.reset.guardFault := rfl
@[simp] theorem State.applyReset_events (s : State) : s.applyReset.events = s.events.tail := rfl
@[simp] theorem State.applyReset_source (s : State) : s.applyReset.source = s.source := rfl
@[simp] theorem State.applyReset_responses (s : State) : s.applyReset.responses = s.responses := rfl
@[simp] theorem State.abandon_cfg (s : State) : s.abandon.cfg = s.cfg := rfl
@[simp] theorem State.abandon_buf (s : State) : s.abandon.buf = State.reset.buf := rfl
@[simp] theorem State.abandon_top (s : State) : s.abandon.top = State.reset.top := rfl
@[simp] theorem State.abandon_bytePos (s : State) : s.abandon.bytePos = State.reset.bytePos := rfl
@[simp] theorem State.abandon_bitIdx (s : State) : s.abandon.bitIdx = State.reset.bitIdx := rfl
@[simp] theorem State.abandon_scalefacL (s : State) : s.abandon.scalefacL = State.reset.scalefacL := rfl
@[simp] theorem State.abandon_scalefacS (s : State) : s.abandon.scalefacS = State.reset.scalefacS := rfl
@[simp] theorem State.abandon_siGC (s : State) : s.abandon.siGC = State.reset.siGC := rfl
@[simp] theorem State.abandon_siSCFSI (s : State) : s.abandon.siSCFSI = State.reset.siSCFSI := rfl
@[simp] theorem State.abandon_lastResult (s : State) : s.abandon.lastResult = State.reset.lastResult := rfl
@[simp] theorem State.abandon_guardFault (s : State) : s.abandon.guardFault = State.reset.guardFault := rfl
@[simp] theorem State.abandon_events (s : State) : s.abandon.events = s.events.tail.tail := rfl
@[simp] theorem State.abandon_source (s : State) : s.abandon.source = [] := rfl
@[simp] theorem State.abandon_responses (s : State) : s.abandon.responses = s.responses := rfl

/-! ### The derived readings of the state -/

@[simp] theorem State.complete_pos (s : State) (code : ResultCode) (data : Word) :
    (s.complete code data).pos = s.pos := rfl

@[simp] theorem State.respond_pos (s : State) (code : ResultCode) (data : Word) :
    (s.respond code data).pos = s.pos := rfl

@[simp] theorem State.setLong_pos (s : State) (gr ch : BitVec 1) (band : Nat) (v : BitVec 4) :
    (s.setLong gr ch band v).pos = s.pos := rfl

@[simp] theorem State.setShort_pos (s : State) (gr ch : BitVec 1) (band win : Nat) (v : BitVec 4) :
    (s.setShort gr ch band win v).pos = s.pos := rfl

@[simp] theorem State.complete_longEntry (s : State) (code : ResultCode) (data : Word)
    (gr ch : BitVec 1) (band : Nat) :
    (s.complete code data).longEntry gr ch band = s.longEntry gr ch band := rfl

@[simp] theorem State.complete_shortEntry (s : State) (code : ResultCode) (data : Word)
    (gr ch : BitVec 1) (band win : Nat) :
    (s.complete code data).shortEntry gr ch band win = s.shortEntry gr ch band win := rfl

@[simp] theorem State.setPos_longEntry (s : State) (p : Nat) (gr ch : BitVec 1) (band : Nat) :
    (s.setPos p).longEntry gr ch band = s.longEntry gr ch band := rfl

@[simp] theorem State.setPos_shortEntry (s : State) (p : Nat) (gr ch : BitVec 1) (band win : Nat) :
    (s.setPos p).shortEntry gr ch band win = s.shortEntry gr ch band win := rfl

@[simp] theorem State.setShort_longEntry (s : State) (gr ch : BitVec 1) (band win : Nat) (v : BitVec 4)
    (gr' ch' : BitVec 1) (band' : Nat) :
    (s.setShort gr ch band win v).longEntry gr' ch' band' = s.longEntry gr' ch' band' := rfl

@[simp] theorem State.setLong_shortEntry (s : State) (gr ch : BitVec 1) (band : Nat) (v : BitVec 4)
    (gr' ch' : BitVec 1) (band' win' : Nat) :
    (s.setLong gr ch band v).shortEntry gr' ch' band' win' = s.shortEntry gr' ch' band' win' := rfl

end Sys2Proof.Machine
end

