-- ==== Sys2Proof/Laws/Ops.lean ====
section
/-! SUPPORT. What the shared operations can do, said once: the cursor, the read guard, the tables, the completion of
a command, and the byte source. -/

namespace Sys2Proof.Machine

/-! ### The cursor -/

theorem State.pos_lt (s : State) : s.pos < 32768 := by
  unfold State.pos
  have := s.bytePos.isLt
  have := s.bitIdx.isLt
  omega

/-- Setting the cursor to a 15-bit position and reading it back (R117, R119). -/
theorem State.pos_setPos (s : State) (p : Nat) (h : p < 32768) : (s.setPos p).pos = p := by
  simp only [State.pos, State.setPos_bytePos, State.setPos_bitIdx, BitVec.toNat_ofNat]
  omega

theorem State.toNat_bytePos (s : State) : s.bytePos.toNat = s.pos / 8 := by
  unfold State.pos
  have := s.bitIdx.isLt
  omega

theorem State.toNat_bitIdx (s : State) : s.bitIdx.toNat = s.pos % 8 := by
  unfold State.pos
  have := s.bitIdx.isLt
  omega

/-- The cursor is its bit position: two cursors at one position are equal. -/
theorem State.cursor_eq_of_pos_eq (s t : State) (h : t.pos = s.pos) :
    t.bytePos = s.bytePos ∧ t.bitIdx = s.bitIdx := by
  constructor <;> apply BitVec.eq_of_toNat_eq
  · rw [State.toNat_bytePos, State.toNat_bytePos, h]
  · rw [State.toNat_bitIdx, State.toNat_bitIdx, h]

/-- The bit READBIT takes from the byte is the stream bit at the cursor (R111). -/
theorem bit_at_cursor (s : State) :
    (((s.buf.read s.bytePos.toNat >>> (7 - s.bitIdx.toNat)) &&& 1#8).setWidth 32).toNat
      = s.buf.bitAt s.pos := by
  rw [State.toNat_bytePos, State.toNat_bitIdx, Memory.bitAt, streambit]
  have h : (s.buf.read (s.pos / 8)).toNat >>> (7 - s.pos % 8) &&& 1 < 2 := by
    rw [Nat.and_one_is_mod]; omega
  simp only [BitVec.toNat_setWidth, BitVec.toNat_and, BitVec.toNat_ushiftRight]
  rw [Nat.mod_eq_of_lt]
  · rfl
  · exact Nat.lt_of_lt_of_le h (by decide)

/-! ### The read guard -/

theorem State.room_admitted_iff (s : State) (n : Nat) :
    s.room n = .admitted
      ↔ n = 0 ∨ (s.pos + n ≤ 8 * s.top.toNat ∧ s.pos + n ≤ 8 * s.cfg.capacity) := by
  unfold State.room
  split
  · simp_all
  · split
    · simp; omega
    · split
      · simp; omega
      · simp; omega

theorem State.room_beyondTop_iff (s : State) (n : Nat) :
    s.room n = .beyondTop ↔ n ≠ 0 ∧ 8 * s.top.toNat < s.pos + n := by
  unfold State.room
  split
  · simp_all
  · split
    · simp; omega
    · split <;> (simp; omega)

theorem State.room_noSuchOffset_iff (s : State) (n : Nat) :
    s.room n = .noSuchOffset
      ↔ n ≠ 0 ∧ s.pos + n ≤ 8 * s.top.toNat ∧ 8 * s.cfg.capacity < s.pos + n := by
  unfold State.room
  split
  · simp_all
  · split
    · simp; omega
    · split <;> (simp; omega)

/-- Where `top <= C` a read is admitted or beyond `top`, nothing else (R112). -/
theorem State.room_of_top_le (s : State) (n : Nat) (h : s.top.toNat ≤ s.cfg.capacity) :
    s.room n = if n = 0 ∨ s.pos + n ≤ 8 * s.top.toNat then .admitted else .beyondTop := by
  split
  · rw [State.room_admitted_iff]; omega
  · rw [State.room_beyondTop_iff]; omega

/-! ### The tables -/

theorem longIndex_lt (gr ch : BitVec 1) (band : Nat) (h : band < 21) : longIndex gr ch band < 84 := by
  have := gr.isLt
  have := ch.isLt
  unfold longIndex; omega

theorem shortIndex_lt (gr ch : BitVec 1) (band win : Nat) (hb : band < 13) (hw : win < 3) :
    shortIndex gr ch band win < 156 := by
  have := gr.isLt
  have := ch.isLt
  unfold shortIndex; omega

/-- Each entry of the long table has one place (R27). -/
theorem longIndex_inj (gr ch gr' ch' : BitVec 1) (band band' : Nat) (h : band < 21) (h' : band' < 21) :
    longIndex gr ch band = longIndex gr' ch' band' ↔ gr = gr' ∧ ch = ch' ∧ band = band' := by
  have := gr.isLt
  have := ch.isLt
  have := gr'.isLt
  have := ch'.isLt
  unfold longIndex
  rw [BitVec.toNat_eq, BitVec.toNat_eq]
  omega

/-- Each entry of the short table has one place (R28). -/
theorem shortIndex_inj (gr ch gr' ch' : BitVec 1) (band win band' win' : Nat) (hb : band < 13)
    (hw : win < 3) (hb' : band' < 13) (hw' : win' < 3) :
    shortIndex gr ch band win = shortIndex gr' ch' band' win'
      ↔ gr = gr' ∧ ch = ch' ∧ band = band' ∧ win = win' := by
  have := gr.isLt
  have := ch.isLt
  have := gr'.isLt
  have := ch'.isLt
  unfold shortIndex
  rw [BitVec.toNat_eq, BitVec.toNat_eq]
  omega

/-- Reading the long table after a write to it. -/
theorem State.longEntry_setLong (s : State) (gr ch gr' ch' : BitVec 1) (band band' : Nat) (v : BitVec 4)
    (h : band < 21) (h' : band' < 21) :
    (s.setLong gr ch band v).longEntry gr' ch' band'
      = if gr = gr' ∧ ch = ch' ∧ band = band' then v else s.longEntry gr' ch' band' := by
  unfold State.longEntry
  rw [State.setLong_scalefacL, Vector.getElem?_setIfInBounds]
  simp only [longIndex_inj gr ch gr' ch' band band' h h', longIndex_lt gr ch band h, if_true]
  split <;> rfl

/-- Reading the short table after a write to it. -/
theorem State.shortEntry_setShort (s : State) (gr ch gr' ch' : BitVec 1) (band win band' win' : Nat)
    (v : BitVec 4) (hb : band < 13) (hw : win < 3) (hb' : band' < 13) (hw' : win' < 3) :
    (s.setShort gr ch band win v).shortEntry gr' ch' band' win'
      = if gr = gr' ∧ ch = ch' ∧ band = band' ∧ win = win' then v
        else s.shortEntry gr' ch' band' win' := by
  unfold State.shortEntry
  rw [State.setShort_scalefacS, Vector.getElem?_setIfInBounds]
  simp only [shortIndex_inj gr ch gr' ch' band win band' win' hb hw hb' hw',
    shortIndex_lt gr ch band win hb hw, if_true]
  split <;> rfl

/-- The widths of the slen table are 0..4 (R131). -/
theorem State.slen_le (s : State) (sc : BitVec 4) : (s.slen sc).1 ≤ 4 ∧ (s.slen sc).2 ≤ 4 := by
  unfold State.slen
  exact ⟨Nat.le_of_lt_succ (Fin.isLt _), Nat.le_of_lt_succ (Fin.isLt _)⟩

/-! ### Completing a command -/

/-- A completion writes the flags, gives the response, takes the command off the port, and nothing else. -/
theorem State.completed (s : State) (code : ResultCode) (data : Word) :
    Completed s (s.complete code data) code data := ⟨⟨rfl, rfl, rfl⟩, rfl, rfl⟩

theorem State.complete_onlyFlags (s : State) (code : ResultCode) (data : Word) :
    OnlyFlags s (s.complete code data) :=
  ⟨⟨fun _ => rfl, rfl⟩, ⟨rfl, rfl⟩, ⟨rfl, rfl⟩, ⟨rfl, rfl⟩⟩

/-! ### The byte source -/

@[simp] theorem streamBytes_nil : streamBytes [] = [] := rfl

@[simp] theorem streamBytes_cons (a : PullAnswer) (rest : List PullAnswer) :
    streamBytes (a :: rest) = a.bytes ++ streamBytes rest := rfl

/-- What an Acquire can do (R93): the bytes it takes are the next bytes of the stream, exactly `m` of them when it
is satisfied, fewer than `m` when the stream ends, at most `m` when the source reports an error. -/
def Acquired.Spec (m : Nat) (source : List PullAnswer) : Acquired → Prop
  | .done fresh rest => fresh.length = m ∧ streamBytes source = fresh ++ streamBytes rest
  | .sourceError _ rest =>
    ∃ pulled : List Byte, pulled.length ≤ m ∧ streamBytes source = pulled ++ streamBytes rest
  | .endOfStream rest =>
    ∃ pulled : List Byte, pulled.length < m ∧ streamBytes source = pulled ++ streamBytes rest
  | .waiting => (streamBytes source).length < m

theorem Acquired.spec_after (m : Nat) (got : List Byte) (source : List PullAnswer) (r : Acquired)
    (h : r.Spec m source) (source' : List PullAnswer)
    (hs : streamBytes source' = got ++ streamBytes source) :
    (r.after got).Spec (got.length + m) source' := by
  cases r with
  | done fresh rest =>
    exact ⟨by rw [List.length_append, h.1], by rw [hs, h.2, List.append_assoc]⟩
  | sourceError e rest =>
    obtain ⟨pulled, hl, hp⟩ := h
    exact ⟨got ++ pulled, by rw [List.length_append]; omega, by rw [hs, hp, List.append_assoc]⟩
  | endOfStream rest =>
    obtain ⟨pulled, hl, hp⟩ := h
    exact ⟨got ++ pulled, by rw [List.length_append]; omega, by rw [hs, hp, List.append_assoc]⟩
  | waiting =>
    have h' : (streamBytes source).length < m := h
    show (streamBytes source').length < got.length + m
    rw [hs, List.length_append]; omega

theorem acquire_spec (m : Nat) (source : List PullAnswer) : (acquire m source).Spec m source := by
  induction source generalizing m with
  | nil => cases m <;> simp [acquire, Acquired.Spec]
  | cons a rest ih =>
    cases m with
    | zero => simp [acquire, Acquired.Spec]
    | succ m =>
      rw [acquire]
      split
      · exact ⟨by simp; omega, by simp [← List.append_assoc]⟩
      · split
        · exact ⟨a.bytes, by omega, rfl⟩
        · split
          · exact ⟨a.bytes, by omega, rfl⟩
          · exact ⟨by omega, rfl⟩
        · have := Acquired.spec_after _ a.bytes _ _ (ih (m + 1 - a.bytes.length)) (a :: rest) rfl
          rwa [show a.bytes.length + (m + 1 - a.bytes.length) = m + 1 by omega] at this

/-- A satisfied Acquire gives exactly the bytes asked for, the next of the stream (R62, R93). -/
theorem acquire_done (m : Nat) (source rest : List PullAnswer) (fresh : List Byte)
    (h : acquire m source = .done fresh rest) :
    fresh.length = m ∧ streamBytes source = fresh ++ streamBytes rest := by
  have := acquire_spec m source
  rw [h] at this
  exact this

/-- Answers that signal nothing and do not satisfy the request are gathered (R93). -/
theorem acquire_more (m : Nat) (before after : List PullAnswer)
    (hmore : ∀ a ∈ before, a.status = .more) (hm : (streamBytes before).length < m) :
    acquire m (before ++ after)
      = (acquire (m - (streamBytes before).length) after).after (streamBytes before) := by
  induction before generalizing m with
  | nil => cases h : acquire m after <;> simp [Acquired.after, h]
  | cons a before ih =>
    rw [streamBytes_cons, List.length_append] at hm
    obtain ⟨k, rfl⟩ : ∃ k, m = k + 1 := ⟨m - 1, by omega⟩
    rw [List.cons_append, acquire, if_neg (by omega), hmore a List.mem_cons_self]
    simp only
    rw [ih (k + 1 - a.bytes.length) (fun b hb => hmore b (List.mem_cons_of_mem _ hb)) (by omega)]
    rw [streamBytes_cons, List.length_append, Nat.sub_sub]
    cases acquire (k + 1 - (a.bytes.length + (streamBytes before).length)) after <;>
      simp [Acquired.after]

/-! ### REFILL -/

/-- What the part of REFILL after its checks can do. -/
theorem State.acquireThen_cases (s t : State) (n : Nat) (commit : List Byte → State → State)
    (code : ResultCode) (h : s.acquireThen n commit code = .next t) :
    (∃ fresh rest, acquire n s.source = .done fresh rest ∧ fresh.length = n
        ∧ t = (commit fresh { s with source := rest }).complete code 0)
    ∨ (∃ e rest, acquire n s.source = .sourceError e rest
        ∧ t = { s with source := rest }.complete .sourceError e)
    ∨ (∃ rest, acquire n s.source = .endOfStream rest
        ∧ t = { s with source := rest }.complete .unexpectedEndOfStream 0)
    ∨ (acquire n s.source = .waiting ∧ t = s) := by
  unfold State.acquireThen at h
  cases hacq : acquire n s.source with
  | done fresh rest =>
    simp only [hacq, Host.Outcome.next.injEq] at h
    exact .inl ⟨fresh, rest, rfl, (acquire_done _ _ _ _ hacq).1, h.symm⟩
  | sourceError e rest =>
    simp only [hacq, Host.Outcome.next.injEq] at h
    exact .inr (.inl ⟨e, rest, rfl, h.symm⟩)
  | endOfStream rest =>
    simp only [hacq, Host.Outcome.next.injEq] at h
    exact .inr (.inr (.inl ⟨rest, rfl, h.symm⟩))
  | waiting =>
    simp only [hacq, Host.Outcome.next.injEq] at h
    exact .inr (.inr (.inr ⟨rfl, h.symm⟩))

theorem State.acquireThen_never_stops (s : State) (n : Nat) (commit : List Byte → State → State)
    (code : ResultCode) : ∃ t, s.acquireThen n commit code = .next t := by
  unfold State.acquireThen
  cases acquire n s.source <;> exact ⟨_, rfl⟩

/-- When REFILL takes which path (R92, R97). -/
def RefillPath.Spec (s : State) (size beg : Nat) : RefillPath → Prop
  | .tooLarge => s.cfg.maxSize < size
  | .overflow => size ≤ s.cfg.maxSize ∧ s.cfg.capacity < min s.top.toNat beg + size
  | .noSuchOffset => size ≤ s.cfg.maxSize ∧ beg ≤ s.top.toNat ∧ s.cfg.capacity < s.top.toNat
  | .underrun => size ≤ s.cfg.maxSize ∧ s.top.toNat < beg ∧ s.top.toNat + size ≤ s.cfg.capacity
  | .normal => size ≤ s.cfg.maxSize ∧ beg ≤ s.top.toNat ∧ beg + size ≤ s.cfg.capacity
      ∧ (beg = 0 ∨ s.top.toNat ≤ s.cfg.capacity)

theorem State.refillPath_spec (s : State) (size beg : Nat) :
    (s.refillPath size beg).Spec s size beg := by
  unfold State.refillPath
  split
  · assumption
  · split
    · split
      · exact ⟨by omega, by omega⟩
      · exact ⟨by omega, by omega, by omega⟩
    · split
      · exact ⟨by omega, by omega⟩
      · split
        · exact ⟨by omega, by omega, by omega⟩
        · exact ⟨by omega, by omega, by omega, by omega⟩

theorem State.refillPath_normal (s : State) (size beg : Nat) (hs : size ≤ s.cfg.maxSize)
    (hb : beg ≤ s.top.toNat) (hc : beg + size ≤ s.cfg.capacity) (ht : s.top.toNat ≤ s.cfg.capacity) :
    s.refillPath size beg = .normal := by
  unfold State.refillPath
  rw [if_neg (by omega), if_neg (by omega), if_neg (by omega), if_neg (by omega)]

theorem State.refillPath_underrun (s : State) (size beg : Nat) (hs : size ≤ s.cfg.maxSize)
    (hb : s.top.toNat < beg) (hc : s.top.toNat + size ≤ s.cfg.capacity) :
    s.refillPath size beg = .underrun := by
  unfold State.refillPath
  rw [if_neg (by omega), if_pos hb, if_neg (by omega)]

end Sys2Proof.Machine
end

