-- ==== Sys2Proof/Laws/ScaleFactor.lean ====
section
/-! SUPPORT. What a run of the decoder's assignments does: it writes tables and cursor only, advances by the sum of
the widths, and leaves in each entry what the last assignment to it wrote. -/

namespace Sys2Proof.Machine

/-- The bits one assignment consumes. -/
def SfAction.width : SfAction → Nat
  | .freshLong _ w => w
  | .freshShort _ _ w => w
  | .copyLong _ => 0

/-- Does the assignment write `scalefacL[gr][ch][band]`? -/
def SfAction.writesLong (band : Nat) : SfAction → Bool
  | .freshLong b _ => decide (b = band)
  | .freshShort _ _ _ => false
  | .copyLong b => decide (b = band)

/-- Does the assignment write `scalefacS[gr][ch][band][win]`? -/
def SfAction.writesShort (band win : Nat) : SfAction → Bool
  | .freshLong _ _ => false
  | .freshShort b w _ => decide (b = band) && decide (w = win)
  | .copyLong _ => false

/-- The indices of the assignment lie inside the tables. -/
def SfAction.inTable : SfAction → Bool
  | .freshLong b _ => decide (b < 21)
  | .freshShort b w _ => decide (b < 13) && decide (w < 3)
  | .copyLong b => decide (b < 21)

/-- The bits a run of assignments consumes. -/
def sfWidth (actions : List SfAction) : Nat := (actions.map SfAction.width).sum

/-- A run of the decoder's assignments. -/
abbrev runSf (gr ch : BitVec 1) (s : State) (actions : List SfAction) : State :=
  actions.foldl (runSfAction gr ch) s

/-- A run of assignments writes the tables and the cursor and nothing else. -/
theorem runSf_frame (gr ch : BitVec 1) (s : State) (actions : List SfAction) :
    runSf gr ch s actions
      = { s with
          scalefacL := (runSf gr ch s actions).scalefacL
          scalefacS := (runSf gr ch s actions).scalefacS
          bytePos := (runSf gr ch s actions).bytePos
          bitIdx := (runSf gr ch s actions).bitIdx } := by
  induction actions generalizing s with
  | nil => rfl
  | cons a rest ih =>
    have h := ih (runSfAction gr ch s a)
    have e : runSf gr ch s (a :: rest) = runSf gr ch (runSfAction gr ch s a) rest := rfl
    rw [e]
    cases a <;> exact h

@[simp] theorem runSf_cfg (gr ch : BitVec 1) (s : State) (actions : List SfAction) :
    (runSf gr ch s actions).cfg = s.cfg := by rw [runSf_frame]

@[simp] theorem runSf_buf (gr ch : BitVec 1) (s : State) (actions : List SfAction) :
    (runSf gr ch s actions).buf = s.buf := by rw [runSf_frame]

@[simp] theorem runSf_top (gr ch : BitVec 1) (s : State) (actions : List SfAction) :
    (runSf gr ch s actions).top = s.top := by rw [runSf_frame]

@[simp] theorem runSf_siGC (gr ch : BitVec 1) (s : State) (actions : List SfAction) :
    (runSf gr ch s actions).siGC = s.siGC := by rw [runSf_frame]

@[simp] theorem runSf_siSCFSI (gr ch : BitVec 1) (s : State) (actions : List SfAction) :
    (runSf gr ch s actions).siSCFSI = s.siSCFSI := by rw [runSf_frame]

@[simp] theorem runSf_lastResult (gr ch : BitVec 1) (s : State) (actions : List SfAction) :
    (runSf gr ch s actions).lastResult = s.lastResult := by rw [runSf_frame]

@[simp] theorem runSf_guardFault (gr ch : BitVec 1) (s : State) (actions : List SfAction) :
    (runSf gr ch s actions).guardFault = s.guardFault := by rw [runSf_frame]

@[simp] theorem runSf_events (gr ch : BitVec 1) (s : State) (actions : List SfAction) :
    (runSf gr ch s actions).events = s.events := by rw [runSf_frame]

@[simp] theorem runSf_source (gr ch : BitVec 1) (s : State) (actions : List SfAction) :
    (runSf gr ch s actions).source = s.source := by rw [runSf_frame]

@[simp] theorem runSf_responses (gr ch : BitVec 1) (s : State) (actions : List SfAction) :
    (runSf gr ch s actions).responses = s.responses := by rw [runSf_frame]

theorem sfWidth_cons (a : SfAction) (rest : List SfAction) :
    sfWidth (a :: rest) = a.width + sfWidth rest := by simp [sfWidth]

theorem sfWidth_append (l r : List SfAction) : sfWidth (l ++ r) = sfWidth l + sfWidth r := by
  simp [sfWidth]

theorem pos_runSfAction (gr ch : BitVec 1) (s : State) (a : SfAction) (h : s.pos + a.width < 32768) :
    (runSfAction gr ch s a).pos = s.pos + a.width := by
  cases a with
  | freshLong b w =>
    exact State.pos_setPos (s.setLong gr ch b _) _ h
  | freshShort b w' w =>
    exact State.pos_setPos (s.setShort gr ch b w' _) _ h
  | copyLong b => rw [runSfAction, State.setLong_pos]; rfl

/-- A run of assignments advances the cursor by the sum of their widths (R143). -/
theorem pos_runSf (gr ch : BitVec 1) (s : State) (actions : List SfAction)
    (h : s.pos + sfWidth actions < 32768) :
    (runSf gr ch s actions).pos = s.pos + sfWidth actions := by
  induction actions generalizing s with
  | nil => rfl
  | cons a rest ih =>
    rw [sfWidth_cons] at h
    have hp := pos_runSfAction gr ch s a (by omega)
    show (runSf gr ch (runSfAction gr ch s a) rest).pos = _
    rw [ih _ (by omega), hp, sfWidth_cons, Nat.add_assoc]

/-- An entry of the long table that no assignment of the run names is as before, in every (granule, channel)
(R141). -/
theorem longEntry_runSf_of_not_written (gr ch : BitVec 1) (s : State) (actions : List SfAction)
    (hin : ∀ a ∈ actions, a.inTable = true) (gr' ch' : BitVec 1) (band : Nat) (hb : band < 21)
    (h : ¬ (gr = gr' ∧ ch = ch') ∨ ∀ a ∈ actions, a.writesLong band = false) :
    (runSf gr ch s actions).longEntry gr' ch' band = s.longEntry gr' ch' band := by
  induction actions generalizing s with
  | nil => rfl
  | cons a rest ih =>
    show (runSf gr ch (runSfAction gr ch s a) rest).longEntry gr' ch' band = _
    have ha : (runSfAction gr ch s a).longEntry gr' ch' band = s.longEntry gr' ch' band := by
      have hina := hin a List.mem_cons_self
      have hno : ¬ (gr = gr' ∧ ch = ch') ∨ a.writesLong band = false :=
        h.imp id fun h => h a List.mem_cons_self
      cases a with
      | freshShort b w' w => rfl
      | freshLong b w =>
        have hb' : b < 21 := by simpa [SfAction.inTable] using hina
        rw [runSfAction, State.advance_eq, State.setPos_longEntry,
          State.longEntry_setLong _ _ _ _ _ _ _ _ hb' hb, if_neg]
        rintro ⟨h1, h2, h3⟩
        rcases hno with hno | hno
        · exact hno ⟨h1, h2⟩
        · simp [SfAction.writesLong, h3] at hno
      | copyLong b =>
        have hb' : b < 21 := by simpa [SfAction.inTable] using hina
        rw [runSfAction, State.longEntry_setLong _ _ _ _ _ _ _ _ hb' hb, if_neg]
        rintro ⟨h1, h2, h3⟩
        rcases hno with hno | hno
        · exact hno ⟨h1, h2⟩
        · simp [SfAction.writesLong, h3] at hno
    rw [ih _ (fun x hx => hin x (List.mem_cons_of_mem _ hx))
      (h.imp id fun h x hx => h x (List.mem_cons_of_mem _ hx)), ha]

/-- The same of the short table (R141). -/
theorem shortEntry_runSf_of_not_written (gr ch : BitVec 1) (s : State) (actions : List SfAction)
    (hin : ∀ a ∈ actions, a.inTable = true) (gr' ch' : BitVec 1) (band win : Nat) (hb : band < 13)
    (hw : win < 3)
    (h : ¬ (gr = gr' ∧ ch = ch') ∨ ∀ a ∈ actions, a.writesShort band win = false) :
    (runSf gr ch s actions).shortEntry gr' ch' band win = s.shortEntry gr' ch' band win := by
  induction actions generalizing s with
  | nil => rfl
  | cons a rest ih =>
    show (runSf gr ch (runSfAction gr ch s a) rest).shortEntry gr' ch' band win = _
    have ha : (runSfAction gr ch s a).shortEntry gr' ch' band win = s.shortEntry gr' ch' band win := by
      have hina := hin a List.mem_cons_self
      have hno : ¬ (gr = gr' ∧ ch = ch') ∨ a.writesShort band win = false :=
        h.imp id fun h => h a List.mem_cons_self
      cases a with
      | freshLong b w => rfl
      | copyLong b => rfl
      | freshShort b w' w =>
        have hb' : b < 13 ∧ w' < 3 := by simpa [SfAction.inTable] using hina
        rw [runSfAction, State.advance_eq, State.setPos_shortEntry,
          State.shortEntry_setShort _ _ _ _ _ _ _ _ _ _ hb'.1 hb'.2 hb hw, if_neg]
        rintro ⟨h1, h2, h3, h4⟩
        rcases hno with hno | hno
        · exact hno ⟨h1, h2⟩
        · simp [SfAction.writesShort, h3, h4] at hno
    rw [ih _ (fun x hx => hin x (List.mem_cons_of_mem _ hx))
      (h.imp id fun h x hx => h x (List.mem_cons_of_mem _ hx)), ha]

/-- A long entry read fresh holds the bits at the place its assignment comes to (R138, R139, R146). -/
theorem longEntry_runSf_fresh (gr ch : BitVec 1) (s : State) (before after : List SfAction)
    (band width : Nat) (hb : band < 21)
    (hin : ∀ a ∈ before ++ .freshLong band width :: after, a.inTable = true)
    (hafter : ∀ a ∈ after, a.writesLong band = false)
    (hpos : s.pos + sfWidth before < 32768) :
    (runSf gr ch s (before ++ .freshLong band width :: after)).longEntry gr ch band
      = BitVec.ofNat 4 (s.buf.bits (s.pos + sfWidth before) width) := by
  rw [runSf, List.foldl_append, List.foldl_cons,
    longEntry_runSf_of_not_written gr ch _ after
      (fun a ha => hin a (List.mem_append_right _ (List.mem_cons_of_mem _ ha))) gr ch band hb
      (.inr hafter),
    runSfAction, State.advance_eq, State.setPos_longEntry,
    State.longEntry_setLong _ _ _ _ _ _ _ _ hb hb, if_pos ⟨rfl, rfl, rfl⟩]
  rw [runSf_buf, pos_runSf gr ch s before hpos]

/-- A short entry read fresh holds the bits at the place its assignment comes to (R137, R139, R146). -/
theorem shortEntry_runSf_fresh (gr ch : BitVec 1) (s : State) (before after : List SfAction)
    (band win width : Nat) (hb : band < 13) (hw : win < 3)
    (hin : ∀ a ∈ before ++ .freshShort band win width :: after, a.inTable = true)
    (hafter : ∀ a ∈ after, a.writesShort band win = false)
    (hpos : s.pos + sfWidth before < 32768) :
    (runSf gr ch s (before ++ .freshShort band win width :: after)).shortEntry gr ch band win
      = BitVec.ofNat 4 (s.buf.bits (s.pos + sfWidth before) width) := by
  rw [runSf, List.foldl_append, List.foldl_cons,
    shortEntry_runSf_of_not_written gr ch _ after
      (fun a ha => hin a (List.mem_append_right _ (List.mem_cons_of_mem _ ha))) gr ch band win hb hw
      (.inr hafter),
    runSfAction, State.advance_eq, State.setPos_shortEntry,
    State.shortEntry_setShort _ _ _ _ _ _ _ _ _ _ hb hw hb hw, if_pos ⟨rfl, rfl, rfl, rfl⟩]
  rw [runSf_buf, pos_runSf gr ch s before hpos]

theorem sfWidth_flatMap (l : List Nat) (f : Nat → List SfAction) :
    sfWidth (l.flatMap f) = (l.map fun b => sfWidth (f b)).sum := by
  induction l with
  | nil => rfl
  | cons b l ih => rw [List.flatMap_cons, sfWidth_append, ih, List.map_cons, List.sum_cons]

theorem sfWidth_shortBandActions (slen : Nat × Nat) (band : Nat) :
    sfWidth (shortBandActions slen band) = 3 * shortWidth slen band := by
  simp [sfWidth, shortBandActions, Function.comp_def, SfAction.width]
  omega

theorem sfWidth_freshLongs (l : List Nat) (w : Nat) :
    sfWidth (l.map fun band => .freshLong band w) = l.length * w := by
  simp [sfWidth, Function.comp_def, SfAction.width]

/-- `need` is the sum of the widths of the branch's assignments (R134, R143). -/
theorem sfWidth_sfActions (branch : Branch) (gr : BitVec 1) (scfsi : BitVec 4) (slen : Nat × Nat) :
    sfWidth (sfActions branch gr scfsi slen) = needBits branch gr scfsi slen := by
  obtain ⟨a, b⟩ := slen
  cases branch with
  | mixed =>
    rw [sfActions, sfWidth_append, sfWidth_freshLongs, sfWidth_flatMap]
    simp only [sfWidth_shortBandActions, List.length_range, shortWidth, needBits]
    simp only [List.range', List.map_cons, List.map_nil, List.sum_cons, List.sum_nil,
      Nat.reduceAdd, Nat.reduceLT, if_true, if_false]
    omega
  | short =>
    rw [sfActions, sfWidth_flatMap]
    simp only [sfWidth_shortBandActions, shortWidth, needBits]
    simp only [List.range, List.range.loop, List.map_cons, List.map_nil, List.sum_cons,
      List.sum_nil, Nat.reduceLT, if_true, if_false]
    omega
  | long =>
    have key : ∀ g, sfWidth (groupActions gr scfsi (a, b) g) = groupNeed gr scfsi (a, b) g := by
      intro g
      unfold groupActions groupNeed
      split <;> simp [sfWidth, Function.comp_def, SfAction.width]
    have e : sfActions .long gr scfsi (a, b)
        = groupActions gr scfsi (a, b) 0 ++ (groupActions gr scfsi (a, b) 1
          ++ (groupActions gr scfsi (a, b) 2 ++ groupActions gr scfsi (a, b) 3)) := by
      simp [sfActions, List.range, List.range.loop]
    rw [e, sfWidth_append, sfWidth_append, sfWidth_append, key, key, key, key]
    simp only [needBits]; omega

/-- Every assignment of a branch lies inside the tables, and none writes short band 12 (R141). -/
theorem sfActions_inTable (branch : Branch) (gr : BitVec 1) (scfsi : BitVec 4) (slen : Nat × Nat) :
    ∀ a ∈ sfActions branch gr scfsi slen,
      a.inTable = true ∧ ∀ win, a.writesShort 12 win = false := by
  intro a ha
  cases branch with
  | mixed =>
    simp only [sfActions, List.mem_append, List.mem_map, List.mem_range, List.mem_flatMap,
      shortBandActions, List.mem_range'_1] at ha
    rcases ha with ⟨b, hb, rfl⟩ | ⟨b, hb, w, hw, rfl⟩
    · exact ⟨by simp [SfAction.inTable]; omega, fun _ => rfl⟩
    · exact ⟨by simp [SfAction.inTable]; omega, fun _ => by simp [SfAction.writesShort]; omega⟩
  | short =>
    simp only [sfActions, List.mem_map, List.mem_range, List.mem_flatMap, shortBandActions] at ha
    obtain ⟨b, hb, w, hw, rfl⟩ := ha
    exact ⟨by simp [SfAction.inTable]; omega, fun _ => by simp [SfAction.writesShort]; omega⟩
  | long =>
    simp only [sfActions, List.mem_range, List.mem_flatMap] at ha
    obtain ⟨g, hg, ha⟩ := ha
    have hband : ∀ b ∈ groupBands g, b < 21 := by
      intro b hb
      unfold groupBands at hb
      split at hb <;> (simp only [List.mem_range'_1] at hb; omega)
    unfold groupActions at ha
    split at ha <;>
    · obtain ⟨b, hb, rfl⟩ := List.mem_map.mp ha
      exact ⟨by simpa [SfAction.inTable] using hband b hb, fun _ => rfl⟩

/-- `need <= 144` for every table of widths 0..4 (R134). -/
theorem needBits_le (branch : Branch) (gr : BitVec 1) (scfsi : BitVec 4) (slen : Nat × Nat)
    (h : slen.1 ≤ 4 ∧ slen.2 ≤ 4) : needBits branch gr scfsi slen ≤ 144 := by
  obtain ⟨a, b⟩ := slen
  simp only at h
  cases branch with
  | mixed => simp only [needBits]; omega
  | short => simp only [needBits]; omega
  | long =>
    have hg : ∀ g, groupNeed gr scfsi (a, b) g ≤ 24 := by
      intro g
      unfold groupNeed
      split
      · have hl : (groupBands g).length ≤ 6 := by unfold groupBands; split <;> simp
        have hw : longWidth (a, b) g ≤ 4 := by unfold longWidth; split <;> omega
        calc (groupBands g).length * longWidth (a, b) g ≤ 6 * 4 := Nat.mul_le_mul hl hw
          _ = 24 := rfl
      · omega
    have h0 := hg 0
    have h1 := hg 1
    have h2 := hg 2
    have h3 := hg 3
    simp only [needBits]; omega

end Sys2Proof.Machine
end

