-- ==== Sys2Proof/Laws/Exec.lean ====
section
/-! SUPPORT. What a command can do, said once: every next state of `exec` is one of the effects below. -/

namespace Sys2Proof.Machine

/-- Every way a command can end in a next state, with what is known there. -/
inductive Effect (i : Instr) (s : State) : State → Prop where
  /-- REFILL waits for the byte source (R231). -/
  | waits (h : waits i s = true) : Effect i s s
  /-- RDSTAT (R166). -/
  | status (hi : i = .rdstat) : Effect i s (s.respond .ok s.statusWord)
  /-- An error found before anything is changed (R200). -/
  | raised (code : ResultCode)
      (h : code = .badOperand ∨ code = .readBeyondTop ∨ code = .reservoirOverflow
        ∨ code = .mainDataTooLarge)
      (hi : code ∈ possibleCodes i) : Effect i s (s.complete code 0)
  /-- A command that only answers. -/
  | answered (data : Word)
      (hi : (∃ n, i = .readbits n) ∨ i = .position ∨ (∃ gr ch band, i = .rdsfl gr ch band)
        ∨ ∃ gr ch band win, i = .rdsfs gr ch band win) : Effect i s (s.complete .ok data)
  /-- READBIT and READBITS: the cursor moves inside the valid region (R112, R118). -/
  | read (n : Nat) (data : Word) (hi : i = .readbit ∨ ∃ k, i = .readbits k)
      (h : s.pos + n ≤ 8 * s.top.toNat) (hc : s.pos + n ≤ 8 * s.cfg.capacity) :
      Effect i s ((s.setPos (s.pos + n)).complete .ok data)
  /-- SEEK (R117). -/
  | sought (bitPos : BitVec 15) (hi : i = .seek bitPos) :
      Effect i s ((s.setPos bitPos.toNat).complete .ok 0)
  /-- SFDECODE with all its bits there (R135, R136). -/
  | decoded (gr ch : BitVec 1) (hi : i = .sfdecode gr ch) (branch : Branch) (slen : Nat × Nat)
      (hb : branch = selectBranch (s.gc gr ch))
      (hs : slen = s.slen (scalefacCompress (s.gc gr ch)))
      (h : needBits branch gr (s.scfsi ch) slen = 0
        ∨ s.pos + needBits branch gr (s.scfsi ch) slen ≤ 8 * s.top.toNat)
      (data : Word)
      (hd : data = BitVec.ofNat 32 (runSf gr ch s (sfActions branch gr (s.scfsi ch) slen)).pos) :
      Effect i s ((runSf gr ch s (sfActions branch gr (s.scfsi ch) slen)).complete .ok data)
  /-- WRSI (R162). -/
  | wrote (addr : BitVec 3) (data : BitVec 8) (hi : i = .wrsi addr data)
      (h : wrsiAccepts addr data = true) :
      Effect i s ((s.setSideInfo addr.toNat data).complete .ok 0)
  /-- REFILL whose Acquire failed (R93, R98). -/
  | sourceFailed (size beg : BitVec 12) (hi : i = .refill size beg) (code : ResultCode)
      (data : Word) (rest : List PullAnswer)
      (h : (code = .unexpectedEndOfStream ∧ data = 0 ∧ acquire size.toNat s.source = .endOfStream rest)
        ∨ (code = .sourceError ∧ acquire size.toNat s.source = .sourceError data rest)) :
      Effect i s ({ s with source := rest }.complete code data)
  /-- The underrun commit and FrameUndecodable (R96). -/
  | underrun (size beg : BitVec 12) (hi : i = .refill size beg) (fresh : List Byte)
      (rest : List PullAnswer)
      (hacq : acquire size.toNat s.source = .done fresh rest) (hlen : fresh.length = size.toNat)
      (hb : s.top.toNat < beg.toNat) (hc : s.top.toNat + size.toNat ≤ s.cfg.capacity) :
      Effect i s (({ s with source := rest }.commitUnderrun fresh).complete .frameUndecodable 0)
  /-- The normal commit (R95). -/
  | normal (size beg : BitVec 12) (hi : i = .refill size beg) (fresh : List Byte)
      (rest : List PullAnswer)
      (hacq : acquire size.toNat s.source = .done fresh rest) (hlen : fresh.length = size.toNat)
      (hb : beg.toNat ≤ s.top.toNat) (hc : beg.toNat + size.toNat ≤ s.cfg.capacity) :
      Effect i s (({ s with source := rest }.commitNormal beg.toNat fresh).complete .ok 0)

/-- READBIT's step of the cursor is one bit position (R114). -/
theorem readbit_cursor (s : State) (h : s.pos + 1 < 32768) :
    (if s.bitIdx = 7 then { s with bytePos := s.bytePos + 1, bitIdx := 0 }
      else { s with bitIdx := s.bitIdx + 1 }) = s.setPos (s.pos + 1) := by
  unfold State.pos at h
  have h7 : s.bitIdx = 7 ↔ s.bitIdx.toNat = 7 := by rw [BitVec.toNat_eq]; rfl
  have hlt := s.bitIdx.isLt
  have h1 : (1 : BitVec 3).toNat = 1 := rfl
  have h1' : (1 : BitVec 12).toNat = 1 := rfl
  unfold State.setPos State.pos
  split
  · rename_i h'
    rw [h7] at h'
    congr 1 <;> apply BitVec.eq_of_toNat_eq
    · rw [BitVec.toNat_add, BitVec.toNat_ofNat, h1']; omega
    · rw [BitVec.toNat_ofNat]; show 0 = _; omega
  · rename_i h'
    rw [h7] at h'
    congr 1 <;> apply BitVec.eq_of_toNat_eq
    · rw [BitVec.toNat_ofNat]; have := s.bytePos.isLt; omega
    · rw [BitVec.toNat_add, BitVec.toNat_ofNat, h1]; omega

theorem execReadbit_effect (s t : State) (h : execReadbit s = .next t) : Effect .readbit s t := by
  unfold execReadbit at h
  split at h
  · cases h; exact .raised _ (.inr (.inl rfl)) (by simp [possibleCodes])
  · cases h
  · rename_i hroom
    rw [State.room_admitted_iff] at hroom
    have htop := s.top.isLt
    simp only [readbit_cursor s (by omega), State.returnOk_eq, Host.Outcome.next.injEq] at h
    exact h ▸ .read 1 _ (.inl rfl) (by omega) (by omega)

theorem execReadbits_effect (n : BitVec 6) (s t : State) (h : execReadbits n s = .next t) :
    Effect (.readbits n) s t := by
  unfold execReadbits at h
  split at h
  · split at h
    · cases h; exact .answered _ (.inl ⟨n, rfl⟩)
    · rename_i hn
      have hn' : n.toNat ≠ 0 := fun hz => hn (BitVec.eq_of_toNat_eq (by simpa using hz))
      split at h
      · cases h; exact .raised _ (.inr (.inl rfl)) (by simp [possibleCodes])
      · cases h
      · rename_i hroom
        rw [State.room_admitted_iff] at hroom
        cases h
        exact .read n.toNat _ (.inr ⟨n, rfl⟩) (by omega) (by omega)
  · cases h; exact .raised _ (.inl rfl) (by simp [possibleCodes])

theorem execRefill_effect (size beg : BitVec 12) (s t : State)
    (h : execRefill size beg s = .next t) : Effect (.refill size beg) s t := by
  unfold execRefill at h
  have hpath := s.refillPath_spec size.toNat beg.toNat
  cases hp : s.refillPath size.toNat beg.toNat with
  | tooLarge =>
    simp only [hp, Host.Outcome.next.injEq] at h
    exact h ▸ .raised _ (.inr (.inr (.inr rfl))) (by simp [possibleCodes])
  | overflow =>
    simp only [hp, Host.Outcome.next.injEq] at h
    exact h ▸ .raised _ (.inr (.inr (.inl rfl))) (by simp [possibleCodes])
  | noSuchOffset => simp [hp] at h
  | underrun =>
    simp only [hp] at h
    rw [hp] at hpath
    obtain ⟨_, hb, hc⟩ := hpath
    rcases State.acquireThen_cases _ _ _ _ _ h with
      ⟨fresh, rest, hacq, hlen, rfl⟩ | ⟨e, rest, hacq, rfl⟩ | ⟨rest, hacq, rfl⟩ | ⟨hacq, rfl⟩
    · exact .underrun size beg rfl fresh rest hacq hlen hb hc
    · exact .sourceFailed size beg rfl _ _ rest (.inr ⟨rfl, hacq⟩)
    · exact .sourceFailed size beg rfl _ _ rest (.inl ⟨rfl, rfl, hacq⟩)
    · exact .waits (by simp [Sys2Proof.Machine.waits, hp, hacq])
  | normal =>
    simp only [hp] at h
    rw [hp] at hpath
    obtain ⟨_, hb, hc, _⟩ := hpath
    rcases State.acquireThen_cases _ _ _ _ _ h with
      ⟨fresh, rest, hacq, hlen, rfl⟩ | ⟨e, rest, hacq, rfl⟩ | ⟨rest, hacq, rfl⟩ | ⟨hacq, rfl⟩
    · exact .normal size beg rfl fresh rest hacq hlen hb hc
    · exact .sourceFailed size beg rfl _ _ rest (.inr ⟨rfl, hacq⟩)
    · exact .sourceFailed size beg rfl _ _ rest (.inl ⟨rfl, rfl, hacq⟩)
    · exact .waits (by simp [Sys2Proof.Machine.waits, hp, hacq])

theorem execSfdecode_effect (gr ch : BitVec 1) (s t : State) (h : execSfdecode gr ch s = .next t) :
    Effect (.sfdecode gr ch) s t := by
  unfold execSfdecode at h
  simp only at h
  split at h
  · cases h; exact .raised _ (.inr (.inl rfl)) (by simp [possibleCodes])
  · cases h
  · rename_i hroom
    rw [State.room_admitted_iff] at hroom
    cases h
    exact .decoded gr ch rfl _ _ rfl rfl (hroom.imp id And.left) _ rfl

theorem execWrsi_effect (addr : BitVec 3) (data : BitVec 8) (s t : State)
    (h : execWrsi addr data s = .next t) : Effect (.wrsi addr data) s t := by
  unfold execWrsi at h
  split at h
  · rename_i ha; cases h; exact .wrote addr data rfl ha
  · cases h; exact .raised _ (.inl rfl) (by simp [possibleCodes])

theorem execRdsfl_effect (gr ch : BitVec 1) (band : BitVec 5) (s t : State)
    (h : execRdsfl gr ch band s = .next t) : Effect (.rdsfl gr ch band) s t := by
  unfold execRdsfl at h
  split at h
  · cases h; exact .answered _ (.inr (.inr (.inl ⟨gr, ch, band, rfl⟩)))
  · cases h; exact .raised _ (.inl rfl) (by simp [possibleCodes])

theorem execRdsfs_effect (gr ch : BitVec 1) (band : BitVec 4) (win : BitVec 2) (s t : State)
    (h : execRdsfs gr ch band win s = .next t) : Effect (.rdsfs gr ch band win) s t := by
  unfold execRdsfs at h
  split at h
  · cases h; exact .answered _ (.inr (.inr (.inr ⟨gr, ch, band, win, rfl⟩)))
  · cases h; exact .raised _ (.inl rfl) (by simp [possibleCodes])

/-- Every next state of a command is one of the effects. -/
theorem exec_effect (i : Instr) (s t : State) (h : exec i s = .next t) : Effect i s t := by
  cases i with
  | readbit => exact execReadbit_effect s t h
  | readbits n => exact execReadbits_effect n s t h
  | position => cases h; exact .answered _ (.inr (.inl rfl))
  | seek p => cases h; exact .sought p rfl
  | refill size beg => exact execRefill_effect size beg s t h
  | sfdecode gr ch => exact execSfdecode_effect gr ch s t h
  | wrsi addr data => exact execWrsi_effect addr data s t h
  | rdsfl gr ch band => exact execRdsfl_effect gr ch band s t h
  | rdsfs gr ch band win => exact execRdsfs_effect gr ch band win s t h
  | rdstat => cases h; exact .status rfl

/-- A waiting command is a REFILL, and `exec` leaves its state as it is (R231). -/
theorem exec_of_waits (i : Instr) (s : State) (h : waits i s = true) :
    (∃ size beg, i = .refill size beg) ∧ exec i s = .next s := by
  cases i with
  | refill size beg =>
    refine ⟨⟨_, _, rfl⟩, ?_⟩
    show execRefill size beg s = .next s
    unfold execRefill
    unfold waits at h
    cases hp : s.refillPath size.toNat beg.toNat <;> simp only [hp] at h ⊢
    all_goals first
      | (simp at h; done)
      | (have h' : acquire size.toNat s.source = .waiting := by simpa using h
         simp [State.acquireThen, h'])
  | readbit => simp [waits] at h
  | readbits n => simp [waits] at h
  | position => simp [waits] at h
  | seek p => simp [waits] at h
  | sfdecode gr ch => simp [waits] at h
  | wrsi addr data => simp [waits] at h
  | rdsfl gr ch band => simp [waits] at h
  | rdsfs gr ch band win => simp [waits] at h
  | rdstat => simp [waits] at h

/-- Every way a step can end in a next state. -/
theorem step_cases (s t : State) (h : step s = .next t) :
    (s.events = [] ∧ t = s)
    ∨ (∃ rest, s.events = .reset :: rest ∧ t = s.applyReset)
    ∨ (∃ w rest e, s.events = .command w :: rest ∧ decode w = .error e
        ∧ t = s.complete .illegalCommand 0)
    ∨ (∃ w rest i, s.events = .command w :: rest ∧ decode w = .ok i ∧ waits i s = true
        ∧ rest.head? = some .reset ∧ t = s.abandon)
    ∨ (∃ w rest i, s.events = .command w :: rest ∧ decode w = .ok i
        ∧ ¬ (waits i s = true ∧ rest.head? = some .reset) ∧ exec i s = .next t) := by
  unfold step at h
  split at h
  · rename_i he; cases h; exact .inl ⟨he, rfl⟩
  · rename_i rest he; cases h; exact .inr (.inl ⟨rest, he, rfl⟩)
  · rename_i w rest he
    split at h
    · rename_i e hd; cases h; exact .inr (.inr (.inl ⟨w, rest, e, he, hd, rfl⟩))
    · rename_i i hd
      split at h
      · rename_i hw
        rw [Bool.and_eq_true, decide_eq_true_eq] at hw
        cases h
        exact .inr (.inr (.inr (.inl ⟨w, rest, i, he, hd, hw.1, hw.2, rfl⟩)))
      · rename_i hw
        rw [Bool.and_eq_true, decide_eq_true_eq] at hw
        exact .inr (.inr (.inr (.inr ⟨w, rest, i, he, hd, hw, h⟩)))

end Sys2Proof.Machine
end

