-- ==== Sys2Proof/Laws/HostSequence.lean ====
section
/-! SUPPORT. What the host's one way of presenting a command does, and its runs of commands that are all answered
with OK. -/

namespace Sys2Proof.Machine

/-- A command that is answered: the host goes on with the data after OK and aborts the frame after any other code. -/
theorem hostCommand_of_response {i : Instr} {s t : State} {r : Response}
    (onOk : Word → State → HostOutcome) (he : exec i s = .next t)
    (hr : t.responses = s.responses ++ [r]) :
    hostCommand i s onOk = if r.code = .ok then onOk r.data t else .next (t, .aborted r.code) := by
  have hw : waits i s = false := by
    cases h : waits i s
    · rfl
    · have := (exec_of_waits i s h).2
      rw [he] at this
      cases this
      simp at hr
  simp [hostCommand, he, hw, hr]

/-- A REFILL that waits ends the host's work there. -/
theorem hostCommand_of_waits {i : Instr} {s : State} (onOk : Word → State → HostOutcome)
    (h : waits i s = true) : hostCommand i s onOk = .next (s, .waiting) := by
  simp [hostCommand, (exec_of_waits i s h).2, h]

@[simp] theorem ReadCommand.waits_instr (c : ReadCommand) (s : State) : waits c.instr s = false := by
  cases c <;> rfl

end Sys2Proof.Machine
end

