-- ==== Sys2Proof/Laws/PerInstr.lean ====
section
/-! SUPPORT. A statement about every command as syntax, one lemma per constructor: its word lies in its own row of
the opcode map (R72). -/

namespace Sys2Proof.Laws.EncodingRow

/-- The match column of the command's row in R72. -/
def rowMatch : Instr → Nat
  | .readbit => 0x10000000
  | .readbits _ => 0x20000000
  | .position => 0x30000000
  | .seek _ => 0x40000000
  | .refill _ _ => 0x50000000
  | .sfdecode _ _ => 0x60000000
  | .wrsi _ _ => 0x70000000
  | .rdsfl _ _ _ => 0x80000000
  | .rdsfs _ _ _ _ => 0x90000000
  | .rdstat => 0xA0000000

/-- How many low bits of the word the operands of the command take; the row's mask has exactly these bits 0. -/
def operandBits : Instr → Nat
  | .readbit => 0
  | .readbits _ => 6
  | .position => 0
  | .seek _ => 15
  | .refill _ _ => 24
  | .sfdecode _ _ => 2
  | .wrsi _ _ => 11
  | .rdsfl _ _ _ => 7
  | .rdsfs _ _ _ _ => 8
  | .rdstat => 0

/-- The command's word with its operand bits cleared is its row's match. -/
def Statement (i : Instr) : Prop :=
  (encode i).toNat / 2 ^ operandBits i * 2 ^ operandBits i = rowMatch i

theorem readbit : Statement .readbit := by
  simp [Statement, rowMatch, operandBits, encode_readbit_toNat]

theorem readbits (n : BitVec 6) : Statement (.readbits n) := by
  simp only [Statement, rowMatch, operandBits, encode_readbits_toNat]; omega

theorem position : Statement .position := by
  simp [Statement, rowMatch, operandBits, encode_position_toNat]

theorem seek (bitPos : BitVec 15) : Statement (.seek bitPos) := by
  simp only [Statement, rowMatch, operandBits, encode_seek_toNat]; omega

theorem refill (sizeBytes beginBytes : BitVec 12) : Statement (.refill sizeBytes beginBytes) := by
  simp only [Statement, rowMatch, operandBits, encode_refill_toNat]; omega

theorem sfdecode (gr ch : BitVec 1) : Statement (.sfdecode gr ch) := by
  simp only [Statement, rowMatch, operandBits, encode_sfdecode_toNat]; omega

theorem wrsi (addr : BitVec 3) (data : BitVec 8) : Statement (.wrsi addr data) := by
  simp only [Statement, rowMatch, operandBits, encode_wrsi_toNat]; omega

theorem rdsfl (gr ch : BitVec 1) (band : BitVec 5) : Statement (.rdsfl gr ch band) := by
  simp only [Statement, rowMatch, operandBits, encode_rdsfl_toNat]; omega

theorem rdsfs (gr ch : BitVec 1) (band : BitVec 4) (win : BitVec 2) :
    Statement (.rdsfs gr ch band win) := by
  simp only [Statement, rowMatch, operandBits, encode_rdsfs_toNat]; omega

theorem rdstat : Statement .rdstat := by
  simp [Statement, rowMatch, operandBits, encode_rdstat_toNat]

end Sys2Proof.Laws.EncodingRow
end

