-- ==== Sys2Proof/Tests/Slice0.lean ====
section
/-! SUPPORT. Small checks of the model against the spec's own vectors (95_test_vectors.md), the smoke test of
`Instr.wellFormed`, and for every statement with hypotheses a state and operands that meet them. -/

namespace Sys2Proof.Tests

open Sys2Proof.Machine

set_option maxRecDepth 100000

/-! ### Helpers -/

/-- A reservoir holding these bytes, the cursor at bit position `p`. -/
def loaded (bytes : List Byte) (p : Nat) : State :=
  { State.reset with
    buf := Memory.writeBytes [] 0 bytes, top := BitVec.ofNat 12 bytes.length
    bytePos := BitVec.ofNat 12 (p / 8), bitIdx := BitVec.ofNat 3 p }

/-- The reservoir of the bit-reader vectors B1 to B20. -/
def reader (p : Nat) : State := loaded [0xA5, 0x3C, 0xF0, 0x0F, 0x81, 0x7E] p

/-- The reservoir of the decoder vectors F2 to F8, with one `SI_GC` register set. -/
def decoder (k : Nat) (gc : BitVec 8) : State :=
  { loaded [0xDE, 0xAD, 0xBE, 0xEF, 0x12, 0x34, 0x56, 0x78, 0x9A, 0xBC, 0xDE, 0xF0] 0 with
    siGC := (Vector.replicate 4 0).setIfInBounds k gc }

/-- The reservoir after R-3 and R-2, with the byte source's answers. -/
def filled (source : List PullAnswer) : State :=
  { loaded [0x33, 0x44, 0x55, 0x66, 0x77, 0x88, 0x99] 9 with source := source }

def presenting (s : State) (words : List Word) : State :=
  { s with events := words.map PortEvent.command }

def after (o : Host.Outcome State Fault Refusal) : State :=
  match o with
  | .next t => t
  | .fault _ => State.reset
  | .refused _ => State.reset

/-- The last response after an outcome. -/
def answer (o : Host.Outcome State Fault Refusal) : Option (ResultCode × Word) :=
  match o with
  | .next t => t.responses.getLast?.map fun r => (r.code, r.data)
  | .fault _ => none
  | .refused _ => none

def bytes (s : State) : List Byte := s.contents

/-! ### Decoding: words written out from R70, R71, R72, and the vectors E1 to E26 -/

/-- E1, E2, E5, E7: the bit reader's words. -/
theorem test_decode_bit_reader :
    decode 0b0001_0000000000000000000000000000 = .ok .readbit
      ∧ decode 0b0010_0000000000000000000000_100000 = .ok (.readbits 32)
      ∧ decode 0b0011_0000000000000000000000000000 = .ok .position
      ∧ decode 0b0100_0000000000000_111111111111111 = .ok (.seek 32767) := by decide

/-- E9: the two 12-bit fields of REFILL. -/
theorem test_decode_refill :
    decode 0b0101_0000_010111011100_001000100100 = .ok (.refill 1500 548) := by decide

/-- R71 format G: `gr` above `ch`; E12. -/
theorem test_decode_sfdecode :
    decode 0b0110_00000000000000000000000000_1_0 = .ok (.sfdecode 1 0)
      ∧ decode 0b0110_00000000000000000000000000_1_1 = .ok (.sfdecode 1 1) := by decide

/-- E14, E18, E20, E23: the register-access words. -/
theorem test_decode_register_access :
    decode 0b0111_00000000000000000_001_11010110 = .ok (.wrsi 1 0xD6)
      ∧ decode 0b1000_000000000000000000000_1_0_10100 = .ok (.rdsfl 1 0 20)
      ∧ decode 0b1001_00000000000000000000_0_1_1011_10 = .ok (.rdsfs 0 1 11 2)
      ∧ decode 0b1010_0000000000000000000000000000 = .ok .rdstat := by decide

/-- E4, E6, E8, E11, E13, E17 and the lowest reserved bit of the other formats: illegal by a reserved bit. -/
theorem test_decode_reserved_bits :
    decode 0x10000001 = .error .reservedBits ∧ decode 0x20000040 = .error .reservedBits
      ∧ decode 0x30000001 = .error .reservedBits ∧ decode 0x40008000 = .error .reservedBits
      ∧ decode 0x51000000 = .error .reservedBits ∧ decode 0x60000004 = .error .reservedBits
      ∧ decode 0x70000800 = .error .reservedBits ∧ decode 0x80000080 = .error .reservedBits
      ∧ decode 0x90000100 = .error .reservedBits ∧ decode 0xA0000001 = .error .reservedBits := by decide

/-- E24 to E26 and the other reserved opcodes. -/
theorem test_decode_reserved_opcodes :
    decode 0x00000000 = .error .reservedOpcode ∧ decode 0xB0000000 = .error .reservedOpcode
      ∧ decode 0xC0000000 = .error .reservedOpcode ∧ decode 0xD0000000 = .error .reservedOpcode
      ∧ decode 0xE0000000 = .error .reservedOpcode ∧ decode 0xFFFFFFFF = .error .reservedOpcode := by
  decide

/-- The encoder gives the words of E9, E14, E18, E20. -/
theorem test_encode :
    encode (.refill 1500 548) = 0x505DC224 ∧ encode (.wrsi 1 0xD6) = 0x700001D6
      ∧ encode (.rdsfl 1 0 20) = 0x80000054 ∧ encode (.rdsfs 0 1 11 2) = 0x9000006E := by decide

/-! ### WellFormed: one ill-formed term for each check, and its neighbour in range -/

/-- E3. -/
theorem test_wellFormed_readbits :
    (Instr.readbits 33).wellFormed = false ∧ (Instr.readbits 32).wellFormed = true := by decide

/-- E15. -/
theorem test_wellFormed_wrsi_addr :
    (Instr.wrsi 6 0).wellFormed = false ∧ (Instr.wrsi 5 0).wellFormed = true := by decide

/-- E16: the upper half of the data is checked for SI_SCFSI only. -/
theorem test_wellFormed_wrsi_data :
    (Instr.wrsi 4 0x10).wellFormed = false ∧ (Instr.wrsi 4 0x0F).wellFormed = true
      ∧ (Instr.wrsi 3 0x10).wellFormed = true := by decide

/-- E19. -/
theorem test_wellFormed_rdsfl :
    (Instr.rdsfl 0 0 21).wellFormed = false ∧ (Instr.rdsfl 0 0 20).wellFormed = true := by decide

/-- E21. -/
theorem test_wellFormed_rdsfs_band :
    (Instr.rdsfs 0 0 13 0).wellFormed = false ∧ (Instr.rdsfs 0 0 12 0).wellFormed = true := by decide

/-- E22. -/
theorem test_wellFormed_rdsfs_win :
    (Instr.rdsfs 0 0 0 3).wellFormed = false ∧ (Instr.rdsfs 0 0 0 2).wellFormed = true := by decide

/-! ### One step of each command -/

/-- B14: the last valid bit, and the cursor carries into `bytePos`. -/
theorem test_readbit_last :
    answer (exec .readbit (reader 47)) = some (.ok, 0) ∧ (after (exec .readbit (reader 47))).pos = 48 := by
  decide

/-- A2. -/
theorem test_readbit_empty :
    answer (exec .readbit State.reset) = some (.readBeyondTop, 0)
      ∧ (after (exec .readbit State.reset)).guardFault = true := by decide

/-- B10: 32 bits over five bytes. -/
theorem test_readbits_five_bytes :
    answer (exec (.readbits 32) (reader 7)) = some (.ok, 0x9E7807C0)
      ∧ (after (exec (.readbits 32) (reader 7))).pos = 39 := by decide

/-- B15, B17: all or nothing one bit past the end, and `n = 0` beyond it. -/
theorem test_readbits_edge :
    answer (exec (.readbits 2) (reader 47)) = some (.readBeyondTop, 0)
      ∧ (after (exec (.readbits 2) (reader 47))).pos = 47
      ∧ answer (exec (.readbits 0) (reader 49)) = some (.ok, 0) := by decide

/-- B12. -/
theorem test_position : answer (exec .position (reader 13)) = some (.ok, 13) := by decide

/-- B18: no range validation. -/
theorem test_seek_anywhere :
    (after (exec (.seek 32767) (reader 0))).bytePos = 4095
      ∧ (after (exec (.seek 32767) (reader 0))).bitIdx = 7 := by decide

/-- R-12: history carried forward; a pull that ends with the last bytes needed is a success. -/
theorem test_refill_normal :
    let t := after (exec (.refill 4 2)
      (filled [⟨[0xAA], .more⟩, ⟨[], .more⟩, ⟨[0xBB, 0xCC, 0xDD], .endOfStream⟩]))
    bytes t = [0x88, 0x99, 0xAA, 0xBB, 0xCC, 0xDD] ∧ t.top = 6 ∧ t.pos = 0 ∧ t.lastResult = .ok := by
  decide

/-- R-2: the underrun appends and reports. -/
theorem test_refill_underrun :
    let t := after (exec (.refill 3 6)
      { loaded [0x11, 0x22, 0x33, 0x44] 5 with source := [⟨[0x55, 0x66, 0x77], .more⟩] })
    bytes t = [0x11, 0x22, 0x33, 0x44, 0x55, 0x66, 0x77] ∧ t.pos = 0
      ∧ t.lastResult = .frameUndecodable ∧ t.guardFault = false := by decide

/-- F3: a mixed block with two widths. -/
theorem test_sfdecode_mixed :
    let t := after (exec (.sfdecode 0 1) (decoder 1 0xD6))
    t.pos = 53
      ∧ (List.range 21).map (t.longEntry 0 1)
          = [1, 1, 0, 1, 1, 1, 1, 0, 0, 0, 0, 0, 0, 0, 0, 0, 0, 0, 0, 0, 0]
      ∧ (List.range' 3 9).flatMap (fun b => (List.range 3).map (t.shortEntry 0 1 b))
          = [1, 0, 1, 0, 1, 1, 0, 1, 1, 1, 3, 3, 1, 3, 1, 3, 2, 0, 2, 1, 0, 1, 2, 2, 0, 2, 2] := by
  decide

/-- P1 step 7: groups 0 and 2 copied from granule 0, groups 1 and 3 fresh from bit 47 on. -/
theorem test_sfdecode_reuse :
    let t := after (exec (.sfdecode 1 0)
      { loaded [0xB7, 0x1E, 0x4D, 0x93, 0xA6, 0x58, 0xC3, 0x2F, 0x71, 0x0E] 47 with
        siGC := #v[9, 0, 9, 0], siSCFSI := #v[5, 0]
        scalefacL := Vector.ofFn fun k =>
          ([2, 3, 1, 3, 0, 1, 3, 2, 1, 0, 3, 1, 2, 1, 0, 3, 2, 2, 1, 2, 1] : List (BitVec 4))[k.val]?.getD 0 })
    t.pos = 67
      ∧ (List.range 21).map (t.longEntry 1 0)
          = [2, 3, 1, 3, 0, 1, 1, 2, 0, 1, 2, 1, 2, 1, 0, 3, 1, 1, 3, 2, 3] := by decide

/-- A9, A10. -/
theorem test_wrsi :
    (after (exec (.wrsi 2 0xC5) State.reset)).siGC = #v[0, 0, 0xC5, 0]
      ∧ (after (exec (.wrsi 5 0x0A) State.reset)).siSCFSI = #v[0, 0xA] := by decide

/-- E15, E16: no register at 6, no upper half for SI_SCFSI. -/
theorem test_wrsi_refused :
    answer (exec (.wrsi 6 0) State.reset) = some (.badOperand, 0)
      ∧ answer (exec (.wrsi 4 0x10) State.reset) = some (.badOperand, 0) := by decide

/-- A13 after F3, with the neighbouring entries told apart. -/
theorem test_rdsfl :
    answer (exec (.rdsfl 0 1 7) (after (exec (.sfdecode 0 1) (decoder 1 0xD6)))) = some (.ok, 0)
      ∧ answer (exec (.rdsfl 0 1 6) (after (exec (.sfdecode 0 1) (decoder 1 0xD6)))) = some (.ok, 1) := by
  decide

/-- A12, A14. -/
theorem test_rdsfs :
    answer (exec (.rdsfs 0 1 6 1) (after (exec (.sfdecode 0 1) (decoder 1 0xD6)))) = some (.ok, 3)
      ∧ answer (exec (.rdsfs 0 1 12 0) State.reset) = some (.ok, 0) := by decide

/-- A3: STATUS after A2. -/
theorem test_rdstat :
    answer (exec .rdstat (after (exec .readbit State.reset))) = some (.ok, 0x0001A000) := by decide

/-- A7: an illegal word at the port. -/
theorem test_step_illegal :
    answer (step (presenting State.reset [0])) = some (.illegalCommand, 0) := by decide

/-- The word placed by `withFetchWord` is the one the next step runs (E9's neighbour E10, R-6). -/
theorem test_withFetchWord :
    answer (step (State.reset.withFetchWord 32 0x505DD000)) = some (.mainDataTooLarge, 0) := by decide

/-! ### Witnesses: states and operands that meet the hypotheses of the statements, each clause at its boundary -/

/-- The reservoir of `filled` with one answer of four bytes. -/
def answering : State := filled [⟨[0xAA, 0xBB, 0xCC, 0xDD], .more⟩]

theorem witness_EncodeUndoesDecode :
    decode 0x50FFFFFF = .ok (.refill 4095 4095) ∧ decode 0x10000000 = .ok .readbit := by decide

theorem witness_OperandsAreTheFieldsOfTheWord :
    decode 0x2000003F = .ok (.readbits 63) ∧ decode 0x40007FFF = .ok (.seek 32767)
      ∧ decode 0x50000FFF = .ok (.refill 0 4095) ∧ decode 0x60000002 = .ok (.sfdecode 1 0)
      ∧ decode 0x700007FF = .ok (.wrsi 7 255) ∧ decode 0x8000005F = .ok (.rdsfl 1 0 31)
      ∧ decode 0x900000BD = .ok (.rdsfs 1 0 15 1) := by decide

theorem witness_ReservedBitsAreIllegal :
    ∀ w ∈ ([0x10000001, 0xA8000000] : List Word),
      (presenting (reader 3) [w]).events = .command w :: []
        ∧ 1 ≤ w.toNat / 2 ^ 28 ∧ w.toNat / 2 ^ 28 ≤ 0xA
        ∧ w &&& reservedMask (w.toNat / 2 ^ 28) ≠ 0 := by
  simp [presenting, reservedMask]

theorem witness_ReservedOpcodesAreIllegal :
    (presenting (reader 3) [0x0FFFFFFF]).events = .command 0x0FFFFFFF :: []
      ∧ (0x0FFFFFFF : Word).toNat / 2 ^ 28 = 0
      ∧ (presenting (reader 3) [0xB0000000]).events = .command 0xB0000000 :: []
      ∧ 0xB ≤ (0xB0000000 : Word).toNat / 2 ^ 28
      ∧ (presenting (reader 3) [0xFFFFFFFF]).events = .command 0xFFFFFFFF :: [] := by decide

theorem witness_OutOfRangeOperandsAreBadOperand :
    (presenting (reader 3) [0x2000007F]).events = .command 0x2000007F :: []
      ∧ decode 0x2000007F = .error .reservedBits
      ∧ decode 0x505DD000 = .ok (.refill 1501 0) ∧ (reader 3).cfg.maxSize < (1501 : BitVec 12).toNat
      ∧ (presenting (reader 3) [0x20000021]).events = .command 0x20000021 :: []
      ∧ decode 0x20000021 = .ok (.readbits 33) ∧ (Instr.readbits 33).wellFormed = false
      ∧ decode 0x20000020 = .ok (.readbits 32) ∧ (Instr.readbits 32).wellFormed = true
      ∧ ∃ t, step (presenting (reader 3) [0x20000020]) = .next t :=
  ⟨rfl, by decide, by decide, by decide, rfl, by decide, by decide, by decide, by decide, _, rfl⟩

theorem witness_StepRunsTheDecodedCommand :
    (presenting (reader 3) [0x50004002]).events = .command 0x50004002 :: []
      ∧ decode 0x50004002 = .ok (.refill 4 2)
      ∧ ¬ (waits (.refill 4 2) (presenting (reader 3) [0x50004002]) = true
          ∧ ([] : List PortEvent).head? = some .reset)
      ∧ (reader 3).events = [] := by decide

/-- A completion with OK, one with SourceError, one with another code, and a REFILL that waits. -/
theorem witness_OneResponsePerCommand :
    (∃ t, exec (.seek 9) (reader 3) = .next t ∧ t.lastResult = .ok)
      ∧ (∃ t, exec (.refill 4 2) (filled [⟨[0xAA, 0xBB], .err 0xDEAD⟩]) = .next t
          ∧ t.lastResult = .sourceError)
      ∧ (∃ t, exec .readbit (reader 48) = .next t ∧ t.lastResult = .readBeyondTop)
      ∧ ∃ t, exec (.refill 4 2) (filled []) = .next t ∧ waits (.refill 4 2) (filled []) = true :=
  ⟨⟨_, rfl, by decide⟩, ⟨_, rfl, by decide⟩, ⟨_, rfl, by decide⟩, ⟨_, rfl, by decide⟩⟩

/-- A state with something to clear, a reset at the port. -/
def resetting : State := { decoder 1 0xD6 with events := [.reset], guardFault := true }

theorem witness_ResetSetsTheResetValues :
    ∃ rest t, resetting.events = .reset :: rest ∧ step resetting = .next t := ⟨_, _, rfl, rfl⟩

theorem witness_ResetEventIsTaken : resetting.events = .reset :: [] := rfl

/-- A REFILL of four bytes, one of them delivered, and a reset behind it. -/
def stuck : State :=
  { filled [⟨[0xAA], .more⟩] with events := [.command 0x50004002, .reset] }

theorem witness_ResetAbandonsAWaitingRefill :
    stuck.events = .command 0x50004002 :: .reset :: [] ∧ decode 0x50004002 = .ok (.refill 4 2)
      ∧ waits (.refill 4 2) stuck = true := by decide

theorem witness_OnlyResetClearsGuardFault :
    ∃ t, step resetting = .next t ∧ resetting.guardFault = true ∧ t.guardFault = false :=
  ⟨_, rfl, by decide, by decide⟩

theorem witness_FlagsRecordTheCompletion :
    (∃ t r, exec (.readbits 33) (reader 3) = .next t ∧ t.responses = (reader 3).responses ++ [r]
        ∧ Instr.readbits 33 ≠ .rdstat)
      ∧ ∃ t r, exec .rdstat (reader 3) = .next t ∧ t.responses = (reader 3).responses ++ [r] :=
  ⟨⟨_, _, rfl, rfl, by decide⟩, _, _, rfl, rfl⟩

theorem witness_StatusFlagsAreNoInputs :
    ∃ t, Instr.refill 4 2 ≠ .rdstat ∧ exec (.refill 4 2) answering = .next t :=
  ⟨_, by decide, rfl⟩

/-- The last valid bit, a bit inside a byte, and the first bit that is not there. -/
theorem witness_ReadBitReturnsTheBitAtTheCursor :
    (reader 47).top.toNat ≤ (reader 47).cfg.capacity
      ∧ (reader 47).bytePos.toNat < (reader 47).top.toNat ∧ (reader 47).bitIdx = 7
      ∧ (reader 46).bytePos.toNat < (reader 46).top.toNat ∧ (reader 46).bitIdx ≠ 7
      ∧ (reader 48).top.toNat ≤ (reader 48).bytePos.toNat := by decide

/-- `n` = 33, 0, 32 with the last bit missing, and 32 up to the last bit. -/
theorem witness_ReadBitsReturnsTheBitsAtTheCursor :
    (reader 16).top.toNat ≤ (reader 16).cfg.capacity ∧ 32 < (33 : BitVec 6).toNat
      ∧ 1 ≤ (32 : BitVec 6).toNat ∧ (32 : BitVec 6).toNat ≤ 32
      ∧ 8 * (reader 17).top.toNat < (reader 17).pos + (32 : BitVec 6).toNat
      ∧ (reader 16).pos + (32 : BitVec 6).toNat ≤ 8 * (reader 16).top.toNat
      ∧ (reader 47).pos + (1 : BitVec 6).toNat ≤ 8 * (reader 47).top.toNat := by decide

theorem witness_MultiBitReadIsSingleBitReads :
    (reader 16).top.toNat ≤ (reader 16).cfg.capacity ∧ (32 : BitVec 6).toNat ≤ 32
      ∧ (reader 16).pos + (32 : BitVec 6).toNat ≤ 8 * (reader 16).top.toNat
      ∧ (32 : BitVec 6).toNat ≠ 0 ∧ 8 * (reader 17).top.toNat < (reader 17).pos + (32 : BitVec 6).toNat := by
  decide

theorem witness_SeekSetsTheCursor : 8 * (reader 0).top.toNat < (49 : BitVec 15).toNat := by decide

theorem witness_ReadsSplit :
    (reader 16).top.toNat ≤ (reader 16).cfg.capacity
      ∧ (13 : BitVec 6).toNat + (19 : BitVec 6).toNat ≤ 32
      ∧ (reader 16).pos + (13 : BitVec 6).toNat + (19 : BitVec 6).toNat
          ≤ 8 * (reader 16).top.toNat := by decide

/-- The whole history kept (`beginBytes = top`), and none of it. -/
theorem witness_RefillKeepsHistoryAndAppends :
    RefillAdmitted answering 4 7 ∧ (7 : BitVec 12).toNat ≤ answering.top.toNat
      ∧ RefillAdmitted answering 4 0 ∧ (0 : BitVec 12).toNat ≤ answering.top.toNat
      ∧ acquire (4 : BitVec 12).toNat answering.source = .done [0xAA, 0xBB, 0xCC, 0xDD] [] := by
  unfold RefillAdmitted; decide

theorem witness_UnderrunAppendsAndReports :
    RefillAdmitted answering 4 8 ∧ answering.top.toNat < (8 : BitVec 12).toNat
      ∧ acquire (4 : BitVec 12).toNat answering.source = .done [0xAA, 0xBB, 0xCC, 0xDD] []
      ∧ answer (exec (.refill 4 8) (filled [⟨[], .endOfStream⟩])) = some (.unexpectedEndOfStream, 0) := by
  unfold RefillAdmitted; decide

/-- The size one above MAX_SIZE, the size at MAX_SIZE with the new `top` one above C (R-8), an end one byte short,
and an error with the last byte. -/
theorem witness_FailedRefillChangesOnlyTheFlags :
    answering.cfg.maxSize < (1501 : BitVec 12).toNat
      ∧ (1500 : BitVec 12).toNat ≤ answering.cfg.maxSize
      ∧ { answering with top := 549 }.cfg.capacity
          < (if { answering with top := 549 }.top.toNat < (549 : BitVec 12).toNat then
              { answering with top := 549 }.top.toNat else (549 : BitVec 12).toNat)
            + (1500 : BitVec 12).toNat
      ∧ RefillAdmitted (filled [⟨[0xAA, 0xBB, 0xCC], .endOfStream⟩]) 4 2
      ∧ acquire (4 : BitVec 12).toNat (filled [⟨[0xAA, 0xBB, 0xCC], .endOfStream⟩]).source
          = .endOfStream []
      ∧ acquire (4 : BitVec 12).toNat (filled [⟨[0xAA, 0xBB, 0xCC, 0xDD], .err 7⟩]).source
          = .sourceError 7 [] := by
  unfold RefillAdmitted; decide

/-- A success, and an end of stream on the underrun path (R-14). -/
theorem witness_RefillReportsByTheOrderOfItsChecks :
    (∃ t r, answering.top.toNat ≤ answering.cfg.capacity
        ∧ exec (.refill 4 2) answering = .next t ∧ t.responses = answering.responses ++ [r])
      ∧ ∃ t, exec (.refill 4 9) (filled [⟨[], .endOfStream⟩]) = .next t
        ∧ t.responses = (filled []).responses ++ [⟨.unexpectedEndOfStream, 0⟩] :=
  ⟨⟨_, _, by decide, rfl, rfl⟩, _, rfl, by decide⟩

/-- The deciding answer an error or an end with the last byte, and an end one byte short. -/
theorem witness_AcquisitionFollowsTheAnswers :
    RefillAdmitted (filled []) 4 2 ∧ RefillAdmitted (filled []) 0 2
      ∧ (∀ a ∈ ([⟨[0xAA], .more⟩, ⟨[], .more⟩] : List PullAnswer), a.status = .more)
      ∧ (streamBytes [⟨[0xAA], .more⟩, ⟨[], .more⟩]).length < (4 : BitVec 12).toNat
      ∧ (filled [⟨[0xAA], .more⟩, ⟨[], .more⟩, ⟨[1, 2, 3], .err 7⟩]).source
          = [⟨[0xAA], .more⟩, ⟨[], .more⟩] ++ ⟨[1, 2, 3], .err 7⟩ :: []
      ∧ (streamBytes [⟨[0xAA], .more⟩, ⟨[], .more⟩]).length + ([1, 2, 3] : List Byte).length
          = (4 : BitVec 12).toNat
      ∧ (streamBytes [⟨[0xAA], .more⟩, ⟨[], .more⟩]).length + ([1, 2] : List Byte).length
          < (4 : BitVec 12).toNat := by
  unfold RefillAdmitted; decide

/-- One REFILL for every result. -/
theorem witness_RefillConsumesTheStreamInOrder :
    answer (exec (.refill 4 2) answering) = some (.ok, 0)
      ∧ answer (exec (.refill 4 8) answering) = some (.frameUndecodable, 0)
      ∧ answer (exec (.refill 1501 0) answering) = some (.mainDataTooLarge, 0)
      ∧ answer (exec (.refill 1500 0) { answering with cfg := { documentConfig with capacity := 1499 } })
          = some (.reservoirOverflow, 0)
      ∧ answer (exec (.refill 4 2) (filled [⟨[0xAA], .endOfStream⟩])) = some (.unexpectedEndOfStream, 0)
      ∧ answer (exec (.refill 4 2) (filled [⟨[0xAA], .err 7⟩])) = some (.sourceError, 7) := by decide

theorem witness_ReservoirIsASlidingWindowOfTheStream :
    answering.top.toNat ≤ answering.cfg.capacity ∧ answering.cfg.capacity ≤ 4095
      ∧ (∃ t r, exec (.refill 4 2) answering = .next t ∧ t.responses = answering.responses ++ [r]
          ∧ r.code = .ok)
      ∧ (∃ t r, exec (.refill 4 8) answering = .next t ∧ t.responses = answering.responses ++ [r]
          ∧ r.code = .frameUndecodable)
      ∧ ∃ t r, exec (.sfdecode 0 0) answering = .next t ∧ t.responses = answering.responses ++ [r] :=
  ⟨by decide, by decide, ⟨_, _, rfl, rfl, rfl⟩, ⟨_, _, rfl, rfl, rfl⟩, ⟨_, _, rfl, rfl⟩⟩

/-- R-2 and R-3. -/
theorem witness_HistoryIsTrueAfterAnUnderrun :
    RefillAdmitted answering 3 8 ∧ answering.top.toNat < (8 : BitVec 12).toNat
      ∧ acquire (3 : BitVec 12).toNat answering.source
          = .done [0xAA, 0xBB, 0xCC] [⟨[0xDD], .more⟩]
      ∧ acquire (1 : BitVec 12).toNat [⟨[0xDD], .more⟩] = .done [0xDD] []
      ∧ (1 : BitVec 12).toNat ≤ answering.cfg.maxSize
      ∧ (10 : BitVec 12).toNat ≤ answering.top.toNat + (3 : BitVec 12).toNat
      ∧ (10 : BitVec 12).toNat + (1 : BitVec 12).toNat ≤ answering.cfg.capacity := by
  unfold RefillAdmitted; decide

theorem witness_PositionsShiftAcrossARefill :
    RefillAdmitted answering 4 7 ∧ (7 : BitVec 12).toNat ≤ answering.top.toNat
      ∧ ∃ t, exec (.refill 4 7) answering = .next t
        ∧ t.responses = answering.responses ++ [⟨.ok, 0⟩] :=
  ⟨by unfold RefillAdmitted; decide, by decide, _, rfl, by decide⟩

/-- One byte short, and no answer at all. -/
theorem witness_RefillWaitsForTheSource :
    ∀ source ∈ ([[⟨[0xAA, 0xBB, 0xCC], .more⟩], []] : List (List PullAnswer)),
      RefillAdmitted (filled source) 4 2 ∧ (∀ a ∈ source, a.status = .more)
        ∧ (streamBytes source).length < (4 : BitVec 12).toNat
        ∧ (presenting (filled source) [0x50004002]).events
            = .command (encode (.refill 4 2)) :: [] := by
  unfold RefillAdmitted; decide

/-- R-6 to R-10: each bound at its edge, and the two zero-size cases. -/
theorem witness_RefillBoundsOfTheDocument :
    (reader 0).cfg.capacity = 2048 ∧ (reader 0).cfg.maxSize = 1500
      ∧ { reader 0 with top := 2048 }.top.toNat ≤ 2048
      ∧ 1501 ≤ (1501 : BitVec 12).toNat ∧ (1500 : BitVec 12).toNat ≤ 1500
      ∧ 2049 ≤ (549 : BitVec 12).toNat + (1500 : BitVec 12).toNat
      ∧ (549 : BitVec 12).toNat ≤ { reader 0 with top := 600 }.top.toNat
      ∧ { reader 0 with top := 1000 }.top.toNat < (1001 : BitVec 12).toNat
      ∧ 2049 ≤ { reader 0 with top := 1000 }.top.toNat + (1049 : BitVec 12).toNat
      ∧ (2044 : BitVec 12).toNat + (4 : BitVec 12).toNat ≤ 2048
      ∧ (2044 : BitVec 12).toNat ≤ { answering with top := 2044 }.top.toNat
      ∧ { answering with top := 2044 }.top.toNat < (2045 : BitVec 12).toNat
      ∧ { answering with top := 2044 }.top.toNat + (4 : BitVec 12).toNat ≤ 2048
      ∧ acquire (4 : BitVec 12).toNat answering.source = .done [0xAA, 0xBB, 0xCC, 0xDD] [] := by
  decide

/-- F5's granule 1 with groups 0 and 2 reused, its bits ending at `8 * top`. -/
def reusing : State :=
  { loaded [0xDE, 0xAD, 0xBE] 4 with siGC := #v[0, 0, 0x09, 0], siSCFSI := #v[5, 0] }

/-- A block whose fields end with the last valid bit, with fresh and reused bands, and F5, which needs none. -/
theorem witness_LongBlockReadsOrCopiesEachGroup :
    reusing.top.toNat ≤ reusing.cfg.capacity ∧ ¬ ShortOrMixed (reusing.gc 1 0)
      ∧ reusing.pos + reusing.bitsNeeded 1 0 ≤ 8 * reusing.top.toNat
      ∧ reusing.pos + reusing.bitsNeeded 1 0 = 24
      ∧ BandFresh 1 (reusing.scfsi 0) 20 ∧ ¬ BandFresh 1 (reusing.scfsi 0) 0
      ∧ { reusing with siSCFSI := #v[15, 0] }.bitsNeeded 1 0 = 0 := by
  unfold ShortOrMixed BandFresh; decide

/-- F3's mixed block and F4's short block, and a short block of width 0 beyond `top`. -/
theorem witness_ShortAndMixedBlocksReadTheirBands :
    (decoder 1 0xD6).top.toNat ≤ (decoder 1 0xD6).cfg.capacity
      ∧ ShortOrMixed ((decoder 1 0xD6).gc 0 1) ∧ Mixed ((decoder 1 0xD6).gc 0 1)
      ∧ (decoder 1 0xD6).pos + (decoder 1 0xD6).bitsNeeded 0 1 ≤ 8 * (decoder 1 0xD6).top.toNat
      ∧ ShortOrMixed ((decoder 3 0x55).gc 1 1) ∧ ¬ Mixed ((decoder 3 0x55).gc 1 1)
      ∧ (decoder 3 0x55).pos + (decoder 3 0x55).bitsNeeded 1 1 ≤ 8 * (decoder 3 0x55).top.toNat
      ∧ ShortOrMixed ((decoder 3 0x50).gc 1 1) ∧ (decoder 3 0x50).bitsNeeded 1 1 = 0 := by
  unfold ShortOrMixed Mixed; decide

/-- F6; one bit short in granule 1; and F7. -/
theorem witness_SfdecodeIsAllOrNothing :
    0 < (decoder 3 0x5F).bitsNeeded 1 1
      ∧ 8 * (decoder 3 0x5F).top.toNat < (decoder 3 0x5F).pos + (decoder 3 0x5F).bitsNeeded 1 1
      ∧ 0 < reusing.bitsNeeded 1 0
      ∧ 8 * reusing.top.toNat < { reusing with bitIdx := 5 }.pos + reusing.bitsNeeded 1 0
      ∧ reusing.top.toNat ≤ reusing.cfg.capacity
      ∧ reusing.pos + reusing.bitsNeeded 1 0 ≤ 8 * reusing.top.toNat
      ∧ (decoder 0 0).bitsNeeded 0 0 = 0 := by decide

theorem witness_SfdecodeConsumesExactlyWhatItNeeds :
    reusing.top.toNat ≤ reusing.cfg.capacity ∧ reusing.cfg.capacity ≤ 4095
      ∧ ∃ t data, exec (.sfdecode 1 0) reusing = .next t
        ∧ t.responses = reusing.responses ++ [⟨.ok, data⟩] :=
  ⟨by decide, by decide, _, _, rfl, rfl⟩

/-- The default table, and the two largest values of the bounds. -/
theorem witness_BitsNeededAreBounded :
    (decoder 3 0x5F).cfg.slenTable = defaultSlenTable ∧ (decoder 3 0x5F).bitsNeeded 1 1 = 126 := by
  decide

/-- Groups 0 and 2 reused, and all of them. -/
theorem witness_ScfsiReuseCopiesGranuleZero :
    ¬ ShortOrMixed (reusing.gc 1 0)
      ∧ (∃ t data, exec (.sfdecode 1 0) reusing = .next t
          ∧ t.responses = reusing.responses ++ [⟨.ok, data⟩])
      ∧ (reusing.scfsi 0).getLsbD (bandGroup 0) = true
      ∧ (reusing.scfsi 0).getLsbD (bandGroup 15) = true
      ∧ (∃ t data, exec (.sfdecode 1 0) { reusing with siSCFSI := #v[15, 0] } = .next t
          ∧ t.responses = reusing.responses ++ [⟨.ok, data⟩])
      ∧ ∀ g < 4, ({ reusing with siSCFSI := #v[15, 0] }.scfsi 0).getLsbD g = true :=
  ⟨by unfold ShortOrMixed; decide, ⟨_, _, rfl, rfl⟩, by decide, by decide, ⟨_, _, rfl, rfl⟩, by decide⟩

/-- A mixed, a short and a long block; a step from a state whose short band 12 is 0. -/
theorem witness_UnwrittenEntriesKeepTheirValue :
    (∃ t, exec (.sfdecode 0 1) (decoder 1 0xD6) = .next t
        ∧ ShortOrMixed ((decoder 1 0xD6).gc 0 1) ∧ Mixed ((decoder 1 0xD6).gc 0 1))
      ∧ (∃ t, exec (.sfdecode 1 1) (decoder 3 0x55) = .next t
        ∧ ShortOrMixed ((decoder 3 0x55).gc 1 1) ∧ ¬ Mixed ((decoder 3 0x55).gc 1 1))
      ∧ ∃ t, exec (.sfdecode 0 0) (decoder 0 0xC5) = .next t
        ∧ ¬ ShortOrMixed ((decoder 0 0xC5).gc 0 0)
        ∧ (decoder 0 0xC5).shortEntry 1 1 12 2 = 0 ∧ ∃ t, step (decoder 0 0xC5) = .next t := by
  unfold ShortOrMixed Mixed
  exact ⟨⟨_, rfl, by decide⟩, ⟨_, rfl, by decide⟩, ⟨_, rfl, by decide, by decide, _, rfl⟩⟩

/-- F7. -/
theorem witness_ZeroWidthFieldsAreWrittenWithZero :
    (decoder 0 0).widths 0 0 = (0, 0) ∧ ¬ ShortOrMixed ((decoder 0 0).gc 0 0) := by
  unfold ShortOrMixed; decide

theorem witness_WrsiWritesOneRegister :
    6 ≤ (6 : BitVec 3).toNat ∧ 4 ≤ (4 : BitVec 3).toNat ∧ 16 ≤ (16 : BitVec 8).toNat
      ∧ (3 : BitVec 3).toNat ≤ 3 ∧ (5 : BitVec 3).toNat ≤ 5 ∧ (15 : BitVec 8).toNat ≤ 15 := by decide

/-- WRSI 3 and WRSI 5, with no reset in sight. -/
theorem witness_SideInfoHoldsUntilWrittenOrReset :
    (∃ t, step (presenting (reader 3) [0x700003D6]) = .next t
        ∧ ¬ ResetTaken (presenting (reader 3) [0x700003D6]) ∧ t.siGC[3]? ≠ (reader 3).siGC[3]?)
      ∧ ∃ t, step (presenting (reader 3) [0x7000050A]) = .next t
        ∧ ¬ ResetTaken (presenting (reader 3) [0x7000050A])
        ∧ t.siSCFSI[1]? ≠ (reader 3).siSCFSI[1]?
        ∧ (∀ gr ch, Instr.wrsi 5 0xA ≠ .sfdecode gr ch)
        ∧ ∃ t, exec (.wrsi 5 0xA) (reader 3) = .next t :=
  ⟨⟨_, rfl, by simp [ResetTaken, presenting], by decide⟩,
    ⟨_, rfl, by simp [ResetTaken, presenting], by decide, by simp, _, rfl⟩⟩

theorem witness_RdsflReturnsTheLongEntry :
    20 < (21 : BitVec 5).toNat ∧ (20 : BitVec 5).toNat ≤ 20 := by decide

/-- A state that meets the invariant, with bytes in the reservoir. -/
theorem reader_inv : (reader 3).Inv :=
  ⟨by decide, by decide, by decide, by decide, by decide, by decide, by decide⟩

theorem witness_RdsfsReturnsTheShortEntry :
    12 < (13 : BitVec 4).toNat ∧ 2 < (3 : BitVec 2).toNat
      ∧ (12 : BitVec 4).toNat ≤ 12 ∧ (2 : BitVec 2).toNat ≤ 2 ∧ (reader 3).Inv :=
  ⟨by decide, by decide, by decide, by decide, reader_inv⟩

/-- A refused read, an underrun, an overflow and an end of stream. -/
theorem witness_NonOkCompletionsArePrecise :
    (∃ t r, step (presenting (reader 48) [0x10000000]) = .next t
        ∧ t.responses = (reader 48).responses ++ [r] ∧ r.code ≠ .ok ∧ r.code ≠ .frameUndecodable)
      ∧ ∃ t r, step (presenting answering [0x50004008]) = .next t
        ∧ t.responses = answering.responses ++ [r] ∧ r.code ≠ .ok ∧ r.code = .frameUndecodable
        ∧ answer (step (presenting { answering with top := 549 } [0x505DC225]))
            = some (.reservoirOverflow, 0)
        ∧ answer (step (presenting (filled [⟨[0xAA], .endOfStream⟩]) [0x50004002]))
            = some (.unexpectedEndOfStream, 0) :=
  ⟨⟨_, _, rfl, rfl, by decide, by decide⟩,
    ⟨_, _, rfl, rfl, by decide, by decide, by decide, by decide⟩⟩

theorem witness_CommandsReportOnlyTheirCodes :
    ∃ t r, exec (.refill 4 8) answering = .next t ∧ t.responses = answering.responses ++ [r] :=
  ⟨_, _, rfl, rfl⟩

/-- A REFILL that keeps two bytes of seven and brings one: `top` falls. -/
theorem witness_OnlyResetAndRefillChangeTheReservoir :
    (presenting answering [0x50001002]).cfg.capacity ≤ 4095
      ∧ ∃ t, step (presenting answering [0x50001002]) = .next t
        ∧ ¬ ResetTaken (presenting answering [0x50001002]) ∧ t.top ≠ answering.top
        ∧ t.top.toNat < answering.top.toNat :=
  ⟨by decide, _, rfl, by simp [ResetTaken, presenting], by decide, by decide⟩

/-- The state `answering` with another byte at offset `top`. -/
def dirty : State := { answering with buf := Memory.writeBytes answering.buf 7 [0xFF] }

theorem witness_BytesBeyondTopAreUnobservable :
    answering.top.toNat ≤ answering.cfg.capacity ∧ answering.cfg.capacity ≤ 4095
      ∧ SameButBeyondTop answering dirty ∧ dirty.buf.read 7 ≠ answering.buf.read 7
      ∧ ∃ t, exec (.refill 4 7) answering = .next t :=
  ⟨by decide, by decide,
    ⟨rfl, rfl, by decide, ⟨rfl, rfl⟩, ⟨rfl, rfl⟩, ⟨rfl, rfl⟩, rfl, rfl, rfl, rfl, rfl⟩,
    by decide, _, rfl⟩

theorem witness_EveryStepHasANextStateInSafeStates : (reader 3).Inv := reader_inv

/-- A state no run reaches, with `top` above C. -/
theorem witness_OnlyTheMissingOffsetStops :
    exec .readbit { reader 3 with cfg := { documentConfig with capacity := 0 } }
      = .fault .offsetOutsideReservoir := rfl

theorem witness_EveryStepKeepsTheInvariant :
    ∃ t, (reader 3).Inv ∧ step (reader 3) = .next t := ⟨_, reader_inv, rfl⟩

/-- A SEEK to exactly `8 * top`, a SEEK one bit beyond it, and a cursor there. -/
theorem witness_EveryCommandButSeekKeepsTheCursorInside :
    (reader 49).Inv ∧ ¬ (reader 49).CursorInside
      ∧ (presenting (reader 47) [0x40000030]).Inv
      ∧ (presenting (reader 47) [0x40000030]).CursorInside
      ∧ (∃ t, step (presenting (reader 47) [0x40000030]) = .next t)
      ∧ (∀ w rest p, (presenting (reader 47) [0x40000030]).events = .command w :: rest →
          decode w = .ok (.seek p) → p.toNat ≤ 8 * (reader 47).top.toNat)
      ∧ 8 * (reader 47).top.toNat < (49 : BitVec 15).toNat := by
  refine ⟨⟨by decide, by decide, by decide, by decide, by decide, by decide, by decide⟩,
    by unfold State.CursorInside; decide,
    ⟨by decide, by decide, by decide, by decide, by decide, by decide, by decide⟩,
    by unfold State.CursorInside; decide, ⟨_, rfl⟩, ?_, by decide⟩
  intro w rest p h hd
  obtain ⟨hw, -⟩ := List.cons.inj h
  cases hw
  have hp := (show decode 0x40000030 = .ok (.seek 48) from by decide).symm.trans hd
  cases hp
  decide

/-- R177 to R179 with the numbers of S4: 128000 bit/s at 44100 Hz, mono, no CRC; and a size one too large. -/
theorem witness_HostComputesTheMainDataSize :
    frameSizeBytes 128000 44100 false = 417 ∧ mainDataSize 417 .mono false = some 396
      ∧ checkFrameSize 2001 = .error .frameSizeInvalid ∧ checkFrameSize 2000 = .ok 2000 := by
  refine ⟨rfl, rfl, rfl, rfl⟩

theorem witness_PseudoCommandsWriteTheirFields :
    ((0, 1) : BitVec 1 × BitVec 1) ≠ (1, 1) ∧ (0 : BitVec 1) ≠ 1 := by decide

theorem witness_FrameStopsWhenItsRefillFails :
    ∃ t r, exec (.refill 4 8) answering = .next t ∧ t.responses = answering.responses ++ [r]
      ∧ r.code ≠ .ok :=
  ⟨_, _, rfl, rfl, by decide⟩

/-- A collaborator that seeks to its start boundary, issues these commands and reports this verdict. -/
def collaborator (reads : List ReadCommand) (verdict : Bool) : Collaborator :=
  fun _ _ start => ⟨.seek (start.setWidth 15) :: reads, verdict⟩

/-- The SFDECODE answered with OK and with ReadBeyondTop; the collaborator's commands all OK, with each verdict; and
its second command not OK. -/
theorem witness_FrameStepFollowsTheCollaborator :
    (∃ t r, exec (.sfdecode 1 0) reusing = .next t ∧ t.responses = reusing.responses ++ [r]
        ∧ r.code = .ok
        ∧ (∃ u, runAll ((collaborator [.position] false 1 0 r.data).commands.map ReadCommand.instr) t = some u
            ∧ ∀ q ∈ u.responses.drop t.responses.length, q.code = .ok)
        ∧ (collaborator [.position] false 1 0 r.data).succeeded = false
        ∧ (collaborator [.position] true 1 0 r.data).succeeded = true
        ∧ (collaborator [.readbit] true 1 0 r.data).commands
            = [.seek (r.data.setWidth 15)] ++ ReadCommand.readbit :: []
        ∧ ∃ u v q, runAll ([ReadCommand.seek (r.data.setWidth 15)].map ReadCommand.instr) t = some u
          ∧ (∀ q ∈ u.responses.drop t.responses.length, q.code = .ok)
          ∧ exec ReadCommand.readbit.instr u = .next v ∧ v.responses = u.responses ++ [q]
          ∧ q.code ≠ .ok)
      ∧ ∃ t r, exec (.sfdecode 1 1) (decoder 3 0x5F) = .next t
        ∧ t.responses = (decoder 3 0x5F).responses ++ [r] ∧ r.code ≠ .ok :=
  ⟨⟨_, _, rfl, rfl, rfl, ⟨_, rfl, by decide⟩, rfl, rfl, rfl,
      ⟨_, _, _, rfl, by decide, rfl, rfl, by decide⟩⟩,
    _, _, rfl, rfl, by decide⟩

/-- R183: the fixed order, for one channel and for two. -/
theorem test_frameOrder :
    frameOrder .mono = [(0, 0), (1, 0)] ∧ frameOrder .stereo = [(0, 0), (0, 1), (1, 0), (1, 1)] := by
  decide

/-- How a frame ended, and the position where it did. -/
def ending (o : HostOutcome) : Option (FrameEnd × Nat) :=
  match o with
  | .next (t, e) => some (e, t.pos)
  | .fault _ => none
  | .refused _ => none

/-- R182, R183: the collaborator of (0, 0) reads on from the boundary 21 of F1 and fails: no SFDECODE 1, 0 is issued. -/
theorem test_frame_collaborator_fails :
    ending (pseudoFrame .mono 6 0 (fun gr _ _ => ⟨[.readbits 3], gr = 1⟩)
      { State.reset with
        siGC := #v[5, 0, 5, 0], source := [⟨[0xA5, 0x3C, 0xF0, 0x0F, 0x81, 0x7E], .more⟩] })
      = some (.aborted .huffmanDecodeError, 24) := by decide

/-- R182, R183: with success both granules run, the second from where the collaborator left the cursor. -/
theorem test_frame_decoded :
    ending (pseudoFrame .mono 6 0 (fun _ _ _ => ⟨[.readbits 3], true⟩)
      { State.reset with
        siGC := #v[5, 0, 5, 0], source := [⟨[0xA5, 0x3C, 0xF0, 0x0F, 0x81, 0x7E], .more⟩] })
      = some (.decoded, 48) := by decide

end Sys2Proof.Tests
end

section
/-! What a step and a completion do, said once for every claim about the state (10_state.md). -/

namespace Sys2Proof.Machine

/-! ### The reset state -/

/-- The reset state is what a reset event makes of it. -/
theorem State.reset_eq_applyReset : State.reset = State.reset.applyReset := rfl

theorem getD_replicate_zero (w n k : Nat) :
    ((Vector.replicate n (0 : BitVec w))[k]?).getD 0 = 0 := by
  rw [Vector.getElem?_replicate]
  split <;> rfl

theorem State.applyReset_longEntry (s : State) (gr ch : BitVec 1) (band : Nat) :
    s.applyReset.longEntry gr ch band = 0 := getD_replicate_zero ..

theorem State.applyReset_shortEntry (s : State) (gr ch : BitVec 1) (band win : Nat) :
    s.applyReset.shortEntry gr ch band win = 0 := getD_replicate_zero ..

theorem State.applyReset_gc (s : State) (gr ch : BitVec 1) : s.applyReset.gc gr ch = 0 :=
  getD_replicate_zero ..

theorem State.applyReset_scfsi (s : State) (ch : BitVec 1) : s.applyReset.scfsi ch = 0 :=
  getD_replicate_zero ..

@[simp] theorem State.setSideInfo_pos (s : State) (addr : Nat) (data : BitVec 8) :
    (s.setSideInfo addr data).pos = s.pos := by simp [State.pos]

/-! ### Steps -/

/-- Every way a step can end in a next state, the two ways of taking a reset as one (R220): an abandoned REFILL is
a reset of the same machine with its ports emptied first. -/
theorem step_outcome {s t : State} (h : step s = .next t) :
    (ResetTaken s ∧ ∃ u : State, u.cfg = s.cfg ∧ t = u.applyReset)
    ∨ (s.events = [] ∧ t = s)
    ∨ t = s.complete .illegalCommand 0
    ∨ ∃ w rest i, s.events = .command w :: rest ∧ decode w = .ok i ∧ exec i s = .next t := by
  rcases step_cases s t h with ⟨he, rfl⟩ | ⟨rest, he, rfl⟩ | ⟨w, rest, e, -, -, rfl⟩
    | ⟨w, rest, i, he, hd, hw, hr, rfl⟩ | ⟨w, rest, i, he, hd, -, hx⟩
  · exact .inr (.inl ⟨he, rfl⟩)
  · exact .inl ⟨.inl ⟨rest, he⟩, s, rfl, rfl⟩
  · exact .inr (.inr (.inl rfl))
  · obtain ⟨later, rfl⟩ : ∃ later, rest = .reset :: later := List.head?_eq_some_iff.mp hr
    exact .inl ⟨.inr ⟨w, later, i, he, hd, hw⟩,
      { s with events := s.events.tail, source := [] }, rfl, rfl⟩
  · exact .inr (.inr (.inr ⟨w, rest, i, he, hd, hx⟩))

/-- A reset at the port is applied (R220). -/
theorem step_of_reset {s : State} {rest : List PortEvent} (he : s.events = .reset :: rest) :
    step s = .next s.applyReset := by
  simp [step, he]

/-! ### Completions -/

/-- A command other than RDSTAT has completed with this code and a data word that R78 and R199 allow. -/
structure Completion (i : Instr) (s t : State) (code : ResultCode) (data : Word) : Prop
    extends Completed s t code data where
  notRdstat : i ≠ .rdstat
  zeroOfError : code ≠ .ok → code ≠ .sourceError → data = 0
  zeroOfOk : code = .ok →
    ((∃ p, i = .seek p) ∨ (∃ size beg, i = .refill size beg) ∨ ∃ addr data, i = .wrsi addr data) →
    data = 0
  sourceWord : code = .sourceError → ∃ size beg rest, i = .refill size beg
    ∧ acquire size.toNat s.source = .sourceError data rest

/-- Does the OK response carry a value as data (R78)?  RDSTAT, which is no `Completion`, is left out. -/
def returnsValue : Instr → Bool
  | .readbit => true
  | .readbits _ => true
  | .position => true
  | .seek _ => false
  | .refill _ _ => false
  | .sfdecode _ _ => true
  | .wrsi _ _ => false
  | .rdsfl _ _ _ => true
  | .rdsfs _ _ _ _ => true
  | .rdstat => false

/-- A completion from a state whose ports, configuration and sticky flag are those of `s`. -/
theorem State.completed_of_same (s u : State) (code : ResultCode) (data : Word)
    (hr : u.responses = s.responses := by simp) (he : u.events = s.events := by simp)
    (hc : u.cfg = s.cfg := by simp) (hg : u.guardFault = s.guardFault := by simp) :
    Completed s (u.complete code data) code data :=
  ⟨⟨by simp [hr], by simp [he], by simp [hc]⟩, rfl, by simp [hg]⟩

theorem Completion.of_zero {i : Instr} {s t : State} {code : ResultCode} (h : Completed s t code 0)
    (hi : i ≠ .rdstat) (hc : code ≠ .sourceError) : Completion i s t code 0 :=
  { h with
    notRdstat := hi
    zeroOfError := fun _ _ => rfl
    zeroOfOk := fun _ _ => rfl
    sourceWord := fun hs => absurd hs hc }

theorem Completion.of_value {i : Instr} {s t : State} {data : Word} (h : Completed s t .ok data)
    (hi : returnsValue i = true) : Completion i s t .ok data :=
  { h with
    notRdstat := by rintro rfl; cases hi
    zeroOfError := fun hne => absurd rfl hne
    zeroOfOk := by rintro - (⟨p, rfl⟩ | ⟨size, beg, rfl⟩ | ⟨addr, d, rfl⟩) <;> cases hi
    sourceWord := nofun }

/-- The codes found before anything is changed are no RDSTAT's. -/
theorem ne_rdstat_of_possible {i : Instr} {code : ResultCode} (h : code ∈ possibleCodes i)
    (hc : code ≠ .ok) : i ≠ .rdstat := by
  rintro rfl
  simp [possibleCodes, hc] at h

/-- A command waits, is RDSTAT, which writes no flag, or completes. -/
theorem effect_completion {i : Instr} {s t : State} (h : Effect i s t) :
    (waits i s = true ∧ t = s)
    ∨ (i = .rdstat ∧ t = s.respond .ok s.statusWord)
    ∨ ∃ code data, Completion i s t code data := by
  cases h with
  | waits h => exact .inl ⟨h, rfl⟩
  | status hi => exact .inr (.inl ⟨hi, rfl⟩)
  | raised code h hi =>
    have hne : code ≠ .ok ∧ code ≠ .sourceError := by rcases h with rfl | rfl | rfl | rfl <;> decide
    exact .inr (.inr ⟨code, 0, .of_zero (s.completed code 0) (ne_rdstat_of_possible hi hne.1) hne.2⟩)
  | answered data hi =>
    have hv : returnsValue i = true := by
      rcases hi with ⟨n, rfl⟩ | rfl | ⟨gr, ch, band, rfl⟩ | ⟨gr, ch, band, win, rfl⟩ <;> rfl
    exact .inr (.inr ⟨.ok, data, .of_value (s.completed .ok data) hv⟩)
  | read n data hi _ _ =>
    have hv : returnsValue i = true := by rcases hi with rfl | ⟨k, rfl⟩ <;> rfl
    exact .inr (.inr ⟨.ok, data, .of_value (s.completed_of_same _ .ok data) hv⟩)
  | sought p hi =>
    subst hi
    exact .inr (.inr ⟨.ok, 0, .of_zero (s.completed_of_same _ .ok 0) nofun nofun⟩)
  | decoded gr ch hi branch slen _ _ _ data _ =>
    subst hi
    exact .inr (.inr ⟨.ok, data, .of_value (s.completed_of_same _ .ok data) rfl⟩)
  | wrote addr data hi _ =>
    subst hi
    exact .inr (.inr ⟨.ok, 0, .of_zero (s.completed_of_same _ .ok 0) nofun nofun⟩)
  | sourceFailed size beg hi code data rest h =>
    subst hi
    have hcomp : Completed s ({ s with source := rest }.complete code data) code data :=
      s.completed_of_same _ code data
    rcases h with ⟨rfl, rfl, -⟩ | ⟨rfl, hacq⟩
    · exact .inr (.inr ⟨_, 0, .of_zero hcomp nofun nofun⟩)
    · exact .inr (.inr ⟨_, data, { hcomp with
        notRdstat := nofun
        zeroOfError := fun _ hne => absurd rfl hne
        zeroOfOk := nofun
        sourceWord := fun _ => ⟨size, beg, rest, rfl, hacq⟩ }⟩)
  | underrun size beg hi fresh rest _ _ _ _ =>
    subst hi
    exact .inr (.inr ⟨.frameUndecodable, 0, .of_zero (s.completed_of_same _ _ 0) nofun nofun⟩)
  | normal size beg hi fresh rest _ _ _ _ =>
    subst hi
    exact .inr (.inr ⟨.ok, 0, .of_zero (s.completed_of_same _ _ 0) nofun nofun⟩)

/-- `guardFault` is sticky: no command clears it (R30). -/
theorem exec_keeps_guardFault {i : Instr} {s t : State} (h : exec i s = .next t)
    (hg : s.guardFault = true) : t.guardFault = true := by
  rcases effect_completion (exec_effect i s t h) with ⟨-, rfl⟩ | ⟨-, rfl⟩ | ⟨code, data, hc⟩
  · exact hg
  · exact hg
  · rw [hc.guardFault, hg, Bool.true_or]

theorem ResultCode.isGuard_iff (code : ResultCode) :
    code.isGuard = true ↔ code = .illegalCommand ∨ code = .badOperand ∨ code = .readBeyondTop
      ∨ code = .reservoirOverflow := by
  cases code <;> simp [ResultCode.isGuard]

/-! ### The invariant, operation by operation -/

theorem State.Inv.capacity_le {s : State} (h : s.Inv) : s.cfg.capacity ≤ 4095 := by
  have hok := h.config
  simp only [Config.ok, Bool.and_eq_true, decide_eq_true_eq] at hok
  exact hok.1

theorem State.applyReset_inv {s : State} (hc : s.cfg.ok = true) : s.applyReset.Inv where
  config := hc
  canonical := ⟨.nil, nofun⟩
  within := nofun
  top_le := Nat.zero_le _
  blockCode := ⟨nofun, nofun⟩
  guardMarked := nofun
  band12 := fun gr ch win _ => s.applyReset_shortEntry gr ch 12 win

theorem State.Inv.respond {s : State} (h : s.Inv) (code : ResultCode) (data : Word) :
    (s.respond code data).Inv := { h with }

theorem State.Inv.complete {s : State} (h : s.Inv) (code : ResultCode) (data : Word)
    (hc : code ≠ .frameSizeInvalid ∧ code ≠ .huffmanDecodeError) : (s.complete code data).Inv :=
  { h with
    blockCode := hc
    guardMarked := fun hg => by
      rw [State.complete_lastResult] at hg
      rw [State.complete_guardFault, hg, Bool.or_true] }

theorem State.Inv.setPos {s : State} (h : s.Inv) (p : Nat) : (s.setPos p).Inv := { h with }

theorem State.Inv.setSource {s : State} (h : s.Inv) (rest : List PullAnswer) :
    { s with source := rest }.Inv := { h with }

theorem State.Inv.setSideInfo {s : State} (h : s.Inv) (addr : Nat) (data : BitVec 8) :
    (s.setSideInfo addr data).Inv := by
  unfold State.setSideInfo
  split <;> exact { h with }

/-- A branch of the decoder writes tables and cursor, and never short band 12 (R141). -/
theorem State.Inv.runSf {s : State} (h : s.Inv) (gr ch : BitVec 1) (branch : Branch)
    (scfsi : BitVec 4) (slen : Nat × Nat) :
    (runSf gr ch s (sfActions branch gr scfsi slen)).Inv where
  config := by simpa using h.config
  canonical := by simpa using h.canonical
  within := by simpa using h.within
  top_le := by simpa using h.top_le
  blockCode := by simpa using h.blockCode
  guardMarked := by simpa using h.guardMarked
  band12 := fun gr' ch' win hw => by
    have hin := sfActions_inTable branch gr scfsi slen
    rw [shortEntry_runSf_of_not_written gr ch s _ (fun a ha => (hin a ha).1) gr' ch' 12 win
      (by decide) hw (.inr fun a ha => (hin a ha).2 win)]
    exact h.band12 gr' ch' win hw

/-- Bytes written below C with `top` set to their end: what both commits of REFILL do (R94, R95, R96). -/
theorem State.Inv.fill {s : State} (h : s.Inv) (start : Nat) (bytes : List Byte)
    (hc : start + bytes.length ≤ s.cfg.capacity) :
    { s with
      buf := s.buf.writeBytes start bytes, top := BitVec.ofNat 12 (start + bytes.length)
      bytePos := 0, bitIdx := 0 }.Inv :=
  { h with
    canonical := Memory.wf_writeBytes _ _ _ h.canonical
    within := Memory.within_writeBytes _ _ _ _ h.within hc
    top_le := (BitVec.toNat_ofNat ..).trans_le ((Nat.mod_le ..).trans hc) }

theorem State.Inv.commitUnderrun {s : State} (h : s.Inv) (fresh : List Byte)
    (hc : s.top.toNat + fresh.length ≤ s.cfg.capacity) : (s.commitUnderrun fresh).Inv :=
  h.fill s.top.toNat fresh hc

theorem State.Inv.commitNormal {s : State} (h : s.Inv) (n : Nat) (fresh : List Byte)
    (hc : n + fresh.length ≤ s.cfg.capacity) : (s.commitNormal n fresh).Inv := by
  have hlen : 0 + (s.buf.readBytes (s.top.toNat - n) n ++ fresh).length = n + fresh.length := by simp
  have := h.fill 0 (s.buf.readBytes (s.top.toNat - n) n ++ fresh) (hlen ▸ hc)
  rwa [hlen] at this

theorem exec_keeps_inv {i : Instr} {s t : State} (hs : s.Inv) (h : exec i s = .next t) : t.Inv := by
  cases exec_effect i s t h with
  | waits _ => exact hs
  | status _ => exact hs.respond _ _
  | raised code hcode _ =>
    exact hs.complete code 0 (by rcases hcode with rfl | rfl | rfl | rfl <;> decide)
  | answered data _ => exact hs.complete _ _ (by decide)
  | read n data _ _ _ => exact (hs.setPos _).complete _ _ (by decide)
  | sought p _ => exact (hs.setPos _).complete _ _ (by decide)
  | decoded gr ch _ branch slen _ _ _ data _ =>
    exact (hs.runSf gr ch branch _ slen).complete _ _ (by decide)
  | wrote addr data _ _ => exact (hs.setSideInfo _ _).complete _ _ (by decide)
  | sourceFailed size beg _ code data rest hcode =>
    exact (hs.setSource rest).complete code data
      (by rcases hcode with ⟨rfl, -⟩ | ⟨rfl, -⟩ <;> decide)
  | underrun size beg _ fresh rest _ hlen _ hc =>
    exact ((hs.setSource rest).commitUnderrun fresh (hlen ▸ hc)).complete _ _ (by decide)
  | normal size beg _ fresh rest _ hlen _ hc =>
    exact ((hs.setSource rest).commitNormal beg.toNat fresh (hlen ▸ hc)).complete _ _ (by decide)

theorem step_keeps_inv {s t : State} (hs : s.Inv) (h : step s = .next t) : t.Inv := by
  rcases step_outcome h with ⟨-, u, hu, rfl⟩ | ⟨-, rfl⟩ | rfl | ⟨w, rest, i, -, -, hx⟩
  · exact State.applyReset_inv (hu ▸ hs.config)
  · exact hs
  · exact hs.complete _ _ (by decide)
  · exact exec_keeps_inv hs hx

/-! ### The cursor -/

/-- Every command but SEEK leaves the cursor inside the valid bits if it is there before (R25, R118). -/
theorem exec_keeps_cursorInside {i : Instr} {s t : State} (hs : s.CursorInside)
    (hseek : ∀ p, i = .seek p → p.toNat ≤ 8 * s.top.toNat) (h : exec i s = .next t) :
    t.CursorInside := by
  have htop := s.top.isLt
  unfold State.CursorInside at hs ⊢
  cases exec_effect i s t h with
  | waits _ => exact hs
  | status _ => exact hs
  | raised _ _ _ => exact hs
  | answered _ _ => exact hs
  | read n data _ hn _ =>
    simpa [State.pos_setPos s (s.pos + n) (by omega)] using hn
  | sought p hi =>
    simpa [State.pos_setPos s p.toNat p.isLt] using hseek p hi
  | decoded gr ch _ branch slen _ _ hn data _ =>
    have hpos := pos_runSf gr ch s (sfActions branch gr (s.scfsi ch) slen)
    rw [sfWidth_sfActions] at hpos
    rw [State.complete_pos, hpos (by omega), State.complete_top, runSf_top]
    omega
  | wrote addr data _ _ => simpa using hs
  | sourceFailed _ _ _ _ _ _ _ => exact hs
  | underrun _ _ _ _ _ _ _ _ _ => exact Nat.zero_le _
  | normal _ _ _ _ _ _ _ _ _ => exact Nat.zero_le _

theorem step_keeps_cursorInside {s t : State} (hs : s.CursorInside)
    (hseek : ∀ w rest p, s.events = .command w :: rest → decode w = .ok (.seek p) →
      p.toNat ≤ 8 * s.top.toNat) (h : step s = .next t) : t.CursorInside := by
  rcases step_outcome h with ⟨-, u, -, rfl⟩ | ⟨-, rfl⟩ | rfl | ⟨w, rest, i, he, hd, hx⟩
  · exact Nat.zero_le _
  · exact hs
  · exact hs
  · exact exec_keeps_cursorInside hs (fun p hi => hseek w rest p he (hi ▸ hd)) hx

theorem refuses_of_raise {i : Instr} {s : State} {code : ResultCode}
    (h : exec i s = .next (s.raise code 0)) : Refuses i s code :=
  ⟨_, h, s.completed code 0, s.complete_onlyFlags code 0, rfl⟩

/-- A cursor beyond the valid bits: every read of one or more bits lies beyond `top` (R112). -/
theorem room_of_not_cursorInside {s : State} (h : ¬ s.CursorInside) {n : Nat} (hn : 1 ≤ n) :
    s.room n = .beyondTop := by
  unfold State.CursorInside at h
  rw [State.room_beyondTop_iff]
  omega

/-! ### The reservoir -/

/-- A command leaves `top` and every byte alone, or is a REFILL whose `top` falls only with OK (R26). -/
theorem exec_reservoir {i : Instr} {s t : State} (hcap : s.cfg.capacity ≤ 4095)
    (h : exec i s = .next t) :
    SameReservoir s t
    ∨ (∃ size beg, i = .refill size beg)
      ∧ (t.top.toNat < s.top.toNat → t.responses = s.responses ++ [⟨.ok, 0⟩]) := by
  cases exec_effect i s t h with
  | waits _ => exact .inl ⟨fun _ => rfl, rfl⟩
  | status _ => exact .inl ⟨fun _ => rfl, rfl⟩
  | raised _ _ _ => exact .inl ⟨fun _ => rfl, rfl⟩
  | answered _ _ => exact .inl ⟨fun _ => rfl, rfl⟩
  | read _ _ _ _ _ => exact .inl ⟨fun _ => rfl, rfl⟩
  | sought _ _ => exact .inl ⟨fun _ => rfl, rfl⟩
  | decoded _ _ _ _ _ _ _ _ _ _ => exact .inl ⟨by simp, by simp⟩
  | wrote _ _ _ _ => exact .inl ⟨by simp, by simp⟩
  | sourceFailed _ _ _ _ _ _ _ => exact .inl ⟨fun _ => rfl, rfl⟩
  | underrun size beg hi fresh rest _ hlen _ hc =>
    refine .inr ⟨⟨size, beg, hi⟩, fun hlt => ?_⟩
    simp only [State.complete_top, State.commitUnderrun_top, BitVec.toNat_ofNat] at hlt
    omega
  | normal size beg hi _ _ _ _ _ _ => exact .inr ⟨⟨size, beg, hi⟩, fun _ => rfl⟩

/-! ### The obligations -/

/-- Settles O55, operation by operation: every effect of a command is a chain of updates that keep the invariant. -/
theorem everyStepKeepsTheInvariant : Obligations.EveryStepKeepsTheInvariant :=
  fun _ _ => step_keeps_inv

/-- Settles O56: the cursor through the effects of a command, and the read guard where it lies outside. -/
theorem everyCommandButSeekKeepsTheCursorInside :
    Obligations.EveryCommandButSeekKeepsTheCursorInside := by
  intro s hs
  refine ⟨fun t h => ?_, fun t h hin hseek => ?_, fun p hp => ?_, fun hout => ⟨?_, fun n h1 h32 => ?_⟩⟩
  · exact ⟨(step_keeps_inv hs h).top_le, Nat.le_of_lt_succ t.bitIdx.isLt⟩
  · exact step_keeps_cursorInside hin hseek h
  · refine ⟨_, rfl, s.completed_of_same _ .ok 0, ?_⟩
    simpa [State.CursorInside, State.pos_setPos s p.toNat p.isLt] using hp
  · apply refuses_of_raise
    simp [exec, execReadbit, room_of_not_cursorInside hout]
  · apply refuses_of_raise
    have hn : n ≠ 0#6 := by rintro rfl; simp at h1
    simp [exec, execReadbits, readbitsAccepts, h32, hn, room_of_not_cursorInside hout h1]

/-- Settles O10, from the three ways a command can end. -/
theorem oneResponsePerCommand : Obligations.OneResponsePerCommand := by
  intro i s t h
  rcases effect_completion (exec_effect i s t h) with hw | ⟨rfl, rfl⟩ | ⟨code, data, hc⟩
  · exact .inl hw
  · exact .inr ⟨⟨.ok, s.statusWord⟩, rfl, rfl, by simp⟩
  · exact .inr ⟨⟨code, data⟩, hc.responses, hc.events, hc.zeroOfError, hc.zeroOfOk, hc.sourceWord⟩

/-- Settles O14: outside reset the flag is sticky. -/
theorem onlyResetClearsGuardFault : Obligations.OnlyResetClearsGuardFault := by
  intro s t h hs ht
  rcases step_outcome h with ⟨hr, -⟩ | ⟨-, rfl⟩ | rfl | ⟨w, rest, i, -, -, hx⟩
  · exact hr
  · simp [hs] at ht
  · simp [hs] at ht
  · simp [exec_keeps_guardFault hx hs] at ht

/-- Settles O15: the one response is the completion's. -/
theorem flagsRecordTheCompletion : Obligations.FlagsRecordTheCompletion := by
  intro i s t r h hr
  rcases effect_completion (exec_effect i s t h) with ⟨-, rfl⟩ | ⟨rfl, rfl⟩ | ⟨code, data, hc⟩
  · simp at hr
  · exact ⟨fun hne => absurd rfl hne, fun _ => ⟨rfl, rfl⟩⟩
  · obtain rfl : ⟨code, data⟩ = r := by simpa [hc.responses] using hr
    refine ⟨fun _ => ⟨hc.lastResult, ?_⟩, fun hi => absurd hi hc.notRdstat⟩
    rw [hc.guardFault, Bool.or_eq_true, ResultCode.isGuard_iff]

/-- Settles O50, from what a command does to the reservoir. -/
theorem onlyResetAndRefillChangeTheReservoir :
    Obligations.OnlyResetAndRefillChangeTheReservoir := by
  intro s t hcap h hnr
  have key : SameReservoir s t
      ∨ (∃ w rest size beg, s.events = .command w :: rest ∧ decode w = .ok (.refill size beg))
        ∧ (t.top.toNat < s.top.toNat → t.responses = s.responses ++ [⟨.ok, 0⟩]) := by
    rcases step_outcome h with ⟨hr, -⟩ | ⟨-, rfl⟩ | rfl | ⟨w, rest, i, he, hd, hx⟩
    · exact absurd hr hnr
    · exact .inl ⟨fun _ => rfl, rfl⟩
    · exact .inl ⟨fun _ => rfl, rfl⟩
    · refine (exec_reservoir hcap hx).imp id ?_
      rintro ⟨⟨size, beg, rfl⟩, hfall⟩
      exact ⟨⟨w, rest, size, beg, he, hd⟩, hfall⟩
  rcases key with ⟨hbytes, htop⟩ | ⟨hrefill, hfall⟩
  · simp [hbytes, htop]
  · exact ⟨fun _ => hrefill, hfall⟩

/-- Settles O9, by the branches of `step`. -/
theorem stepRunsTheDecodedCommand : Obligations.StepRunsTheDecodedCommand := by
  refine fun s => ⟨fun w rest i he hd hnw => ?_, fun he => ?_⟩
  · have hgo : ¬ (waits i s && decide (rest.head? = some .reset)) = true := by simpa using hnw
    simp only [step, he, hd, if_neg hgo]
  · simp [step, he]

/-- Settles O11: both states are the outcome of a reset event. -/
theorem resetSetsTheResetValues : Obligations.ResetSetsTheResetValues := by
  intro s t ht
  obtain ⟨u, rfl⟩ : ∃ u : State, t = u.applyReset := by
    rcases ht with rfl | ⟨⟨rest, he⟩, h⟩
    · exact ⟨_, State.reset_eq_applyReset⟩
    · rw [step_of_reset he] at h
      exact ⟨s, (Host.Outcome.next.inj h).symm⟩
  exact ⟨rfl, rfl, rfl, fun gr ch band _ => u.applyReset_longEntry gr ch band,
    fun gr ch band _ win _ => u.applyReset_shortEntry gr ch band win, u.applyReset_gc,
    u.applyReset_scfsi, rfl, rfl⟩

/-- Settles O54: the reset state is the outcome of a reset event under the document's configuration. -/
theorem resetStateMeetsTheInvariant : Obligations.ResetStateMeetsTheInvariant :=
  show State.reset.applyReset.Inv from State.applyReset_inv (by decide)

end Sys2Proof.Machine
end

section
/-! The reservoir as memory: a window of the byte source's stream whose bytes beyond `top` nobody can see, and the one
offset that stops the model (20_memory.md). -/

namespace Sys2Proof.Machine

/-! ### The valid bytes -/

theorem Memory.readBytes_congr {m m' : Memory} {start n : Nat}
    (h : ∀ a, start ≤ a → a < start + n → m'.read a = m.read a) :
    m'.readBytes start n = m.readBytes start n :=
  List.map_congr_left fun i hi => h _ (by omega) (by simpa using hi)

theorem Memory.readBytes_append (m : Memory) (start n k : Nat) :
    m.readBytes start (n + k) = m.readBytes start n ++ m.readBytes (start + n) k := by
  simp [Memory.readBytes, List.range_add, Nat.add_assoc, Function.comp_def]

theorem Memory.drop_readBytes (m : Memory) {k n : Nat} (h : k ≤ n) :
    (m.readBytes 0 n).drop k = m.readBytes k (n - k) := by
  obtain ⟨d, rfl⟩ := Nat.exists_eq_add_of_le h
  simp [Memory.readBytes_append]

/-- Bytes written and read back. -/
theorem Memory.readBytes_writeBytes (m : Memory) (start : Nat) (bytes : List Byte) :
    (m.writeBytes start bytes).readBytes start bytes.length = bytes := by
  refine List.ext_getElem? fun i => ?_
  by_cases hi : i < bytes.length
  · rw [Memory.getElem?_readBytes _ _ _ _ hi, Memory.read_writeBytes, if_pos (by omega),
      Nat.add_sub_cancel_left, List.getElem?_eq_getElem hi, Option.getD_some]
  · simp [hi]

/-- `top` as both commits of REFILL leave it, where the new bytes fit below C (R94). -/
theorem toNat_ofNat_of_le_capacity {n c : Nat} (h : n ≤ c) (hc : c ≤ 4095) :
    (BitVec.ofNat 12 n).toNat = n := by
  rw [BitVec.toNat_ofNat]; omega

/-- The normal commit keeps the last `n` valid bytes and puts the fresh ones after them (R95). -/
theorem State.contents_commitNormal {s : State} {n : Nat} {fresh : List Byte} (hn : n ≤ s.top.toNat)
    (hc : n + fresh.length ≤ s.cfg.capacity) (hcap : s.cfg.capacity ≤ 4095) :
    (s.commitNormal n fresh).contents = s.contents.drop (s.top.toNat - n) ++ fresh := by
  have hlen : n + fresh.length = (s.buf.readBytes (s.top.toNat - n) n ++ fresh).length := by simp
  unfold State.contents
  rw [State.commitNormal_top, toNat_ofNat_of_le_capacity hc hcap, State.commitNormal_buf, hlen,
    Memory.readBytes_writeBytes, Memory.drop_readBytes _ (Nat.sub_le ..), Nat.sub_sub_self hn]

/-- The underrun commit discards nothing and appends the fresh bytes (R96). -/
theorem State.contents_commitUnderrun {s : State} {fresh : List Byte}
    (hc : s.top.toNat + fresh.length ≤ s.cfg.capacity) (hcap : s.cfg.capacity ≤ 4095) :
    (s.commitUnderrun fresh).contents = s.contents ++ fresh := by
  unfold State.contents
  rw [State.commitUnderrun_top, toNat_ofNat_of_le_capacity hc hcap, State.commitUnderrun_buf,
    Memory.readBytes_append, Nat.zero_add, Memory.readBytes_writeBytes]
  congr 1
  exact Memory.readBytes_congr fun a _ ha => by rw [Memory.read_writeBytes, if_neg (by omega)]

theorem SameReservoir.contents {s t : State} (h : SameReservoir s t) : t.contents = s.contents := by
  unfold State.contents
  rw [h.top]
  exact Memory.readBytes_congr fun a _ _ => h.bytes a

/-- A satisfied Acquire has taken the next bytes of the stream (R62, R93). -/
theorem take_streamBytes_of_acquire {m : Nat} {source rest : List PullAnswer} {fresh : List Byte}
    (h : acquire m source = .done fresh rest) : (streamBytes source).take m = fresh := by
  obtain ⟨rfl, hs⟩ := acquire_done m source rest fresh h
  rw [hs, List.take_left]

/-- The three ways a command can leave the reservoir: the normal commit, the underrun commit, and untouched.  It is
untouched by every command but REFILL, none of which asks the byte source for anything, and by a REFILL that
reports neither of the commits (R95, R96, R98). -/
theorem exec_commit {i : Instr} {s t : State} (h : exec i s = .next t) :
    (∃ size beg fresh rest, i = .refill size beg ∧ acquire size.toNat s.source = .done fresh rest
        ∧ beg.toNat ≤ s.top.toNat ∧ beg.toNat + fresh.length ≤ s.cfg.capacity
        ∧ t = ({ s with source := rest }.commitNormal beg.toNat fresh).complete .ok 0)
    ∨ (∃ size beg fresh rest, i = .refill size beg ∧ acquire size.toNat s.source = .done fresh rest
        ∧ s.top.toNat + fresh.length ≤ s.cfg.capacity
        ∧ t = ({ s with source := rest }.commitUnderrun fresh).complete .frameUndecodable 0)
    ∨ SameReservoir s t
      ∧ ((∃ size beg, i = .refill size beg) → ∀ r, t.responses = s.responses ++ [r] →
          r.code ≠ .ok ∧ r.code ≠ .frameUndecodable)
      ∧ ((∀ size beg, i ≠ .refill size beg) → t.source = s.source) := by
  cases exec_effect i s t h with
  | normal size beg hi fresh rest hacq hlen hb hc =>
    exact .inl ⟨size, beg, fresh, rest, hi, hacq, hb, hlen ▸ hc, rfl⟩
  | underrun size beg hi fresh rest hacq hlen _ hc =>
    exact .inr (.inl ⟨size, beg, fresh, rest, hi, hacq, hlen ▸ hc, rfl⟩)
  | waits _ => exact .inr (.inr ⟨⟨fun _ => rfl, rfl⟩, fun _ r hr => by simp at hr, fun _ => rfl⟩)
  | raised code hcode _ =>
    refine .inr (.inr ⟨⟨fun _ => rfl, rfl⟩, fun _ r hr => ?_, fun _ => rfl⟩)
    obtain rfl : ⟨code, 0⟩ = r := by simpa using hr
    rcases hcode with rfl | rfl | rfl | rfl <;> decide
  | sourceFailed size beg hi code data rest hcode =>
    refine .inr (.inr ⟨⟨fun _ => rfl, rfl⟩, fun _ r hr => ?_, fun hno => absurd hi (hno _ _)⟩)
    obtain rfl : ⟨code, data⟩ = r := by simpa using hr
    rcases hcode with ⟨rfl, -⟩ | ⟨rfl, -⟩ <;> exact ⟨nofun, nofun⟩
  | status hi =>
    exact .inr (.inr ⟨⟨fun _ => rfl, rfl⟩, by simp [hi], fun _ => rfl⟩)
  | answered data hi =>
    refine .inr (.inr ⟨⟨fun _ => rfl, rfl⟩, ?_, fun _ => rfl⟩)
    rintro ⟨size, beg, rfl⟩
    simp at hi
  | read n data hi _ _ =>
    refine .inr (.inr ⟨⟨fun _ => rfl, rfl⟩, ?_, fun _ => rfl⟩)
    rintro ⟨size, beg, rfl⟩
    simp at hi
  | sought p hi => exact .inr (.inr ⟨⟨fun _ => rfl, rfl⟩, by simp [hi], fun _ => rfl⟩)
  | decoded gr ch hi _ _ _ _ _ _ _ => exact .inr (.inr ⟨⟨by simp, by simp⟩, by simp [hi], by simp⟩)
  | wrote addr data hi _ => exact .inr (.inr ⟨⟨by simp, by simp⟩, by simp [hi], by simp⟩)

/-- Settles O30: the valid bytes after each of the three ways a command can leave the reservoir. -/
theorem reservoirIsASlidingWindowOfTheStream : Obligations.ReservoirIsASlidingWindowOfTheStream := by
  intro i s t r htop hcap h hr
  rcases exec_commit h with ⟨size, beg, fresh, rest, rfl, hacq, hb, hc, rfl⟩
    | ⟨size, beg, fresh, rest, rfl, hacq, hc, rfl⟩ | ⟨hsame, hcode, hsource⟩
  · obtain rfl : ⟨.ok, 0⟩ = r := by simpa using hr
    refine ⟨?_, nofun, fun hne => absurd rfl (hne ⟨size, beg, rfl⟩).1, fun hno => absurd rfl (hno _ _)⟩
    rintro _ _ ⟨⟩ -
    rw [take_streamBytes_of_acquire hacq]
    exact State.contents_commitNormal (s := { s with source := rest }) hb hc hcap
  · obtain rfl : ⟨.frameUndecodable, 0⟩ = r := by simpa using hr
    refine ⟨nofun, ?_, fun hne => absurd rfl (hne ⟨size, beg, rfl⟩).2, fun hno => absurd rfl (hno _ _)⟩
    rintro _ _ ⟨⟩ -
    rw [take_streamBytes_of_acquire hacq]
    exact State.contents_commitUnderrun (s := { s with source := rest }) hc hcap
  · exact ⟨fun size beg hi hok => absurd hok (hcode ⟨size, beg, hi⟩ r hr).1,
      fun size beg hi hfu => absurd hfu (hcode ⟨size, beg, hi⟩ r hr).2,
      fun _ => hsame.contents, hsource⟩

/-- After the normal commit the byte at `a` below `n` is the one that stood at `top - n + a` (R95). -/
theorem State.read_commitNormal {s : State} {n : Nat} {fresh : List Byte} {a : Nat} (ha : a < n) :
    (s.commitNormal n fresh).buf.read a = s.buf.read (s.top.toNat - n + a) := by
  rw [State.commitNormal_buf, Memory.read_writeBytes,
    if_pos ⟨Nat.zero_le a, by simp; omega⟩, Nat.sub_zero,
    List.getElem?_append_left (by simpa using ha), Memory.getElem?_readBytes _ _ _ _ ha, Option.getD_some]

/-- A bit is moved with its byte (R51). -/
theorem Memory.bitAt_shift {m m' : Memory} {d q : Nat} (h : m'.read (q / 8) = m.read (d + q / 8)) :
    m'.bitAt q = m.bitAt (8 * d + q) := by
  rw [Memory.bitAt, Memory.bitAt, h, Nat.mul_add_div (by decide), Nat.mul_add_mod]

/-- Settles O32: a REFILL answered with OK is the normal commit. -/
theorem positionsShiftAcrossARefill : Obligations.PositionsShiftAcrossARefill := by
  intro s t size beg _ _ h hr q hq
  rcases exec_commit h with ⟨_, _, fresh, rest, ⟨⟩, _, _, _, rfl⟩ | ⟨_, _, _, _, _, _, _, rfl⟩
    | ⟨_, hcode, _⟩
  · exact Memory.bitAt_shift
      (State.read_commitNormal (s := { s with source := rest }) (by omega))
  · simp at hr
  · exact absurd rfl (hcode ⟨size, beg, rfl⟩ _ hr).1

/-! ### The one stop -/

theorem State.top_gt_of_noSuchOffset {s : State} {n : Nat} (h : s.room n = .noSuchOffset) :
    s.cfg.capacity < s.top.toNat := by
  rw [State.room_noSuchOffset_iff] at h
  omega

/-- The outcome is a next state, or the stop at an offset the reservoir does not have, in a state that counts such
offsets as valid. -/
def NextOrMissingOffset (s : State) (o : Host.Outcome State Fault Refusal) : Prop :=
  (∃ t, o = .next t) ∨ (o = .fault .offsetOutsideReservoir ∧ s.cfg.capacity < s.top.toNat)

theorem execReadbit_nextOrMissing (s : State) : NextOrMissingOffset s (execReadbit s) := by
  unfold execReadbit
  cases hroom : s.room 1 with
  | beyondTop => exact .inl ⟨_, rfl⟩
  | noSuchOffset => exact .inr ⟨rfl, State.top_gt_of_noSuchOffset hroom⟩
  | admitted => exact .inl ⟨_, rfl⟩

theorem execReadbits_nextOrMissing (n : BitVec 6) (s : State) :
    NextOrMissingOffset s (execReadbits n s) := by
  unfold execReadbits
  split
  · split
    · exact .inl ⟨_, rfl⟩
    · cases hroom : s.room n.toNat with
      | beyondTop => exact .inl ⟨_, rfl⟩
      | noSuchOffset => exact .inr ⟨rfl, State.top_gt_of_noSuchOffset hroom⟩
      | admitted => exact .inl ⟨_, rfl⟩
  · exact .inl ⟨_, rfl⟩

theorem execSfdecode_nextOrMissing (gr ch : BitVec 1) (s : State) :
    NextOrMissingOffset s (execSfdecode gr ch s) := by
  unfold execSfdecode
  dsimp only
  split
  · exact .inl ⟨_, rfl⟩
  · rename_i hroom; exact .inr ⟨rfl, State.top_gt_of_noSuchOffset hroom⟩
  · exact .inl ⟨_, rfl⟩

theorem execRefill_nextOrMissing (size beg : BitVec 12) (s : State) :
    NextOrMissingOffset s (execRefill size beg s) := by
  unfold execRefill
  have hpath := s.refillPath_spec size.toNat beg.toNat
  cases hp : s.refillPath size.toNat beg.toNat with
  | tooLarge => exact .inl ⟨_, rfl⟩
  | overflow => exact .inl ⟨_, rfl⟩
  | noSuchOffset =>
    rw [hp] at hpath
    obtain ⟨-, -, htop⟩ := hpath
    exact .inr ⟨rfl, htop⟩
  | underrun => exact .inl (s.acquireThen_never_stops _ _ _)
  | normal => exact .inl (s.acquireThen_never_stops _ _ _)

theorem exec_nextOrMissing (i : Instr) (s : State) : NextOrMissingOffset s (exec i s) := by
  cases i with
  | readbit => exact execReadbit_nextOrMissing s
  | readbits n => exact execReadbits_nextOrMissing n s
  | position => exact .inl ⟨_, rfl⟩
  | seek p => exact .inl ⟨_, rfl⟩
  | refill size beg => exact execRefill_nextOrMissing size beg s
  | sfdecode gr ch => exact execSfdecode_nextOrMissing gr ch s
  | wrsi addr data => exact .inl (by simp only [exec, execWrsi]; split <;> exact ⟨_, rfl⟩)
  | rdsfl gr ch band => exact .inl (by simp only [exec, execRdsfl]; split <;> exact ⟨_, rfl⟩)
  | rdsfs gr ch band win => exact .inl (by simp only [exec, execRdsfs]; split <;> exact ⟨_, rfl⟩)
  | rdstat => exact .inl ⟨_, rfl⟩

/-- Settles O53, from the two outcomes a command can have. -/
theorem onlyTheMissingOffsetStops : Obligations.OnlyTheMissingOffsetStops := by
  intro i s
  rcases exec_nextOrMissing i s with ⟨t, ht⟩ | ⟨hf, htop⟩
  · simp [ht]
  · exact ⟨fun _ _ => htop, by simp [hf]⟩

/-! ### Bytes beyond `top` -/

section
variable {s s' : State}

/-- The second state is the first with another reservoir. -/
theorem SameButBeyondTop.eq_withBuf (h : SameButBeyondTop s s') : s' = { s with buf := s'.buf } := by
  obtain ⟨hcfg, htop, -, ⟨hbyte, hbit⟩, ⟨hlong, hshort⟩, ⟨hgc, hscfsi⟩, hlast, hguard, hev, hsrc, hresp⟩ := h
  rw [← hcfg, ← htop, ← hbyte, ← hbit, ← hlong, ← hshort, ← hgc, ← hscfsi, ← hlast, ← hguard, ← hev,
    ← hsrc, ← hresp]

/-- What does not look at the reservoir's bytes is the same of both states. -/
theorem SameButBeyondTop.congr {α : Type} (h : SameButBeyondTop s s') (f : State → α)
    (hf : ∀ m, f { s with buf := m } = f s) : f s' = f s := by
  rw [h.eq_withBuf]
  exact hf _

theorem SameButBeyondTop.pos (h : SameButBeyondTop s s') : s'.pos = s.pos :=
  h.congr State.pos fun _ => rfl

theorem SameButBeyondTop.room (h : SameButBeyondTop s s') (n : Nat) : s'.room n = s.room n :=
  h.congr (State.room · n) fun _ => rfl

/-- Bits the read guard admits lie below `top` (R112). -/
theorem SameButBeyondTop.bits (h : SameButBeyondTop s s') {n : Nat}
    (hn : n = 0 ∨ s.pos + n ≤ 8 * s.top.toNat) : s'.buf.bits s'.pos n = s.buf.bits s.pos n := by
  rw [h.pos]
  rcases hn with rfl | hn
  · rfl
  · exact Memory.bits_congr _ _ _ _ s.top.toNat h.valid hn

/-! The relation, operation by operation. -/

theorem sameButBeyondTop_withBuf (s : State) {m : Memory}
    (h : ∀ a < s.top.toNat, m.read a = s.buf.read a) : SameButBeyondTop s { s with buf := m } :=
  ⟨rfl, rfl, h, ⟨rfl, rfl⟩, ⟨rfl, rfl⟩, ⟨rfl, rfl⟩, rfl, rfl, rfl, rfl, rfl⟩

/-- An operation that neither reads nor writes the reservoir keeps the relation. -/
theorem SameButBeyondTop.map (h : SameButBeyondTop s s') (f : State → State)
    (hf : ∀ m, f { s with buf := m } = { f s with buf := m }) (hbuf : (f s).buf = s.buf)
    (htop : (f s).top = s.top) : SameButBeyondTop (f s) (f s') := by
  rw [h.eq_withBuf, hf s'.buf]
  exact sameButBeyondTop_withBuf _ (by rw [htop, hbuf]; exact h.valid)

theorem SameButBeyondTop.respond (h : SameButBeyondTop s s') (code : ResultCode) (data : Word) :
    SameButBeyondTop (s.respond code data) (s'.respond code data) :=
  h.map (State.respond · code data) (fun _ => rfl) rfl rfl

theorem SameButBeyondTop.complete (h : SameButBeyondTop s s') (code : ResultCode) (data : Word) :
    SameButBeyondTop (s.complete code data) (s'.complete code data) :=
  h.map (State.complete · code data) (fun _ => rfl) rfl rfl

theorem SameButBeyondTop.setPos (h : SameButBeyondTop s s') (p : Nat) :
    SameButBeyondTop (s.setPos p) (s'.setPos p) :=
  h.map (State.setPos · p) (fun _ => rfl) rfl rfl

theorem SameButBeyondTop.advance (h : SameButBeyondTop s s') (n : Nat) :
    SameButBeyondTop (s.advance n) (s'.advance n) :=
  h.map (State.advance · n) (fun _ => rfl) rfl rfl

theorem SameButBeyondTop.setLong (h : SameButBeyondTop s s') (gr ch : BitVec 1) (band : Nat)
    (v : BitVec 4) : SameButBeyondTop (s.setLong gr ch band v) (s'.setLong gr ch band v) :=
  h.map (State.setLong · gr ch band v) (fun _ => rfl) rfl rfl

theorem SameButBeyondTop.setShort (h : SameButBeyondTop s s') (gr ch : BitVec 1) (band win : Nat)
    (v : BitVec 4) : SameButBeyondTop (s.setShort gr ch band win v) (s'.setShort gr ch band win v) :=
  h.map (State.setShort · gr ch band win v) (fun _ => rfl) rfl rfl

theorem SameButBeyondTop.setSideInfo (h : SameButBeyondTop s s') (addr : Nat) (data : BitVec 8) :
    SameButBeyondTop (s.setSideInfo addr data) (s'.setSideInfo addr data) :=
  h.map (State.setSideInfo · addr data) (fun _ => by unfold State.setSideInfo; split <;> rfl)
    (s.setSideInfo_buf addr data) (s.setSideInfo_top addr data)

theorem SameButBeyondTop.setSource (h : SameButBeyondTop s s') (rest : List PullAnswer) :
    SameButBeyondTop { s with source := rest } { s' with source := rest } :=
  h.map ({ · with source := rest }) (fun _ => rfl) rfl rfl

/-- Both commits: the same bytes written at the same offset at or below `top`, which moves to their end at most. -/
theorem SameButBeyondTop.fill (h : SameButBeyondTop s s') {start : Nat} (hs : start ≤ s.top.toNat)
    (bytes : List Byte) {top : BitVec 12} (ht : top.toNat ≤ start + bytes.length) :
    SameButBeyondTop
      { s with buf := s.buf.writeBytes start bytes, top := top, bytePos := 0, bitIdx := 0 }
      { s' with buf := s'.buf.writeBytes start bytes, top := top, bytePos := 0, bitIdx := 0 } := by
  rw [h.eq_withBuf]
  refine sameButBeyondTop_withBuf
    { s with buf := s.buf.writeBytes start bytes, top := top, bytePos := 0, bitIdx := 0 }
    fun a (ha : a < top.toNat) => ?_
  dsimp only
  rw [Memory.read_writeBytes, Memory.read_writeBytes]
  split
  · rfl
  · exact h.valid a (by omega)

theorem SameButBeyondTop.commitUnderrun (h : SameButBeyondTop s s') (fresh : List Byte) :
    SameButBeyondTop (s.commitUnderrun fresh) (s'.commitUnderrun fresh) := by
  unfold State.commitUnderrun
  rw [h.top]
  exact h.fill (Nat.le_refl _) fresh ((BitVec.toNat_ofNat ..).trans_le (Nat.mod_le ..))

/-- The history that is kept lies below `top`. -/
theorem SameButBeyondTop.commitNormal (h : SameButBeyondTop s s') {n : Nat} (hn : n ≤ s.top.toNat)
    (fresh : List Byte) :
    SameButBeyondTop (s.commitNormal n fresh) (s'.commitNormal n fresh) := by
  have hkept : s'.buf.readBytes (s.top.toNat - n) n = s.buf.readBytes (s.top.toNat - n) n :=
    Memory.readBytes_congr fun a _ ha => h.valid a (by omega)
  unfold State.commitNormal
  rw [h.top, hkept]
  refine h.fill (Nat.zero_le _) _ ?_
  rw [BitVec.toNat_ofNat, List.length_append, Memory.length_readBytes, Nat.zero_add]
  exact Nat.mod_le ..

theorem SameButBeyondTop.runSfAction (h : SameButBeyondTop s s') (gr ch : BitVec 1) (a : SfAction)
    (ha : a.width = 0 ∨ s.pos + a.width ≤ 8 * s.top.toNat) :
    SameButBeyondTop (runSfAction gr ch s a) (runSfAction gr ch s' a) := by
  cases a with
  | freshLong band width =>
    have hbits := h.bits (n := width) ha
    simp only [Machine.runSfAction, hbits]
    exact (h.setLong gr ch band _).advance width
  | freshShort band win width =>
    have hbits := h.bits (n := width) ha
    simp only [Machine.runSfAction, hbits]
    exact (h.setShort gr ch band win _).advance width
  | copyLong band =>
    have hentry : s'.longEntry 0 ch band = s.longEntry 0 ch band :=
      h.congr (State.longEntry · 0 ch band) fun _ => rfl
    simp only [Machine.runSfAction, hentry]
    exact h.setLong gr ch band _

theorem top_runSfAction (gr ch : BitVec 1) (s : State) (a : SfAction) :
    (runSfAction gr ch s a).top = s.top := by cases a <;> rfl

/-- Each assignment of a run reads bits of the run's own span only, so below `top` if the whole span is. -/
theorem SameButBeyondTop.runSf (h : SameButBeyondTop s s') (gr ch : BitVec 1)
    (actions : List SfAction)
    (hn : sfWidth actions = 0 ∨ s.pos + sfWidth actions ≤ 8 * s.top.toNat) :
    SameButBeyondTop (runSf gr ch s actions) (runSf gr ch s' actions) := by
  induction actions generalizing s s' with
  | nil => exact h
  | cons a rest ih =>
    rw [sfWidth_cons] at hn
    have htop := s.top.isLt
    have hlt := s.pos_lt
    refine ih (h.runSfAction gr ch a (by omega)) ?_
    rw [pos_runSfAction gr ch s a (by omega), top_runSfAction]
    omega

end

/-! The relation through every command. -/

/-- Two outcomes that cannot be told apart but by bytes beyond `top`. -/
def SameOutcomeButBeyondTop : Host.Outcome State Fault Refusal → Host.Outcome State Fault Refusal → Prop
  | .next t, .next t' => SameButBeyondTop t t'
  | o, o' => o = o'

theorem execReadbit_of_admitted {s : State} (h : s.room 1 = .admitted) :
    execReadbit s = .next ((s.advance 1).complete .ok
      (((s.buf.read s.bytePos.toNat >>> (7 - s.bitIdx.toNat)) &&& 1#8).setWidth 32)) := by
  have hin := (s.room_admitted_iff 1).mp h
  have htop := s.top.isLt
  simp only [execReadbit, h, readbit_cursor s (by omega), State.returnOk_eq, State.advance_eq]

section
variable {s s' : State}

theorem SameButBeyondTop.execReadbit (h : SameButBeyondTop s s') :
    SameOutcomeButBeyondTop (execReadbit s) (execReadbit s') := by
  cases hroom : s.room 1 with
  | beyondTop =>
    simp only [Machine.execReadbit, h.room, hroom]
    exact h.complete _ _
  | noSuchOffset =>
    simp only [Machine.execReadbit, h.room, hroom]
    rfl
  | admitted =>
    have hin := (s.room_admitted_iff 1).mp hroom
    have hbyte : s'.buf.read s.bytePos.toNat = s.buf.read s.bytePos.toNat :=
      h.valid _ (by rw [State.toNat_bytePos]; omega)
    rw [execReadbit_of_admitted hroom, execReadbit_of_admitted (h.room 1 ▸ hroom), h.cursor.bytePos,
      h.cursor.bitIdx, hbyte]
    exact (h.advance 1).complete _ _

theorem SameButBeyondTop.execReadbits (h : SameButBeyondTop s s') (n : BitVec 6) :
    SameOutcomeButBeyondTop (execReadbits n s) (execReadbits n s') := by
  unfold Machine.execReadbits
  split
  · split
    · exact h.complete _ _
    · rw [h.room]
      cases hroom : s.room n.toNat with
      | beyondTop => exact h.complete _ _
      | noSuchOffset => rfl
      | admitted =>
        have hbits := h.bits (((s.room_admitted_iff _).mp hroom).imp id And.left)
        simp only [hbits]
        exact (h.advance n.toNat).complete _ _
  · exact h.complete _ _

theorem SameButBeyondTop.acquireThen (h : SameButBeyondTop s s') (n : Nat)
    {commit : List Byte → State → State} (code : ResultCode)
    (hcommit : ∀ fresh rest,
      SameButBeyondTop (commit fresh { s with source := rest }) (commit fresh { s' with source := rest })) :
    SameOutcomeButBeyondTop (s.acquireThen n commit code) (s'.acquireThen n commit code) := by
  unfold State.acquireThen
  rw [h.source]
  cases acquire n s.source with
  | done fresh rest => exact (hcommit fresh rest).complete _ _
  | sourceError e rest => exact (h.setSource rest).complete _ _
  | endOfStream rest => exact (h.setSource rest).complete _ _
  | waiting => exact h

theorem SameButBeyondTop.execRefill (h : SameButBeyondTop s s') (size beg : BitVec 12) :
    SameOutcomeButBeyondTop (execRefill size beg s) (execRefill size beg s') := by
  have hsame : s'.refillPath size.toNat beg.toNat = s.refillPath size.toNat beg.toNat :=
    h.congr (State.refillPath · _ _) fun _ => rfl
  have hpath := s.refillPath_spec size.toNat beg.toNat
  unfold Machine.execRefill
  rw [hsame]
  cases hp : s.refillPath size.toNat beg.toNat with
  | tooLarge => exact h.complete _ _
  | overflow => exact h.complete _ _
  | noSuchOffset => rfl
  | underrun => exact h.acquireThen _ _ fun fresh rest => (h.setSource rest).commitUnderrun fresh
  | normal =>
    rw [hp] at hpath
    obtain ⟨-, hbeg, -⟩ := hpath
    exact h.acquireThen _ _ fun fresh rest => (h.setSource rest).commitNormal hbeg fresh

theorem SameButBeyondTop.execSfdecode (h : SameButBeyondTop s s') (gr ch : BitVec 1) :
    SameOutcomeButBeyondTop (execSfdecode gr ch s) (execSfdecode gr ch s') := by
  have hgc : s'.gc gr ch = s.gc gr ch := h.congr (State.gc · gr ch) fun _ => rfl
  have hscfsi : s'.scfsi ch = s.scfsi ch := h.congr (State.scfsi · ch) fun _ => rfl
  have hslen (sc : BitVec 4) : s'.slen sc = s.slen sc := h.congr (State.slen · sc) fun _ => rfl
  unfold Machine.execSfdecode
  simp only [hgc, hscfsi, hslen, h.room]
  split
  · exact h.complete _ _
  · rfl
  · rename_i hroom
    have hin := ((s.room_admitted_iff _).mp hroom).imp id And.left
    rw [← sfWidth_sfActions] at hin
    have hrun := h.runSf gr ch _ hin
    have hpos := hrun.pos
    simp only [Machine.runSf] at hrun hpos
    rw [hpos]
    exact hrun.complete _ _

theorem SameButBeyondTop.execWrsi (h : SameButBeyondTop s s') (addr : BitVec 3) (data : BitVec 8) :
    SameOutcomeButBeyondTop (execWrsi addr data s) (execWrsi addr data s') := by
  unfold Machine.execWrsi
  split
  · exact (h.setSideInfo _ _).complete _ _
  · exact h.complete _ _

theorem SameButBeyondTop.execRdsfl (h : SameButBeyondTop s s') (gr ch : BitVec 1) (band : BitVec 5) :
    SameOutcomeButBeyondTop (execRdsfl gr ch band s) (execRdsfl gr ch band s') := by
  unfold Machine.execRdsfl
  split
  · rw [h.congr (State.longEntry · gr ch band.toNat) fun _ => rfl]
    exact h.complete _ _
  · exact h.complete _ _

theorem SameButBeyondTop.execRdsfs (h : SameButBeyondTop s s') (gr ch : BitVec 1) (band : BitVec 4)
    (win : BitVec 2) :
    SameOutcomeButBeyondTop (execRdsfs gr ch band win s) (execRdsfs gr ch band win s') := by
  unfold Machine.execRdsfs
  split
  · rw [h.congr (State.shortEntry · gr ch band.toNat win.toNat) fun _ => rfl]
    exact h.complete _ _
  · exact h.complete _ _

theorem SameButBeyondTop.execPosition (h : SameButBeyondTop s s') :
    SameOutcomeButBeyondTop (execPosition s) (execPosition s') := by
  unfold Machine.execPosition
  rw [h.pos]
  exact h.complete _ _

theorem SameButBeyondTop.execRdstat (h : SameButBeyondTop s s') :
    SameOutcomeButBeyondTop (execRdstat s) (execRdstat s') := by
  unfold Machine.execRdstat
  rw [h.congr State.statusWord fun _ => rfl]
  exact h.respond _ _

theorem SameButBeyondTop.exec (h : SameButBeyondTop s s') (i : Instr) :
    SameOutcomeButBeyondTop (exec i s) (exec i s') := by
  cases i with
  | readbit => exact h.execReadbit
  | readbits n => exact h.execReadbits n
  | position => exact h.execPosition
  | seek p => exact (h.setPos p.toNat).complete .ok 0
  | refill size beg => exact h.execRefill size beg
  | sfdecode gr ch => exact h.execSfdecode gr ch
  | wrsi addr data => exact h.execWrsi addr data
  | rdsfl gr ch band => exact h.execRdsfl gr ch band
  | rdsfs gr ch band win => exact h.execRdsfs gr ch band win
  | rdstat => exact h.execRdstat

end

/-- Settles O51: both runs have the same outcome, and the first is a next state. -/
theorem bytesBeyondTopAreUnobservable : Obligations.BytesBeyondTopAreUnobservable := by
  intro i s s' t _ _ hsame h
  have hout := hsame.exec i
  rw [h] at hout
  cases h' : exec i s' with
  | next t' => exact ⟨t', rfl, by rwa [h'] at hout⟩
  | fault f => rw [h'] at hout; cases hout
  | refused r => rw [h'] at hout; cases hout

end Sys2Proof.Machine
end

section
/-! The encoding (30_encoding.md): the decoder's test of opcode and reserved bits, said once for every command,
against the encoder's words and the match and mask columns of R72; then what a step makes of a word that is illegal
or has an operand out of range, and where the pseudo-commands put their arguments. -/

namespace Sys2Proof.Machine

open Sys2Proof.Laws
open Sys2Proof.Laws.EncodingRow (operandBits rowMatch)

/-! ### The decoder, command by command -/

/-- The opcode of the command's row in R72. -/
def opcodeOf : Instr → Nat
  | .readbit => 0x1
  | .readbits _ => 0x2
  | .position => 0x3
  | .seek _ => 0x4
  | .refill _ _ => 0x5
  | .sfdecode _ _ => 0x6
  | .wrsi _ _ => 0x7
  | .rdsfl _ _ _ => 0x8
  | .rdsfs _ _ _ _ => 0x9
  | .rdstat => 0xA

/-- The command of the same row whose operands are the fields of `w` (R71, R73). -/
def withFieldsOf (w : Word) : Instr → Instr
  | .readbit => .readbit
  | .readbits _ => .readbits (field w 0 6)
  | .position => .position
  | .seek _ => .seek (field w 0 15)
  | .refill _ _ => .refill (field w 12 12) (field w 0 12)
  | .sfdecode _ _ => .sfdecode (field w 1 1) (field w 0 1)
  | .wrsi _ _ => .wrsi (field w 8 3) (field w 0 8)
  | .rdsfl _ _ _ => .rdsfl (field w 6 1) (field w 5 1) (field w 0 5)
  | .rdsfs _ _ _ _ => .rdsfs (field w 7 1) (field w 6 1) (field w 2 4) (field w 0 2)
  | .rdstat => .rdstat

/-- The word has the command's opcode, and the reserved bits of that format are 0 (R70, R74). -/
structure HasFormat (w : Word) (i : Instr) : Prop where
  opcode : (field w 28 4).toNat = opcodeOf i
  reserved : field w (operandBits i) (28 - operandBits i) = 0

theorem hasFormat_withFieldsOf {w v : Word} {i : Instr} :
    HasFormat w (withFieldsOf v i) ↔ HasFormat w i := by
  cases i <;> exact ⟨fun h => ⟨h.opcode, h.reserved⟩, fun h => ⟨h.opcode, h.reserved⟩⟩

@[simp] theorem withFieldsOf_withFieldsOf (w : Word) (i : Instr) :
    withFieldsOf w (withFieldsOf w i) = withFieldsOf w i := by cases i <;> rfl

theorem field_opcode_toNat (w : Word) : (field w 28 4).toNat = w.toNat / 2 ^ 28 := by
  rw [field_toNat]
  have := w.isLt
  omega

theorem exists_opcodeOf {n : Nat} (h1 : 1 ≤ n) (hA : n ≤ 0xA) : ∃ i, opcodeOf i = n := by
  interval_cases n
  exacts [⟨.readbit, rfl⟩, ⟨.readbits 0, rfl⟩, ⟨.position, rfl⟩, ⟨.seek 0, rfl⟩, ⟨.refill 0 0, rfl⟩,
    ⟨.sfdecode 0 0, rfl⟩, ⟨.wrsi 0 0, rfl⟩, ⟨.rdsfl 0 0 0, rfl⟩, ⟨.rdsfs 0 0 0 0, rfl⟩,
    ⟨.rdstat, rfl⟩]

theorem ifReservedZero_eq_ok_iff {w : Word} {lo : Nat} {i j : Instr} :
    ifReservedZero w lo j = .ok i ↔ field w lo (28 - lo) = 0 ∧ j = i := by
  unfold ifReservedZero
  split
  case isTrue h => simp [h]
  case isFalse h => exact ⟨nofun, fun hij => absurd hij.1 h⟩

/-- The arm of the decoder that the opcode selects. -/
theorem decode_of_opcode {w : Word} {i : Instr} (h : (field w 28 4).toNat = opcodeOf i) :
    decode w = ifReservedZero w (operandBits i) (withFieldsOf w i) := by
  unfold decode
  rw [h]
  cases i <;> rfl

theorem decode_of_reservedOpcode {w : Word}
    (h : ¬ (1 ≤ (field w 28 4).toNat ∧ (field w 28 4).toNat ≤ 0xA)) :
    decode w = .error .reservedOpcode := by
  unfold decode
  split
  iterate 10 · omega
  · rfl

/-- A word decodes to a command exactly when it has the command's format, and in its fields the command's
operands. -/
theorem decode_eq_ok_iff {w : Word} {i : Instr} :
    decode w = .ok i ↔ HasFormat w i ∧ withFieldsOf w i = i := by
  constructor
  · intro h
    by_cases hop : 1 ≤ (field w 28 4).toNat ∧ (field w 28 4).toNat ≤ 0xA
    · obtain ⟨j, hj⟩ := exists_opcodeOf hop.1 hop.2
      rw [decode_of_opcode hj.symm, ifReservedZero_eq_ok_iff] at h
      obtain ⟨hres, rfl⟩ := h
      exact ⟨hasFormat_withFieldsOf.mpr ⟨hj.symm, hres⟩, withFieldsOf_withFieldsOf w j⟩
    · rw [decode_of_reservedOpcode hop] at h
      cases h
  · rintro ⟨⟨hop, hres⟩, hi⟩
    rw [decode_of_opcode hop, hi, ifReservedZero_eq_ok_iff]
    exact ⟨hres, rfl⟩

theorem withFieldsOf_of_decode {w : Word} {i : Instr} (h : decode w = .ok i) :
    withFieldsOf w i = i :=
  (decode_eq_ok_iff.mp h).2

theorem decode_of_hasFormat {w : Word} {i : Instr} (h : HasFormat w i) :
    decode w = .ok (withFieldsOf w i) :=
  decode_eq_ok_iff.mpr ⟨hasFormat_withFieldsOf.mpr h, withFieldsOf_withFieldsOf w i⟩

/-! ### The formats as numbers, and the round trip -/

theorem rowMatch_eq (i : Instr) : rowMatch i = opcodeOf i * 2 ^ 28 := by
  cases i <;> norm_num [rowMatch, opcodeOf]

theorem operandBits_le (i : Instr) : operandBits i ≤ 28 := by
  cases i <;> simp [operandBits]

/-- The opcode above reserved zeros: the word with its operand bits cleared is the row's match (R72). -/
theorem hasFormat_iff {w : Word} {i : Instr} :
    HasFormat w i
      ↔ w.toNat / 2 ^ operandBits i * 2 ^ operandBits i = rowMatch i := by
  obtain ⟨d, hd⟩ := Nat.exists_eq_add_of_le (operandBits_le i)
  generalize hq : w.toNat / 2 ^ operandBits i = q
  have hop : (field w 28 4).toNat = q / 2 ^ d := by
    rw [field_opcode_toNat, hd, Nat.pow_add, ← Nat.div_div_eq_div_mul, hq]
  have hres : field w (operandBits i) (28 - operandBits i) = 0 ↔ q % 2 ^ d = 0 := by
    rw [← BitVec.toNat_inj, field_toNat, hq, hd, Nat.add_sub_cancel_left]
    rfl
  have hrow : q * 2 ^ operandBits i = rowMatch i ↔ q = opcodeOf i * 2 ^ d := by
    rw [rowMatch_eq, hd, Nat.add_comm, Nat.pow_add, ← Nat.mul_assoc]
    exact Nat.mul_left_inj (by positivity)
  have hdiv : q / 2 ^ d = opcodeOf i ∧ q % 2 ^ d = 0 ↔ q = opcodeOf i * 2 ^ d := by
    constructor
    · rintro ⟨h1, h2⟩
      rw [← h1, Nat.div_mul_cancel (Nat.dvd_of_mod_eq_zero h2)]
    · rintro rfl
      exact ⟨Nat.mul_div_cancel _ (by positivity), Nat.mul_mod_left _ _⟩
  rw [hrow, ← hdiv, ← hop, ← hres]
  exact ⟨fun h => ⟨h.opcode, h.reserved⟩, fun h => ⟨h.1, h.2⟩⟩

theorem encode_hasFormat (i : Instr) : HasFormat (encode i) i := by
  rw [hasFormat_iff]
  cases i with
  | readbit => exact EncodingRow.readbit
  | readbits n => exact EncodingRow.readbits n
  | position => exact EncodingRow.position
  | seek p => exact EncodingRow.seek p
  | refill size beg => exact EncodingRow.refill size beg
  | sfdecode gr ch => exact EncodingRow.sfdecode gr ch
  | wrsi addr data => exact EncodingRow.wrsi addr data
  | rdsfl gr ch band => exact EncodingRow.rdsfl gr ch band
  | rdsfs gr ch band win => exact EncodingRow.rdsfs gr ch band win
  | rdstat => exact EncodingRow.rdstat

theorem field_eq_iff {w : Word} {lo len : Nat} {x : BitVec len} :
    field w lo len = x ↔ w.toNat / 2 ^ lo % 2 ^ len = x.toNat := by
  rw [← BitVec.toNat_inj, field_toNat]

/-- The operand fields of a command's word are the command's operands. -/
theorem withFieldsOf_encode (i : Instr) : withFieldsOf (encode i) i = i := by
  cases i with
  | readbit => rfl
  | readbits n =>
    simp only [withFieldsOf, Instr.readbits.injEq, field_eq_iff, encode_readbits_toNat]; omega
  | position => rfl
  | seek p =>
    simp only [withFieldsOf, Instr.seek.injEq, field_eq_iff, encode_seek_toNat]; omega
  | refill size beg =>
    simp only [withFieldsOf, Instr.refill.injEq, field_eq_iff, encode_refill_toNat]; omega
  | sfdecode gr ch =>
    simp only [withFieldsOf, Instr.sfdecode.injEq, field_eq_iff, encode_sfdecode_toNat]; omega
  | wrsi addr data =>
    simp only [withFieldsOf, Instr.wrsi.injEq, field_eq_iff, encode_wrsi_toNat]; omega
  | rdsfl gr ch band =>
    simp only [withFieldsOf, Instr.rdsfl.injEq, field_eq_iff, encode_rdsfl_toNat]; omega
  | rdsfs gr ch band win =>
    simp only [withFieldsOf, Instr.rdsfs.injEq, field_eq_iff, encode_rdsfs_toNat]; omega
  | rdstat => rfl

/-- Opcode, reserved zeros and fields are all the bits of a word. -/
theorem encode_withFieldsOf {w : Word} {i : Instr} (h : HasFormat w i) :
    encode (withFieldsOf w i) = w := by
  rw [hasFormat_iff] at h
  apply BitVec.eq_of_toNat_eq
  cases i with
  | readbit =>
    simp only [operandBits, rowMatch, withFieldsOf, encode_readbit_toNat] at h ⊢
    omega
  | readbits n =>
    simp only [operandBits, rowMatch, withFieldsOf, encode_readbits_toNat, field_toNat] at h ⊢
    omega
  | position =>
    simp only [operandBits, rowMatch, withFieldsOf, encode_position_toNat] at h ⊢
    omega
  | seek p =>
    simp only [operandBits, rowMatch, withFieldsOf, encode_seek_toNat, field_toNat] at h ⊢
    omega
  | refill size beg =>
    simp only [operandBits, rowMatch, withFieldsOf, encode_refill_toNat, field_toNat] at h ⊢
    omega
  | sfdecode gr ch =>
    simp only [operandBits, rowMatch, withFieldsOf, encode_sfdecode_toNat, field_toNat] at h ⊢
    omega
  | wrsi addr data =>
    simp only [operandBits, rowMatch, withFieldsOf, encode_wrsi_toNat, field_toNat] at h ⊢
    omega
  | rdsfl gr ch band =>
    simp only [operandBits, rowMatch, withFieldsOf, encode_rdsfl_toNat, field_toNat] at h ⊢
    omega
  | rdsfs gr ch band win =>
    simp only [operandBits, rowMatch, withFieldsOf, encode_rdsfs_toNat, field_toNat] at h ⊢
    omega
  | rdstat =>
    simp only [operandBits, rowMatch, withFieldsOf, encode_rdstat_toNat] at h ⊢
    omega

/-- Settles O2: a command's word has its format, and the command's operands in the fields. -/
theorem decodeUndoesEncode : Obligations.DecodeUndoesEncode := fun i =>
  decode_eq_ok_iff.mpr ⟨encode_hasFormat i, withFieldsOf_encode i⟩

/-- Settles O3: the operands of the decoded command are the fields of the word. -/
theorem encodeUndoesDecode : Obligations.EncodeUndoesDecode := by
  intro w i h
  obtain ⟨hformat, hfields⟩ := decode_eq_ok_iff.mp h
  have hw := encode_withFieldsOf hformat
  rwa [hfields] at hw

/-- Settles O4: a decoded command is the one with the word's fields as operands. -/
theorem operandsAreTheFieldsOfTheWord : Obligations.OperandsAreTheFieldsOfTheWord := by
  intro w
  refine ⟨fun n h => ?_, fun p h => ?_, fun size beg h => ?_, fun gr ch h => ?_,
    fun addr data h => ?_, fun gr ch band h => ?_, fun gr ch band win h => ?_⟩
  all_goals
    cases withFieldsOf_of_decode h
    simp [field_toNat]

/-- Settles O5, by running the decoder on the ten words. -/
theorem exampleWordsDecode : Obligations.ExampleWordsDecode := by
  unfold Obligations.ExampleWordsDecode
  decide

/-! ### Match and mask -/

/-- Masking with `len` ones from bit `lo` up keeps that field and clears the rest. -/
theorem toNat_and_ones (w : Word) {lo len : Nat} (h : lo + len ≤ 32) :
    (w &&& BitVec.ofNat 32 ((2 ^ len - 1) * 2 ^ lo)).toNat = (field w lo len).toNat * 2 ^ lo := by
  have hlt : (2 ^ len - 1) * 2 ^ lo < 2 ^ 32 := by
    calc (2 ^ len - 1) * 2 ^ lo < 2 ^ len * 2 ^ lo :=
          Nat.mul_lt_mul_of_pos_right (Nat.sub_lt (by positivity) one_pos) (by positivity)
      _ = 2 ^ (lo + len) := by rw [← Nat.pow_add, Nat.add_comm]
      _ ≤ 2 ^ 32 := Nat.pow_le_pow_right (by decide) h
  rw [BitVec.toNat_and, BitVec.toNat_ofNat, Nat.mod_eq_of_lt hlt, field_toNat,
    ← Nat.and_two_pow_sub_one_eq_mod, ← Nat.shiftRight_eq_div_pow, ← Nat.shiftLeft_eq,
    ← Nat.shiftLeft_eq]
  apply Nat.eq_of_testBit_eq
  intro j
  by_cases hj : lo ≤ j <;> simp [Nat.testBit_shiftLeft, hj, Bool.and_comm]

/-- The match and mask of the command's row in R72. -/
def opcodeRow : Instr → Word × Word
  | .readbit => (0x10000000, 0xFFFFFFFF)
  | .readbits _ => (0x20000000, 0xFFFFFFC0)
  | .position => (0x30000000, 0xFFFFFFFF)
  | .seek _ => (0x40000000, 0xFFFF8000)
  | .refill _ _ => (0x50000000, 0xFF000000)
  | .sfdecode _ _ => (0x60000000, 0xFFFFFFFC)
  | .wrsi _ _ => (0x70000000, 0xFFFFF800)
  | .rdsfl _ _ _ => (0x80000000, 0xFFFFFF80)
  | .rdsfs _ _ _ _ => (0x90000000, 0xFFFFFF00)
  | .rdstat => (0xA0000000, 0xFFFFFFFF)

theorem opcodeRow_withFieldsOf (w : Word) (i : Instr) :
    opcodeRow (withFieldsOf w i) = opcodeRow i := by cases i <;> rfl

theorem opcodeRow_match (i : Instr) : (opcodeRow i).1.toNat = rowMatch i := by
  cases i <;> rfl

/-- A mask is 0 at the operand bits and 1 above. -/
theorem opcodeRow_mask (i : Instr) :
    (opcodeRow i).2 = BitVec.ofNat 32 ((2 ^ (32 - operandBits i) - 1) * 2 ^ operandBits i) := by
  cases i <;> simp only [opcodeRow, operandBits] <;> decide

theorem opcodeRows_eq : opcodeRows =
    [opcodeRow .readbit, opcodeRow (.readbits 0), opcodeRow .position, opcodeRow (.seek 0),
      opcodeRow (.refill 0 0), opcodeRow (.sfdecode 0 0), opcodeRow (.wrsi 0 0),
      opcodeRow (.rdsfl 0 0 0), opcodeRow (.rdsfs 0 0 0 0), opcodeRow .rdstat] := rfl

theorem mem_opcodeRows_iff {row : Word × Word} : row ∈ opcodeRows ↔ ∃ i, opcodeRow i = row := by
  constructor
  · intro h
    simp only [opcodeRows_eq, List.mem_cons, List.not_mem_nil, or_false] at h
    rcases h with h | h | h | h | h | h | h | h | h | h <;> exact ⟨_, h.symm⟩
  · rintro ⟨i, rfl⟩
    cases i <;> simp [opcodeRow, opcodeRows]

/-- R72 against R70 and R74: a word selects a row when it has that command's format. -/
theorem selects_iff_hasFormat {w : Word} {i : Instr} :
    w &&& (opcodeRow i).2 = (opcodeRow i).1 ↔ HasFormat w i := by
  have hk := operandBits_le i
  have hfield : (field w (operandBits i) (32 - operandBits i)).toNat = w.toNat / 2 ^ operandBits i := by
    rw [field_toNat, Nat.mod_eq_of_lt]
    rw [Nat.div_lt_iff_lt_mul (by positivity), ← Nat.pow_add, Nat.sub_add_cancel (by omega)]
    exact w.isLt
  rw [hasFormat_iff, ← hfield, ← toNat_and_ones w (by omega), ← opcodeRow_mask, ← opcodeRow_match,
    BitVec.toNat_inj]

theorem decode_of_selects {w : Word} (i : Instr) (h : w &&& (opcodeRow i).2 = (opcodeRow i).1) :
    decode w = .ok (withFieldsOf w i) :=
  decode_of_hasFormat (selects_iff_hasFormat.mp h)

theorem selects_of_decode {w : Word} {i : Instr} (h : decode w = .ok i) :
    w &&& (opcodeRow i).2 = (opcodeRow i).1 :=
  selects_iff_hasFormat.mpr (decode_eq_ok_iff.mp h).1

theorem no_row_iff_error {w : Word} :
    (∀ row ∈ opcodeRows, w &&& row.2 ≠ row.1) ↔ ∃ e, decode w = .error e := by
  constructor
  · intro h
    cases hd : decode w with
    | error e => exact ⟨e, rfl⟩
    | ok i => exact absurd (selects_of_decode hd) (h _ (mem_opcodeRows_iff.mpr ⟨i, rfl⟩))
  · rintro ⟨e, he⟩ row hrow hsel
    obtain ⟨i, rfl⟩ := mem_opcodeRows_iff.mp hrow
    rw [decode_of_selects i hsel] at he
    cases he

/-- The rows are disjoint (R72, R75). -/
theorem existsUnique_row_of_decode {w : Word} {i : Instr} (h : decode w = .ok i) :
    ∃! row, row ∈ opcodeRows ∧ w &&& row.2 = row.1 := by
  refine ⟨opcodeRow i, ⟨mem_opcodeRows_iff.mpr ⟨i, rfl⟩, selects_of_decode h⟩, ?_⟩
  rintro row ⟨hrow, hsel⟩
  obtain ⟨j, rfl⟩ := mem_opcodeRows_iff.mp hrow
  obtain rfl : withFieldsOf w j = i := by
    rw [decode_of_selects j hsel] at h
    exact Except.ok.inj h
  exact (opcodeRow_withFieldsOf w j).symm

theorem reservedMask_opcodeOf (i : Instr) :
    reservedMask (opcodeOf i) = BitVec.ofNat 32
      ((2 ^ (28 - operandBits i) - 1) * 2 ^ operandBits i) := by
  cases i <;> simp only [opcodeOf, operandBits] <;> decide

/-- With an opcode of R72, a set reserved bit is what makes a word illegal (R74). -/
theorem reserved_ne_zero_iff_error {w : Word} {i : Instr} (h : w.toNat / 2 ^ 28 = opcodeOf i) :
    w &&& reservedMask (w.toNat / 2 ^ 28) ≠ 0 ↔ ∃ e, decode w = .error e := by
  have hk := operandBits_le i
  have hmask : w &&& reservedMask (w.toNat / 2 ^ 28) = 0
      ↔ field w (operandBits i) (28 - operandBits i) = 0 := by
    rw [h, reservedMask_opcodeOf, ← BitVec.toNat_inj, toNat_and_ones w (by omega),
      ← BitVec.toNat_inj]
    simp
  rw [Ne, hmask, decode_of_opcode ((field_opcode_toNat w).trans h), ifReservedZero]
  split
  case isTrue h0 => simp [h0]
  case isFalse h0 => simp only [h0, not_false_iff, true_iff]; exact ⟨_, rfl⟩

/-- Settles O1: each row is the format its command is decoded by. -/
theorem opcodeMapSelectsTheRow : Obligations.OpcodeMapSelectsTheRow := by
  intro w
  refine ⟨⟨decode_of_selects .readbit, selects_of_decode⟩,
    ⟨fun h => ⟨_, decode_of_selects (.readbits 0) h⟩, fun ⟨_, h⟩ => selects_of_decode h⟩,
    ⟨decode_of_selects .position, selects_of_decode⟩,
    ⟨fun h => ⟨_, decode_of_selects (.seek 0) h⟩, fun ⟨_, h⟩ => selects_of_decode h⟩,
    ⟨fun h => ⟨_, _, decode_of_selects (.refill 0 0) h⟩, fun ⟨_, _, h⟩ => selects_of_decode h⟩,
    ⟨fun h => ⟨_, _, decode_of_selects (.sfdecode 0 0) h⟩, fun ⟨_, _, h⟩ => selects_of_decode h⟩,
    ⟨fun h => ⟨_, _, decode_of_selects (.wrsi 0 0) h⟩, fun ⟨_, _, h⟩ => selects_of_decode h⟩,
    ⟨fun h => ⟨_, _, _, decode_of_selects (.rdsfl 0 0 0) h⟩,
      fun ⟨_, _, _, h⟩ => selects_of_decode h⟩,
    ⟨fun h => ⟨_, _, _, _, decode_of_selects (.rdsfs 0 0 0 0) h⟩,
      fun ⟨_, _, _, _, h⟩ => selects_of_decode h⟩,
    ⟨decode_of_selects .rdstat, selects_of_decode⟩, no_row_iff_error⟩

/-! ### What the step makes of a word -/

theorem step_of_error {s : State} {w : Word} {rest : List PortEvent} {e : DecodeError}
    (he : s.events = .command w :: rest) (hd : decode w = .error e) :
    step s = .next (s.complete .illegalCommand 0) := by
  simp [step, he, hd]

/-- An illegal word is answered with IllegalCommand(0) and changes the flags only (R74, R75). -/
theorem illegal_of_error {s : State} {w : Word} {rest : List PortEvent}
    (he : s.events = .command w :: rest) (hd : ∃ e, decode w = .error e) :
    ∃ t, step s = .next t ∧ Completed s t .illegalCommand 0 ∧ OnlyFlags s t
      ∧ t.source = s.source := by
  obtain ⟨e, hd⟩ := hd
  exact ⟨_, step_of_error he hd, s.completed _ _, s.complete_onlyFlags _ _, rfl⟩

/-- Settles O6, by the decoder's arm for the opcode. -/
theorem reservedBitsAreIllegal : Obligations.ReservedBitsAreIllegal := by
  intro s w rest he h1 hA
  obtain ⟨i, hi⟩ := exists_opcodeOf h1 hA
  have hiff := reserved_ne_zero_iff_error hi.symm
  exact ⟨hiff.trans no_row_iff_error.symm, fun h => illegal_of_error he (hiff.mp h)⟩

/-- Settles O7: a reserved opcode is no arm of the decoder, and a decoded command has one row. -/
theorem reservedOpcodesAreIllegal : Obligations.ReservedOpcodesAreIllegal := by
  intro s w rest he
  have hop : ∀ v : Word, v.toNat / 2 ^ 28 = 0 ∨ 0xB ≤ v.toNat / 2 ^ 28 →
      ∃ e, decode v = .error e := by
    intro v hv
    rw [← field_opcode_toNat] at hv
    exact ⟨_, decode_of_reservedOpcode (by omega)⟩
  refine ⟨fun h => illegal_of_error he (hop w h), fun h => illegal_of_error he (hop w ?_), ?_⟩
  · rcases h with rfl | rfl <;> decide
  · cases hd : decode w with
    | ok i => exact .inl (existsUnique_row_of_decode hd)
    | error e => exact .inr (illegal_of_error he ⟨e, hd⟩)

theorem step_of_abandoned {s : State} {w : Word} {rest : List PortEvent} {i : Instr}
    (he : s.events = .command w :: rest) (hd : decode w = .ok i) (hw : waits i s = true)
    (hr : rest.head? = some .reset) : step s = .next s.abandon := by
  simp [step, he, hd, hw, hr]

/-- A command that completes does not wait, so no reset behind it can abandon it. -/
theorem step_of_completed {s t : State} {w : Word} {rest : List PortEvent} {i : Instr}
    {code : ResultCode} {data : Word} (he : s.events = .command w :: rest) (hd : decode w = .ok i)
    (hx : exec i s = .next t) (hc : Completed s t code data) : step s = .next t := by
  rw [← hx]
  refine (stepRunsTheDecodedCommand s).1 w rest i he hd fun hw => ?_
  rw [(exec_of_waits i s hw.1).2] at hx
  cases hx
  simpa using hc.responses

/-- Settles O52: the one stop of a command needs `top > C`, which the invariant excludes. -/
theorem everyStepHasANextStateInSafeStates : Obligations.EveryStepHasANextStateInSafeStates := by
  intro s hs
  cases he : s.events with
  | nil => exact ⟨s, (stepRunsTheDecodedCommand s).2 he⟩
  | cons event rest =>
    cases event with
    | reset => exact ⟨_, step_of_reset he⟩
    | command w =>
      cases hd : decode w with
      | error e => exact ⟨_, step_of_error he hd⟩
      | ok i =>
        by_cases hw : waits i s = true ∧ rest.head? = some .reset
        · exact ⟨_, step_of_abandoned he hd hw.1 hw.2⟩
        · rw [(stepRunsTheDecodedCommand s).1 w rest i he hd hw]
          rcases exec_nextOrMissing i s with hnext | ⟨-, htop⟩
          · exact hnext
          · exact absurd hs.top_le (by omega)

/-! ### Operands out of range -/

/-- The command's own check of WRSI's operands is the range of R73. -/
theorem wrsiAccepts_eq (addr : BitVec 3) (data : BitVec 8) :
    wrsiAccepts addr data = (Instr.wrsi addr data).wellFormed := by
  have hdata : data.extractLsb' 4 4 = 0 ↔ data.toNat ≤ 15 := by
    rw [← BitVec.toNat_inj, BitVec.extractLsb'_toNat, Nat.shiftRight_eq_div_pow]
    have := data.isLt
    simp only [BitVec.ofNat_eq_ofNat, BitVec.toNat_ofNat]
    omega
  simp only [wrsiAccepts, Instr.wellFormed, hdata, Nat.lt_succ_iff]

/-- An operand out of range: BadOperand before anything else the command does (R76). -/
theorem exec_of_not_wellFormed {i : Instr} (s : State) (h : i.wellFormed = false) :
    exec i s = .next (s.complete .badOperand 0) := by
  cases i with
  | readbits n => exact if_neg (ne_true_of_eq_false h)
  | wrsi addr data => exact if_neg (ne_true_of_eq_false ((wrsiAccepts_eq addr data).trans h))
  | rdsfl gr ch band => exact if_neg (ne_true_of_eq_false h)
  | rdsfs gr ch band win => exact if_neg (ne_true_of_eq_false h)
  | readbit => cases h
  | position => cases h
  | seek p => cases h
  | refill size beg => cases h
  | sfdecode gr ch => cases h
  | rdstat => cases h

/-- A command that has a BadOperand check passes it with operands in range. -/
theorem lastResult_ne_badOperand {i : Instr} {s t : State} (hi : .badOperand ∈ possibleCodes i)
    (hw : i.wellFormed = true) (h : exec i s = .next t) : t.lastResult ≠ .badOperand := by
  cases i with
  | readbits n =>
    have hacc : readbitsAccepts n = true := hw
    simp only [exec, execReadbits, hacc, if_true] at h
    split at h
    · cases h; nofun
    · split at h <;> cases h <;> nofun
  | wrsi addr data =>
    simp only [exec, execWrsi, wrsiAccepts_eq, hw, if_true] at h
    cases h; nofun
  | rdsfl gr ch band =>
    have hacc : rdsflAccepts band = true := hw
    simp only [exec, execRdsfl, hacc, if_true] at h
    cases h; nofun
  | rdsfs gr ch band win =>
    have hacc : rdsfsAccepts band win = true := hw
    simp only [exec, execRdsfs, hacc, if_true] at h
    cases h; nofun
  | readbit => simp [possibleCodes] at hi
  | position => simp [possibleCodes] at hi
  | seek p => simp [possibleCodes] at hi
  | refill size beg => simp [possibleCodes] at hi
  | sfdecode gr ch => simp [possibleCodes] at hi
  | rdstat => simp [possibleCodes] at hi

theorem exec_ne_badOperand {i : Instr} {s t : State} (hw : i.wellFormed = true)
    (h : exec i s = .next t) (data : Word) : t.responses ≠ s.responses ++ [⟨.badOperand, data⟩] := by
  intro hr
  cases exec_effect i s t h with
  | raised code hcode hi =>
    obtain ⟨rfl, -⟩ : code = .badOperand ∧ 0 = data := by simpa using hr
    exact lastResult_ne_badOperand hi hw h rfl
  | sourceFailed size beg hi code data rest hcode =>
    rcases hcode with ⟨rfl, -⟩ | ⟨rfl, -⟩ <;> simp at hr
  | _ => simp at hr

theorem exec_refill_tooLarge {s : State} {size : BitVec 12} (beg : BitVec 12)
    (h : s.cfg.maxSize < size.toNat) :
    exec (.refill size beg) s = .next (s.complete .mainDataTooLarge 0) := by
  simp [exec, execRefill, State.refillPath, h]

/-- Settles O8: the decoder's two errors, then the command's own checks. -/
theorem outOfRangeOperandsAreBadOperand : Obligations.OutOfRangeOperandsAreBadOperand := by
  intro s w rest he
  refine ⟨fun e hd => ⟨_, step_of_error he hd, s.completed _ _⟩, fun i hd => ⟨?_, ?_, ?_⟩⟩
  · intro hw
    exact ⟨_, step_of_completed he hd (exec_of_not_wellFormed s hw) (s.completed _ _),
      s.completed _ _, s.complete_onlyFlags _ _, rfl⟩
  · intro hw t h data hr
    by_cases hwait : waits i s = true ∧ rest.head? = some .reset
    · rw [step_of_abandoned he hd hwait.1 hwait.2] at h
      cases h
      simp at hr
    · rw [(stepRunsTheDecodedCommand s).1 w rest i he hd hwait] at h
      exact exec_ne_badOperand hw h data hr
  · rintro size beg rfl
    exact ⟨rfl, fun hsize => ⟨_, step_of_completed he hd (exec_refill_tooLarge beg hsize)
      (s.completed _ _), s.completed _ _⟩⟩

/-! ### The side-information registers -/

@[simp] theorem State.complete_gc (s : State) (code : ResultCode) (data : Word) (gr ch : BitVec 1) :
    (s.complete code data).gc gr ch = s.gc gr ch := rfl

@[simp] theorem State.complete_scfsi (s : State) (code : ResultCode) (data : Word) (ch : BitVec 1) :
    (s.complete code data).scfsi ch = s.scfsi ch := rfl

theorem siIndex_le (gr ch : BitVec 1) : siIndex gr ch ≤ 3 := by
  have := gr.isLt
  have := ch.isLt
  unfold siIndex; omega

/-- Each register `SI_GC` has one place (R31). -/
theorem siIndex_inj (gr ch gr' ch' : BitVec 1) :
    siIndex gr ch = siIndex gr' ch' ↔ gr = gr' ∧ ch = ch' := by
  have := ch.isLt
  have := ch'.isLt
  unfold siIndex
  rw [BitVec.toNat_eq, BitVec.toNat_eq]
  omega

/-- Reading `SI_GC` after a write to it (R161, R162). -/
theorem State.gc_setSideInfo (s : State) (gr ch gr' ch' : BitVec 1) (data : BitVec 8) :
    (s.setSideInfo (siIndex gr ch) data).gc gr' ch'
      = if gr = gr' ∧ ch = ch' then data else s.gc gr' ch' := by
  have hle := siIndex_le gr ch
  unfold State.setSideInfo State.gc
  rw [if_pos hle]
  simp only [Vector.getElem?_setIfInBounds, siIndex_inj, show siIndex gr ch < 4 by omega, if_true]
  split <;> rfl

/-- Reading `SI_SCFSI` after a write to it (R161, R162). -/
theorem State.scfsi_setSideInfo (s : State) (ch ch' : BitVec 1) (data : BitVec 8) :
    (s.setSideInfo (4 + ch.toNat) data).scfsi ch'
      = if ch = ch' then data.extractLsb' 0 4 else s.scfsi ch' := by
  unfold State.setSideInfo State.scfsi
  rw [if_neg (by omega)]
  simp only [Vector.getElem?_setIfInBounds, Nat.add_sub_cancel_left, BitVec.toNat_inj, ch.isLt,
    if_true]
  split <;> rfl

theorem State.setSideInfo_siSCFSI (s : State) {addr : Nat} (data : BitVec 8) (h : addr ≤ 3) :
    (s.setSideInfo addr data).siSCFSI = s.siSCFSI := by
  unfold State.setSideInfo; rw [if_pos h]

theorem State.setSideInfo_siGC (s : State) {addr : Nat} (data : BitVec 8) (h : 3 < addr) :
    (s.setSideInfo addr data).siGC = s.siGC := by
  unfold State.setSideInfo; rw [if_neg (by omega)]

theorem exec_wrsi_of_wellFormed {addr : BitVec 3} {data : BitVec 8} (s : State)
    (h : (Instr.wrsi addr data).wellFormed = true) :
    exec (.wrsi addr data) s = .next ((s.setSideInfo addr.toNat data).complete .ok 0) := by
  simp [exec, execWrsi, wrsiAccepts_eq, h]

/-! ### The pseudo-commands -/

/-- The data byte of WRGC: the fields of R31, `mx` at the top (R80). -/
def gcByte (sc : BitVec 4) (ws : BitVec 1) (bt : BitVec 2) (mx : BitVec 1) : BitVec 8 :=
  mx.setWidth 8 <<< 7 ||| bt.setWidth 8 <<< 5 ||| ws.setWidth 8 <<< 4 ||| sc.setWidth 8

/-- The data byte of WRSCFSI: the flags of R32, `s3` at the top (R80). -/
def scfsiByte (s0 s1 s2 s3 : BitVec 1) : BitVec 8 :=
  s3.setWidth 8 <<< 3 ||| s2.setWidth 8 <<< 2 ||| s1.setWidth 8 <<< 1 ||| s0.setWidth 8

theorem gcByte_fields (sc : BitVec 4) (ws : BitVec 1) (bt : BitVec 2) (mx : BitVec 1) :
    scalefacCompress (gcByte sc ws bt mx) = sc ∧ windowSwitchFlag (gcByte sc ws bt mx) = ws
      ∧ blockType (gcByte sc ws bt mx) = bt ∧ mixedBlockFlag (gcByte sc ws bt mx) = mx := by
  refine ⟨?_, ?_, ?_, ?_⟩
  all_goals
    ext j hj
    interval_cases j <;>
      simp [scalefacCompress, windowSwitchFlag, blockType, mixedBlockFlag, gcByte]

theorem scfsiByte_flags : ∀ s0 s1 s2 s3 : BitVec 1,
    (scfsiByte s0 s1 s2 s3).toNat ≤ 15
      ∧ (scfsiFlag ((scfsiByte s0 s1 s2 s3).extractLsb' 0 4) 0 = true ↔ s0 = 1)
      ∧ (scfsiFlag ((scfsiByte s0 s1 s2 s3).extractLsb' 0 4) 1 = true ↔ s1 = 1)
      ∧ (scfsiFlag ((scfsiByte s0 s1 s2 s3).extractLsb' 0 4) 2 = true ↔ s2 = 1)
      ∧ (scfsiFlag ((scfsiByte s0 s1 s2 s3).extractLsb' 0 4) 3 = true ↔ s3 = 1) := by
  decide

theorem exec_pseudoWrgc (s : State) (gr ch : BitVec 1) (sc : BitVec 4) (ws : BitVec 1)
    (bt : BitVec 2) (mx : BitVec 1) :
    exec (pseudoWrgc gr ch sc ws bt mx) s
      = .next ((s.setSideInfo (siIndex gr ch) (gcByte sc ws bt mx)).complete .ok 0) := by
  have hle := siIndex_le gr ch
  have haddr : (BitVec.ofNat 3 (siIndex gr ch)).toNat = siIndex gr ch := by
    rw [BitVec.toNat_ofNat]; omega
  have hw : (Instr.wrsi (BitVec.ofNat 3 (siIndex gr ch)) (gcByte sc ws bt mx)).wellFormed = true := by
    simp only [Instr.wellFormed, haddr, Bool.and_eq_true, Bool.or_eq_true, decide_eq_true_eq]
    omega
  exact haddr ▸ exec_wrsi_of_wellFormed s hw

theorem exec_pseudoWrscfsi (s : State) (ch s0 s1 s2 s3 : BitVec 1) :
    exec (pseudoWrscfsi ch s0 s1 s2 s3) s
      = .next ((s.setSideInfo (4 + ch.toNat) (scfsiByte s0 s1 s2 s3)).complete .ok 0) := by
  have hch := ch.isLt
  have hdata := (scfsiByte_flags s0 s1 s2 s3).1
  have haddr : (BitVec.ofNat 3 (4 + ch.toNat)).toNat = 4 + ch.toNat := by
    rw [BitVec.toNat_ofNat]; omega
  have hw : (Instr.wrsi (BitVec.ofNat 3 (4 + ch.toNat)) (scfsiByte s0 s1 s2 s3)).wellFormed = true := by
    simp only [Instr.wellFormed, haddr, Bool.and_eq_true, Bool.or_eq_true, decide_eq_true_eq]
    omega
  exact haddr ▸ exec_wrsi_of_wellFormed s hw

/-- Settles O58: both expansions are an accepted WRSI, whose data byte holds each argument in its field. -/
theorem pseudoCommandsWriteTheirFields : Obligations.PseudoCommandsWriteTheirFields := by
  intro s gr ch
  refine ⟨fun sc ws bt mx => ?_, fun s0 s1 s2 s3 => ?_⟩
  · obtain ⟨hsc, hws, hbt, hmx⟩ := gcByte_fields sc ws bt mx
    have hgc : (s.setSideInfo (siIndex gr ch) (gcByte sc ws bt mx)).gc gr ch = gcByte sc ws bt mx := by
      simp [State.gc_setSideInfo]
    refine ⟨_, exec_pseudoWrgc s gr ch sc ws bt mx, s.completed_of_same _ .ok 0, ?_⟩
    simp only [State.complete_gc, State.complete_siSCFSI, hgc]
    refine ⟨hsc, hws, hbt, hmx, fun gr' ch' hne => ?_, s.setSideInfo_siSCFSI _ (siIndex_le gr ch)⟩
    rw [State.gc_setSideInfo, if_neg]
    rintro ⟨rfl, rfl⟩
    exact hne rfl
  · obtain ⟨-, h0, h1, h2, h3⟩ := scfsiByte_flags s0 s1 s2 s3
    refine ⟨_, exec_pseudoWrscfsi s ch s0 s1 s2 s3, s.completed_of_same _ .ok 0, ?_⟩
    simp only [State.complete_scfsi, State.complete_siGC, State.scfsi_setSideInfo, if_true]
    exact ⟨h0, h1, h2, h3, fun ch' hne => if_neg fun he => hne he.symm,
      s.setSideInfo_siGC _ (by omega)⟩

end Sys2Proof.Machine
end

section
/-! REFILL (40_reservoir_refill.md): what it does once its checks pass, as one commit for the normal and the underrun
path; which checks refuse it; and how the answers of the byte source decide its Acquire. -/

namespace Sys2Proof.Machine

/-! ### The history a REFILL keeps -/

/-- How many bytes of history a REFILL leaves in front of the fresh ones: `beginBytes`, or on an underrun all there
are (R95, R96). -/
def State.keptBytes (s : State) (beg : BitVec 12) : Nat :=
  if s.top.toNat < beg.toNat then s.top.toNat else beg.toNat

/-- The code of a REFILL that commits (R92, R97). -/
def State.commitCode (s : State) (beg : BitVec 12) : ResultCode :=
  if s.top.toNat < beg.toNat then .frameUndecodable else .ok

/-- The commit of the path that `beginBytes > top` selects (R92). -/
def State.commitRefill (s : State) (beg : BitVec 12) (fresh : List Byte) : State :=
  if s.top.toNat < beg.toNat then s.commitUnderrun fresh else s.commitNormal beg.toNat fresh

@[simp] theorem State.commitRefill_responses (s : State) (beg : BitVec 12) (fresh : List Byte) :
    (s.commitRefill beg fresh).responses = s.responses := by
  unfold State.commitRefill; split <;> rfl

@[simp] theorem State.commitRefill_events (s : State) (beg : BitVec 12) (fresh : List Byte) :
    (s.commitRefill beg fresh).events = s.events := by
  unfold State.commitRefill; split <;> rfl

@[simp] theorem State.commitRefill_cfg (s : State) (beg : BitVec 12) (fresh : List Byte) :
    (s.commitRefill beg fresh).cfg = s.cfg := by
  unfold State.commitRefill; split <;> rfl

@[simp] theorem State.commitRefill_guardFault (s : State) (beg : BitVec 12) (fresh : List Byte) :
    (s.commitRefill beg fresh).guardFault = s.guardFault := by
  unfold State.commitRefill; split <;> rfl

section
variable {s : State} {beg : BitVec 12}

theorem State.keptBytes_of_lt (h : s.top.toNat < beg.toNat) : s.keptBytes beg = s.top.toNat := if_pos h

theorem State.keptBytes_of_le (h : beg.toNat ≤ s.top.toNat) : s.keptBytes beg = beg.toNat :=
  if_neg (Nat.not_lt.mpr h)

theorem State.commitCode_of_lt (h : s.top.toNat < beg.toNat) : s.commitCode beg = .frameUndecodable :=
  if_pos h

theorem State.commitCode_of_le (h : beg.toNat ≤ s.top.toNat) : s.commitCode beg = .ok :=
  if_neg (Nat.not_lt.mpr h)

/-- `RefillAdmitted` on the normal path. -/
theorem refillAdmitted_of_le {size : BitVec 12} (hsize : size.toNat ≤ s.cfg.maxSize)
    (hb : beg.toNat ≤ s.top.toNat) (hroom : beg.toNat + size.toNat ≤ s.cfg.capacity)
    (htop : s.top.toNat ≤ s.cfg.capacity) (hcap : s.cfg.capacity ≤ 4095) :
    RefillAdmitted s size beg :=
  ⟨hsize, by rwa [if_neg (Nat.not_lt.mpr hb)], htop, hcap⟩

/-- `RefillAdmitted` on the underrun path. -/
theorem refillAdmitted_of_lt {size : BitVec 12} (hsize : size.toNat ≤ s.cfg.maxSize)
    (hb : s.top.toNat < beg.toNat) (hroom : s.top.toNat + size.toNat ≤ s.cfg.capacity)
    (hcap : s.cfg.capacity ≤ 4095) : RefillAdmitted s size beg :=
  ⟨hsize, by rwa [if_pos hb], by omega, hcap⟩

end

/-! ### The checks -/

section
variable {s : State} {size beg : BitVec 12}

theorem State.refillPath_overflow (hsize : size.toNat ≤ s.cfg.maxSize)
    (hover : s.cfg.capacity < s.keptBytes beg + size.toNat) :
    s.refillPath size.toNat beg.toNat = .overflow := by
  unfold State.refillPath
  rw [if_neg (Nat.not_lt.mpr hsize)]
  by_cases hb : s.top.toNat < beg.toNat
  · rw [State.keptBytes_of_lt hb] at hover
    rw [if_pos hb, if_pos hover]
  · rw [State.keptBytes_of_le (Nat.not_lt.mp hb)] at hover
    rw [if_neg hb, if_pos hover]

theorem exec_refill_overflow (hsize : size.toNat ≤ s.cfg.maxSize)
    (hover : s.cfg.capacity < s.keptBytes beg + size.toNat) :
    exec (.refill size beg) s = .next (s.complete .reservoirOverflow 0) := by
  simp [exec, execRefill, State.refillPath_overflow hsize hover]

section
variable (hsize : size.toNat ≤ s.cfg.maxSize) (hroom : s.keptBytes beg + size.toNat ≤ s.cfg.capacity)
  (htop : s.top.toNat ≤ s.cfg.capacity)
include hsize hroom htop

theorem State.refillPath_of_checks :
    s.refillPath size.toNat beg.toNat
      = if s.top.toNat < beg.toNat then .underrun else .normal := by
  split
  · next hb => exact s.refillPath_underrun _ _ hsize hb (State.keptBytes_of_lt hb ▸ hroom)
  · next hb =>
    rw [Nat.not_lt] at hb
    exact s.refillPath_normal _ _ hsize hb (State.keptBytes_of_le hb ▸ hroom) htop

/-- Past its checks a REFILL is one Acquire and the commit of its path (R92): an Acquire leaves `top` alone, so the
path chosen before it is the one the commit takes. -/
theorem exec_refill_of_checks :
    exec (.refill size beg) s
      = s.acquireThen size.toNat (fun fresh t => t.commitRefill beg fresh) (s.commitCode beg) := by
  show execRefill size beg s = _
  unfold execRefill State.acquireThen
  rw [State.refillPath_of_checks hsize hroom htop]
  by_cases hb : s.top.toNat < beg.toNat <;>
    cases acquire size.toNat s.source <;> simp [State.commitRefill, State.commitCode, hb]

theorem waits_refill_of_checks :
    waits (.refill size beg) s = decide (acquire size.toNat s.source = .waiting) := by
  unfold waits
  simp only [State.refillPath_of_checks hsize hroom htop]
  by_cases hb : s.top.toNat < beg.toNat <;> simp [hb]

end

theorem exec_refill_of_admitted (h : RefillAdmitted s size beg) :
    exec (.refill size beg) s
      = s.acquireThen size.toNat (fun fresh t => t.commitRefill beg fresh) (s.commitCode beg) := by
  obtain ⟨hsize, hroom, htop, -⟩ := h
  exact exec_refill_of_checks hsize hroom htop

/-! ### What follows a satisfied and a failed Acquire -/

/-- What a REFILL that commits leaves: the last `kept` valid bytes and the fresh ones after them, bytes from the new
`top` on as before, the cursor at (0, 0), tables and side information unchanged (R95, R96). -/
structure RefillCommitted (s t : State) (kept : Nat) (fresh : List Byte) (rest : List PullAnswer) :
    Prop where
  kept_le : kept ≤ s.top.toNat
  contents : t.contents = s.contents.drop (s.top.toNat - kept) ++ fresh
  beyond : ∀ a, kept + fresh.length ≤ a → t.buf.read a = s.buf.read a
  top : t.top.toNat = kept + fresh.length
  bytePos : t.bytePos = 0
  bitIdx : t.bitIdx = 0
  tables : SameTables s t
  sideInfo : SameSideInfo s t
  source : t.source = rest

theorem State.commitNormal_committed {n : Nat} {fresh : List Byte} (rest : List PullAnswer)
    (hn : n ≤ s.top.toNat) (hroom : n + fresh.length ≤ s.cfg.capacity) (hcap : s.cfg.capacity ≤ 4095) :
    RefillCommitted s ({ s with source := rest }.commitNormal n fresh) n fresh rest where
  kept_le := hn
  contents := State.contents_commitNormal (s := { s with source := rest }) hn hroom hcap
  beyond a ha := by
    rw [State.commitNormal_buf, Memory.read_writeBytes, if_neg]
    rw [List.length_append, Memory.length_readBytes]; omega
  top := toNat_ofNat_of_le_capacity hroom hcap
  bytePos := rfl
  bitIdx := rfl
  tables := ⟨rfl, rfl⟩
  sideInfo := ⟨rfl, rfl⟩
  source := rfl

/-- The underrun keeps all the valid bytes (R96). -/
theorem State.commitUnderrun_committed {fresh : List Byte} (rest : List PullAnswer)
    (hroom : s.top.toNat + fresh.length ≤ s.cfg.capacity) (hcap : s.cfg.capacity ≤ 4095) :
    RefillCommitted s ({ s with source := rest }.commitUnderrun fresh) s.top.toNat fresh rest where
  kept_le := le_rfl
  contents := by
    rw [Nat.sub_self, List.drop_zero]
    exact State.contents_commitUnderrun (s := { s with source := rest }) hroom hcap
  beyond a ha := by
    rw [State.commitUnderrun_buf, Memory.read_writeBytes, if_neg]
    dsimp only; omega
  top := toNat_ofNat_of_le_capacity hroom hcap
  bytePos := rfl
  bitIdx := rfl
  tables := ⟨rfl, rfl⟩
  sideInfo := ⟨rfl, rfl⟩
  source := rfl

theorem State.commitRefill_committed {fresh : List Byte} (rest : List PullAnswer)
    (hroom : s.keptBytes beg + fresh.length ≤ s.cfg.capacity) (hcap : s.cfg.capacity ≤ 4095) :
    RefillCommitted s ({ s with source := rest }.commitRefill beg fresh) (s.keptBytes beg) fresh rest := by
  unfold State.commitRefill State.keptBytes at *
  split at hroom
  · next hb => simpa only [if_pos hb] using State.commitUnderrun_committed rest hroom hcap
  · next hb =>
    simpa only [if_neg hb] using State.commitNormal_committed rest (Nat.not_lt.mp hb) hroom hcap

theorem RefillCommitted.complete {t : State} {kept : Nat} {fresh : List Byte} {rest : List PullAnswer}
    (h : RefillCommitted s t kept fresh rest) (code : ResultCode) (data : Word) :
    RefillCommitted s (t.complete code data) kept fresh rest :=
  { h with
    tables := ⟨h.tables.long, h.tables.short⟩
    sideInfo := ⟨h.sideInfo.gc, h.sideInfo.scfsi⟩ }

/-- The Acquire is satisfied: REFILL commits (R95, R96). -/
theorem exec_refill_commits (h : RefillAdmitted s size beg) {fresh : List Byte} {rest : List PullAnswer}
    (hacq : acquire size.toNat s.source = .done fresh rest) :
    ∃ t, exec (.refill size beg) s = .next t ∧ Completed s t (s.commitCode beg) 0
      ∧ RefillCommitted s t (s.keptBytes beg) fresh rest := by
  obtain ⟨hlen, -⟩ := acquire_done _ _ _ _ hacq
  have ⟨_, hroom, _, hcap⟩ := h
  refine ⟨({ s with source := rest }.commitRefill beg fresh).complete (s.commitCode beg) 0, ?_,
    s.completed_of_same _ _ 0, (State.commitRefill_committed rest (hlen ▸ hroom) hcap).complete _ _⟩
  rw [exec_refill_of_admitted h, State.acquireThen, hacq]

theorem exec_refill_normal (h : RefillAdmitted s size beg) (hb : beg.toNat ≤ s.top.toNat)
    {fresh : List Byte} {rest : List PullAnswer}
    (hacq : acquire size.toNat s.source = .done fresh rest) :
    ∃ t, exec (.refill size beg) s = .next t ∧ Completed s t .ok 0
      ∧ RefillCommitted s t beg.toNat fresh rest := by
  rw [← State.commitCode_of_le hb, ← State.keptBytes_of_le hb]
  exact exec_refill_commits h hacq

theorem exec_refill_underrun (h : RefillAdmitted s size beg) (hb : s.top.toNat < beg.toNat)
    {fresh : List Byte} {rest : List PullAnswer}
    (hacq : acquire size.toNat s.source = .done fresh rest) :
    ∃ t, exec (.refill size beg) s = .next t ∧ Completed s t .frameUndecodable 0
      ∧ RefillCommitted s t s.top.toNat fresh rest := by
  rw [← State.commitCode_of_lt hb]
  have hcommits := exec_refill_commits h hacq
  rwa [State.keptBytes_of_lt hb] at hcommits

/-- The Acquire fails: only the flags change, and the source has moved on (R93, R98). -/
theorem exec_refill_sourceFails (h : RefillAdmitted s size beg) {code : ResultCode} {data : Word}
    {rest : List PullAnswer}
    (hacq : code = .unexpectedEndOfStream ∧ data = 0 ∧ acquire size.toNat s.source = .endOfStream rest
      ∨ code = .sourceError ∧ acquire size.toNat s.source = .sourceError data rest) :
    ∃ t, exec (.refill size beg) s = .next t ∧ Completed s t code data ∧ OnlyFlags s t
      ∧ t.source = rest := by
  refine ⟨{ s with source := rest }.complete code data, ?_, s.completed_of_same _ code data,
    ⟨⟨fun _ => rfl, rfl⟩, ⟨rfl, rfl⟩, ⟨rfl, rfl⟩, ⟨rfl, rfl⟩⟩, rfl⟩
  rw [exec_refill_of_admitted h, State.acquireThen]
  rcases hacq with ⟨rfl, rfl, hacq⟩ | ⟨rfl, hacq⟩ <;> rw [hacq] <;> rfl

end

/-- A completion of a command with a code other than OK and FrameUndecodable has changed nothing but the flags
(R96, R200). -/
theorem onlyFlags_of_error {i : Instr} {s t : State} {r : Response} (h : exec i s = .next t)
    (hr : t.responses = s.responses ++ [r]) (hok : r.code ≠ .ok) (hfu : r.code ≠ .frameUndecodable) :
    OnlyFlags s t := by
  cases exec_effect i s t h with
  | raised code _ _ => exact s.complete_onlyFlags code 0
  | sourceFailed _ _ _ _ _ _ _ => exact ⟨⟨fun _ => rfl, rfl⟩, ⟨rfl, rfl⟩, ⟨rfl, rfl⟩, ⟨rfl, rfl⟩⟩
  | waits _ => simp at hr
  | underrun _ _ _ _ _ _ _ _ _ =>
    obtain rfl : ⟨.frameUndecodable, 0⟩ = r := by simpa using hr
    exact absurd rfl hfu
  | _ =>
    obtain rfl : ⟨.ok, _⟩ = r := by simpa using hr
    exact absurd rfl hok

/-! ### The bytes after a commit -/

theorem State.getElem?_contents (s : State) {a : Nat} (h : a < s.top.toNat) :
    s.contents[a]? = some (s.buf.read a) := by
  rw [State.contents, Memory.getElem?_readBytes _ _ _ _ h, Nat.zero_add]

@[simp] theorem State.length_contents (s : State) : s.contents.length = s.top.toNat :=
  Memory.length_readBytes ..

namespace RefillCommitted
variable {s t : State} {kept : Nat} {fresh : List Byte} {rest : List PullAnswer}

theorem length_history (h : RefillCommitted s t kept fresh rest) :
    (s.contents.drop (s.top.toNat - kept)).length = kept := by
  rw [List.length_drop, State.length_contents, Nat.sub_sub_self h.kept_le]

/-- The kept bytes stand at the front (R95, R96). -/
theorem read_kept (h : RefillCommitted s t kept fresh rest) {i : Nat} (hi : i < kept) :
    t.buf.read i = s.buf.read (s.top.toNat - kept + i) := by
  have hle := h.kept_le
  have hget := t.getElem?_contents (a := i) (by rw [h.top]; omega)
  rw [h.contents, List.getElem?_append_left (by rwa [h.length_history]), List.getElem?_drop,
    s.getElem?_contents (by omega)] at hget
  exact (Option.some.inj hget).symm

/-- The fresh bytes stand after the kept ones (R95, R96). -/
theorem read_fresh (h : RefillCommitted s t kept fresh rest) {j : Nat} (hj : j < fresh.length) :
    fresh[j]? = some (t.buf.read (kept + j)) := by
  rw [← t.getElem?_contents (by rw [h.top]; omega), h.contents,
    List.getElem?_append_right (by rw [h.length_history]; omega), h.length_history,
    Nat.add_sub_cancel_left]

/-- With all valid bytes kept every byte outside the fresh ones is as it was (R96). -/
theorem read_underrun (h : RefillCommitted s t s.top.toNat fresh rest) {a : Nat}
    (ha : a < s.top.toNat ∨ s.top.toNat + fresh.length ≤ a) : t.buf.read a = s.buf.read a := by
  rcases ha with ha | ha
  · simpa using h.read_kept ha
  · exact h.beyond a ha

theorem pos_eq (h : RefillCommitted s t kept fresh rest) : t.pos = 0 := by
  rw [State.pos, h.bytePos, h.bitIdx]; rfl

end RefillCommitted

/-! ### The byte source's answers -/

/-- A request for no bytes pulls nothing (R93). -/
@[simp] theorem acquire_zero (source : List PullAnswer) : acquire 0 source = .done [] source := by
  simp [acquire]

/-- Nothing is left to answer and bytes are wanted (R91). -/
theorem acquire_nil {m : Nat} (hm : 0 < m) : acquire m [] = .waiting := by
  obtain ⟨k, rfl⟩ : ∃ k, m = k + 1 := ⟨m - 1, by omega⟩
  simp [acquire]

section
variable {m : Nat} {last : PullAnswer} {after : List PullAnswer}

/-- An error is reported even if its bytes complete the request (R93). -/
theorem acquire_err {e : Word} (hm : 0 < m) (hle : last.bytes.length ≤ m) (hs : last.status = .err e) :
    acquire m (last :: after) = .sourceError e after := by
  obtain ⟨k, rfl⟩ : ∃ k, m = k + 1 := ⟨m - 1, by omega⟩
  simp [acquire, hs, Nat.not_lt.mpr hle]

theorem acquire_end_short (hlt : last.bytes.length < m) (hs : last.status = .endOfStream) :
    acquire m (last :: after) = .endOfStream after := by
  obtain ⟨k, rfl⟩ : ∃ k, m = k + 1 := ⟨m - 1, by omega⟩
  simp [acquire, hs, hlt, hlt.le.not_gt]

/-- An answer that completes the request, the end of the stream or not (R93). -/
theorem acquire_completes (hm : 0 < m) (hlen : last.bytes.length = m)
    (hs : last.status = .more ∨ last.status = .endOfStream) :
    acquire m (last :: after) = .done last.bytes after := by
  obtain ⟨k, rfl⟩ : ∃ k, m = k + 1 := ⟨m - 1, by omega⟩
  rcases hs with hs | hs <;> simp [acquire, hs, hlen, Acquired.after]

end

/-- Answers that signal nothing and hold too few bytes leave the request open (R91). -/
theorem acquire_waiting {m : Nat} {source : List PullAnswer} (hmore : ∀ a ∈ source, a.status = .more)
    (hm : (streamBytes source).length < m) : acquire m source = .waiting := by
  have h := acquire_more m source [] hmore hm
  rwa [List.append_nil, acquire_nil (by omega)] at h

/-! ### The obligations -/

/-- Settles O24: the commit with `beginBytes` bytes kept. -/
theorem refillKeepsHistoryAndAppends : Obligations.RefillKeepsHistoryAndAppends := by
  intro s size beg fresh rest hadm hb hacq
  obtain ⟨t, hexec, hc, ht⟩ := exec_refill_normal hadm hb hacq
  rw [← (acquire_done _ _ _ _ hacq).1]
  exact ⟨t, hexec, hc, fun i => ht.read_kept, fun j => ht.read_fresh, ht.beyond, ht.top, ht.bytePos,
    ht.bitIdx, ht.tables, ht.sideInfo, ht.source⟩

/-- Settles O25: the commit with all `top` bytes kept; an error that commits nothing changes only the flags. -/
theorem underrunAppendsAndReports : Obligations.UnderrunAppendsAndReports := by
  refine ⟨fun s size beg fresh rest hadm hb hacq => ?_, fun i s t r h hr hok hfu => ?_⟩
  · obtain ⟨t, hexec, hc, ht⟩ := exec_refill_underrun hadm hb hacq
    rw [← (acquire_done _ _ _ _ hacq).1]
    exact ⟨t, hexec, hc, fun j => ht.read_fresh, fun a => ht.read_underrun, ht.top, ht.bytePos,
      ht.bitIdx, ht.tables, ht.sideInfo, ht.source⟩
  · have honly := onlyFlags_of_error h hr hok hfu
    exact ⟨honly.reservoir, honly.cursor⟩

/-- Settles O26: the two checks that refuse, and the two failures of the source. -/
theorem failedRefillChangesOnlyTheFlags : Obligations.FailedRefillChangesOnlyTheFlags := by
  intro s size beg
  refine ⟨fun hsize => ?_, fun hsize hover => ?_, fun hadm rest hacq => ?_, fun hadm e rest hacq => ?_⟩
  · exact refuses_of_raise (exec_refill_tooLarge beg hsize)
  · exact refuses_of_raise (exec_refill_overflow hsize hover)
  · exact exec_refill_sourceFails hadm (.inl ⟨rfl, rfl, hacq⟩)
  · exact exec_refill_sourceFails hadm (.inr ⟨rfl, hacq⟩)

/-- Settles O27: the checks in their order, then the four ends of the Acquire. -/
theorem refillReportsByTheOrderOfItsChecks : Obligations.RefillReportsByTheOrderOfItsChecks := by
  intro s t size beg r htop h hr
  by_cases hsize : s.cfg.maxSize < size.toNat
  · rw [exec_refill_tooLarge beg hsize] at h
    cases h
    obtain rfl : ⟨.mainDataTooLarge, 0⟩ = r := by simpa using hr
    exact ⟨if_pos hsize, nofun⟩
  by_cases hover : s.cfg.capacity < s.keptBytes beg + size.toNat
  · rw [exec_refill_overflow (Nat.not_lt.mp hsize) hover] at h
    cases h
    obtain rfl : ⟨.reservoirOverflow, 0⟩ = r := by simpa using hr
    exact ⟨(if_neg hsize).trans (if_pos hover), nofun⟩
  rw [exec_refill_of_checks (Nat.not_lt.mp hsize) (Nat.not_lt.mp hover) htop] at h
  rw [refillCode, if_neg hsize, ← State.keptBytes, if_neg hover]
  rcases State.acquireThen_cases _ _ _ _ _ h with ⟨fresh, rest, hacq, -, rfl⟩ | ⟨e, rest, hacq, rfl⟩
    | ⟨rest, hacq, rfl⟩ | ⟨hacq, rfl⟩
  · obtain rfl : ⟨s.commitCode beg, 0⟩ = r := by simpa using hr
    rw [hacq]
    refine ⟨rfl, fun hb => ?_⟩
    rw [State.commitCode_of_lt hb]; nofun
  · obtain rfl : ⟨.sourceError, e⟩ = r := by simpa using hr
    rw [hacq]
    exact ⟨rfl, nofun⟩
  · obtain rfl : ⟨.unexpectedEndOfStream, 0⟩ = r := by simpa using hr
    rw [hacq]
    exact ⟨rfl, fun _ _ => rfl⟩
  · simp at hr

/-- Settles O28: the gathered answers are put in front of what the deciding answer gives. -/
theorem acquisitionFollowsTheAnswers : Obligations.AcquisitionFollowsTheAnswers := by
  refine ⟨fun s size beg before after last hadm hsrc hmore hlt hle => ?_, fun s beg hadm => ?_⟩
  · have hgather := acquire_more size.toNat before (last :: after) hmore hlt
    rw [← hsrc] at hgather
    refine ⟨fun e hs => ?_, fun hs hshort => ?_, fun hs hfull => ?_⟩
    · rw [acquire_err (by omega) (by omega) hs] at hgather
      exact exec_refill_sourceFails hadm (.inr ⟨rfl, hgather⟩)
    · rw [acquire_end_short (by omega) hs] at hgather
      exact exec_refill_sourceFails hadm (.inl ⟨rfl, rfl, hgather⟩)
    · rw [acquire_completes (by omega) (by omega) hs] at hgather
      obtain ⟨t, hexec, hc, ht⟩ := exec_refill_commits hadm hgather
      exact ⟨t, hexec, hc, ht.source, fun j hj => ht.read_fresh (by rw [List.length_append]; omega)⟩
  · obtain ⟨t, hexec, hc, ht⟩ := exec_refill_commits hadm (acquire_zero s.source)
    exact ⟨t, hexec, hc, ht.source⟩

/-- Settles O31: the underrun leaves all its bytes to the second REFILL, which keeps the end of them. -/
theorem historyIsTrueAfterAnUnderrun : Obligations.HistoryIsTrueAfterAnUnderrun := by
  intro s size beg size' beg' fresh fresh' rest rest' hadm hb hacq hacq' hsize' hb' hroom'
  obtain ⟨t, hexec, hc, ht⟩ := exec_refill_underrun hadm hb hacq
  have htop : t.top.toNat = s.top.toNat + size.toNat := by rw [ht.top, (acquire_done _ _ _ _ hacq).1]
  obtain ⟨-, hroom, -, hcap⟩ := hadm
  rw [if_pos hb, ← htop] at hroom
  rw [← htop] at hb' ⊢
  rw [← hc.config] at hsize' hroom' hroom hcap
  obtain ⟨u, hexec', hc', hu⟩ :=
    exec_refill_normal (refillAdmitted_of_le hsize' hb' hroom' hroom hcap) hb' (ht.source ▸ hacq')
  refine ⟨t, u, hexec, hc, hexec', hc', ?_⟩
  rw [hu.contents, ht.contents, Nat.sub_self, List.drop_zero]

/-- Settles O33: with the Acquire open REFILL is at rest, and no reset behind it abandons it. -/
theorem refillWaitsForTheSource : Obligations.RefillWaitsForTheSource := by
  intro s size beg rest hadm hmore hshort he
  have hacq := acquire_waiting hmore hshort
  obtain ⟨hsize, hroom, htop, -⟩ := hadm
  have hwaits : waits (.refill size beg) s = true := by
    rw [waits_refill_of_checks hsize hroom htop, hacq]; rfl
  have hexec := (exec_of_waits _ s hwaits).2
  refine ⟨hexec, hwaits, fun hr => ?_⟩
  rw [(stepRunsTheDecodedCommand s).1 _ rest _ he (decodeUndoesEncode _) fun h => hr h.2, hexec]

/-- Settles O34: each bound is a check of REFILL at the document's values, and a request for no bytes is satisfied
at once. -/
theorem refillBoundsOfTheDocument : Obligations.RefillBoundsOfTheDocument := by
  intro s size beg hC hM htop
  have hnormal (hsize : size.toNat ≤ 1500) (hb : beg.toNat ≤ s.top.toNat)
      (hroom : beg.toNat + size.toNat ≤ 2048) : RefillAdmitted s size beg :=
    refillAdmitted_of_le (by omega) hb (by omega) (by omega) (by omega)
  have hunderrun (hsize : size.toNat ≤ 1500) (hb : s.top.toNat < beg.toNat)
      (hroom : s.top.toNat + size.toNat ≤ 2048) : RefillAdmitted s size beg :=
    refillAdmitted_of_lt (by omega) hb (by omega) (by omega)
  have hoverflow (hsize : size.toNat ≤ 1500) (hover : 2049 ≤ s.keptBytes beg + size.toNat) :
      Refuses (.refill size beg) s .reservoirOverflow :=
    refuses_of_raise (exec_refill_overflow (by omega) (by omega))
  refine ⟨fun hsize => ?_, fun hsize hb hover => ?_, fun hsize hb hover => ?_,
    fun fresh rest hsize hb hroom hacq => ?_, fun fresh rest hsize hb hroom hacq => ?_,
    fun hzero hb => ?_, fun hzero hb => ?_⟩
  · exact refuses_of_raise (exec_refill_tooLarge beg (by omega))
  · exact hoverflow hsize (by rwa [State.keptBytes_of_le hb])
  · exact hoverflow hsize (by rwa [State.keptBytes_of_lt hb])
  · obtain ⟨t, hexec, hc, ht⟩ := exec_refill_normal (hnormal hsize hb hroom) hb hacq
    exact ⟨t, hexec, hc, by rw [ht.top, (acquire_done _ _ _ _ hacq).1]⟩
  · obtain ⟨t, hexec, hc, ht⟩ := exec_refill_underrun (hunderrun hsize hb hroom) hb hacq
    exact ⟨t, hexec, hc, by rw [ht.top, (acquire_done _ _ _ _ hacq).1]⟩
  · subst hzero
    have hadm := hnormal (Nat.zero_le _) hb (hb.trans htop)
    obtain ⟨t, hexec, hc, ht⟩ := exec_refill_normal hadm hb (acquire_zero s.source)
    exact ⟨t, hexec, hc, ht.source, by rw [ht.contents, List.append_nil], ht.pos_eq⟩
  · subst hzero
    have hadm := hunderrun (Nat.zero_le _) hb htop
    obtain ⟨t, hexec, hc, ht⟩ := exec_refill_underrun hadm hb (acquire_zero s.source)
    exact ⟨t, hexec, hc, ht.source,
      ⟨fun a => ht.read_underrun (Nat.lt_or_ge a _), BitVec.eq_of_toNat_eq ht.top⟩, ht.pos_eq⟩

end Sys2Proof.Machine
end

section
/-! The bit reader (41_bit_reader.md): READBITS and READBIT as one read of the next bits, what READBITs in turn
give, and the cursor that SEEK sets and POSITION returns. -/

namespace Sys2Proof.Machine

/-! ### Bits as numbers -/

/-- `Bits(p, n)` as the sum R13 gives. -/
theorem Memory.bits_eq_sum (m : Memory) (p n : Nat) :
    m.bits p n = ∑ k ∈ Finset.range n, m.bitAt (p + k) * 2 ^ (n - 1 - k) := by
  induction n with
  | zero => rfl
  | succ n ih =>
    rw [Memory.bits_succ, ih, Finset.sum_range_succ, Finset.mul_sum, Nat.add_sub_cancel, Nat.sub_self,
      pow_zero, mul_one]
    congr 1
    refine Finset.sum_congr rfl fun k hk => ?_
    rw [Finset.mem_range] at hk
    rw [show n - k = n - 1 - k + 1 by omega, pow_succ]
    ring

@[simp] theorem Memory.bits_one (m : Memory) (p : Nat) : m.bits p 1 = m.bitAt p := by
  rw [Memory.bits_succ, Memory.bits_zero, mul_zero, zero_add, add_zero]

/-- The bits of one READBITS fit its data word (R78, R115). -/
theorem toNat_ofNat_bits (m : Memory) (p : Nat) {n : Nat} (hn : n ≤ 32) :
    (BitVec.ofNat 32 (m.bits p n)).toNat = m.bits p n := by
  rw [BitVec.toNat_ofNat, Nat.mod_eq_of_lt]
  exact (m.bits_lt p n).trans_le (Nat.pow_le_pow_right (by decide) hn)

/-- Data words of adjoining reads join by shift and or (R119). -/
theorem ofNat_bits_add (m : Memory) (p : Nat) {a b : Nat} (h : a + b ≤ 32) :
    BitVec.ofNat 32 (m.bits p (a + b))
      = BitVec.ofNat 32 (m.bits p a) <<< b ||| BitVec.ofNat 32 (m.bits (p + a) b) := by
  have hjoin : m.bits p (a + b) = m.bits p a <<< b ||| m.bits (p + a) b := by
    rw [Memory.bits_add, ← Nat.shiftLeft_eq, Nat.shiftLeft_add_eq_or_of_lt (m.bits_lt _ b)]
  have hfit : m.bits p a <<< b < 2 ^ 32 :=
    (Nat.left_le_or.trans_eq hjoin.symm).trans_lt
      ((m.bits_lt p (a + b)).trans_le (Nat.pow_le_pow_right (by decide) h))
  apply BitVec.eq_of_toNat_eq
  rw [toNat_ofNat_bits m p h, BitVec.toNat_or, BitVec.toNat_shiftLeft, toNat_ofNat_bits m p (by omega),
    toNat_ofNat_bits m _ (by omega), Nat.mod_eq_of_lt hfit, hjoin]

/-- The stream bit at the cursor, taken from the cursor's byte (R9a, R111). -/
theorem State.bitAt_pos (s : State) :
    s.buf.bitAt s.pos = (s.buf.read s.bytePos.toNat).toNat / 2 ^ (7 - s.bitIdx.toNat) % 2 := by
  rw [Memory.bitAt, streambit, ← State.toNat_bytePos, ← State.toNat_bitIdx, Nat.shiftRight_eq_div_pow,
    Nat.and_one_is_mod]

/-- A cursor's position fits the data word (R116). -/
theorem State.toNat_ofNat_pos (s : State) : (BitVec.ofNat 32 s.pos).toNat = s.pos := by
  rw [BitVec.toNat_ofNat, Nat.mod_eq_of_lt (s.pos_lt.trans (by decide))]

/-! ### One read -/

/-- The state after a read of the next `n` bits: they are the data, and the cursor is `n` bits on (R113). -/
def State.readNext (s : State) (n : Nat) : State :=
  (s.advance n).complete .ok (BitVec.ofNat 32 (s.buf.bits s.pos n))

@[simp] theorem State.readNext_cfg (s : State) (n : Nat) : (s.readNext n).cfg = s.cfg := rfl
@[simp] theorem State.readNext_buf (s : State) (n : Nat) : (s.readNext n).buf = s.buf := rfl
@[simp] theorem State.readNext_top (s : State) (n : Nat) : (s.readNext n).top = s.top := rfl
@[simp] theorem State.readNext_responses (s : State) (n : Nat) :
    (s.readNext n).responses = s.responses ++ [⟨.ok, BitVec.ofNat 32 (s.buf.bits s.pos n)⟩] := rfl

theorem State.readNext_completed (s : State) (n : Nat) :
    Completed s (s.readNext n) .ok (BitVec.ofNat 32 (s.buf.bits s.pos n)) :=
  State.completed_of_same s (s.setPos (s.pos + n)) .ok _

theorem State.readNext_onlyCursor (s : State) (n : Nat) : OnlyCursor s (s.readNext n) :=
  ⟨⟨fun _ => rfl, rfl⟩, ⟨rfl, rfl⟩, ⟨rfl, rfl⟩, rfl⟩

@[simp] theorem State.advance_zero (s : State) : s.advance 0 = s := by
  have hbyte : BitVec.ofNat 12 (s.pos / 8) = s.bytePos := by
    rw [← State.toNat_bytePos, BitVec.ofNat_toNat, BitVec.setWidth_eq]
  have hbit : BitVec.ofNat 3 (s.pos % 8) = s.bitIdx := by
    rw [← State.toNat_bitIdx, BitVec.ofNat_toNat, BitVec.setWidth_eq]
  rw [State.advance_eq, State.setPos, add_zero, hbyte, hbit]

/-- A read of no bits changes no cursor, wherever it is (R115). -/
theorem State.readNext_zero (s : State) : s.readNext 0 = s.complete .ok 0 := by
  rw [State.readNext, State.advance_zero]; rfl

theorem exec_readbits_zero (s : State) : exec (.readbits 0) s = .next (s.complete .ok 0) := rfl

section
variable {s : State}

/-- A read inside the valid region keeps its new position in the 15 bits of the cursor (R112, R118). -/
theorem State.pos_readNext {n : Nat} (h : n = 0 ∨ s.pos + n ≤ 8 * s.top.toNat) :
    (s.readNext n).pos = s.pos + n := by
  have htop := s.top.isLt
  have hlt := s.pos_lt
  exact State.pos_setPos s (s.pos + n) (by omega)

theorem State.room_admitted_of_le (hcap : s.top.toNat ≤ s.cfg.capacity) {n : Nat}
    (h : n = 0 ∨ s.pos + n ≤ 8 * s.top.toNat) : s.room n = .admitted := by
  rw [State.room_of_top_le s n hcap, if_pos h]

theorem exec_readbits_of_admitted {n : BitVec 6} (hn : n.toNat ≤ 32) (h : s.room n.toNat = .admitted) :
    exec (.readbits n) s = .next (s.readNext n.toNat) := by
  by_cases hz : n = 0
  · subst hz
    exact (exec_readbits_zero s).trans (congrArg _ s.readNext_zero.symm)
  · simp only [exec, execReadbits, readbitsAccepts, hn, hz, h, decide_true, if_true, if_false]
    rfl

theorem exec_readbits_beyondTop {n : BitVec 6} (hn : n.toNat ≤ 32) (h : s.room n.toNat = .beyondTop) :
    exec (.readbits n) s = .next (s.raise .readBeyondTop 0) := by
  have hz : n ≠ 0 := by
    rintro rfl
    exact ((s.room_beyondTop_iff _).mp h).1 rfl
  simp only [exec, execReadbits, readbitsAccepts, hn, hz, h, decide_true, if_true, if_false]

theorem exec_readbit_of_admitted (h : s.room 1 = .admitted) :
    exec .readbit s = .next (s.readNext 1) := by
  have hbit : BitVec.ofNat 32 (s.buf.bits s.pos 1)
      = ((s.buf.read s.bytePos.toNat >>> (7 - s.bitIdx.toNat)) &&& 1#8).setWidth 32 := by
    apply BitVec.eq_of_toNat_eq
    rw [toNat_ofNat_bits _ _ (by decide), Memory.bits_one, bit_at_cursor]
  rw [State.readNext, hbit]
  exact execReadbit_of_admitted h

/-- READBIT is READBITS 1, admitted, refused or stopped (R114). -/
theorem exec_readbit_eq_readbits (s : State) : exec .readbit s = exec (.readbits 1) s := by
  cases h : s.room 1 with
  | admitted => rw [exec_readbit_of_admitted h, exec_readbits_of_admitted (by decide) h]; rfl
  | beyondTop =>
    rw [exec_readbits_beyondTop (by decide) h]
    simp only [exec, execReadbit, h]
  | noSuchOffset => simp [exec, execReadbit, execReadbits, readbitsAccepts, h]

theorem refuses_readbits {n : BitVec 6} (hn : n.toNat ≤ 32) (h : s.room n.toNat = .beyondTop) :
    Refuses (.readbits n) s .readBeyondTop :=
  refuses_of_raise (exec_readbits_beyondTop hn h)

theorem refuses_readbit (h : s.room 1 = .beyondTop) : Refuses .readbit s .readBeyondTop :=
  refuses_of_raise ((exec_readbit_eq_readbits s).trans (exec_readbits_beyondTop (by decide) h))

end

/-! ### READBITs in turn -/

/-- The responses of `n` READBITs in turn from bit position `p`. -/
def bitResponses (m : Memory) (p n : Nat) : List Response :=
  (List.range n).map fun k => ⟨.ok, BitVec.ofNat 32 (m.bitAt (p + k))⟩

@[simp] theorem length_bitResponses (m : Memory) (p n : Nat) : (bitResponses m p n).length = n := by
  simp [bitResponses]

theorem bitResponses_succ (m : Memory) (p n : Nat) :
    bitResponses m p (n + 1) = bitResponses m p n ++ [⟨.ok, BitVec.ofNat 32 (m.bitAt (p + n))⟩] := by
  rw [bitResponses, List.range_succ, List.map_append]; rfl

theorem code_of_mem_bitResponses {m : Memory} {p n : Nat} {r : Response} (h : r ∈ bitResponses m p n) :
    r.code = .ok := by
  obtain ⟨k, -, rfl⟩ := List.mem_map.mp h
  rfl

theorem composeBits_append (rs : List Response) (r : Response) :
    composeBits (rs ++ [r]) = 2 * composeBits rs + r.data.toNat := by
  rw [composeBits, List.foldl_append]; rfl

/-- The first bit read becomes the most significant (R54, R113). -/
theorem composeBits_bitResponses (m : Memory) (p n : Nat) :
    composeBits (bitResponses m p n) = m.bits p n := by
  induction n with
  | zero => rfl
  | succ n ih =>
    rw [bitResponses_succ, composeBits_append, ih, Memory.bits_succ, ← Memory.bits_one m (p + n),
      toNat_ofNat_bits _ _ (by decide)]

theorem runAll_append {l : List Instr} (l' : List Instr) {s t : State} (h : runAll l s = some t) :
    runAll (l ++ l') s = runAll l' t := by
  induction l generalizing s with
  | nil => cases h; rfl
  | cons i l ih =>
    rw [List.cons_append, runAll]
    rw [runAll] at h
    cases hi : exec i s with
    | next u => rw [hi] at h; exact ih h
    | fault r => rw [hi] at h; cases h
    | refused r => rw [hi] at h; cases h

theorem runAll_singleton {i : Instr} {s t : State} (h : exec i s = .next t) : runAll [i] s = some t := by
  rw [runAll, h]; rfl

/-- `u` is `s` after `n` READBITs, all answered with OK. -/
structure ReadBitByBit (s u : State) (n : Nat) : Prop where
  config : u.cfg = s.cfg
  buf : u.buf = s.buf
  top : u.top = s.top
  pos : u.pos = s.pos + n
  responses : u.responses = s.responses ++ bitResponses s.buf s.pos n

theorem ReadBitByBit.zero (s : State) : ReadBitByBit s s 0 :=
  ⟨rfl, rfl, rfl, rfl, (List.append_nil _).symm⟩

theorem ReadBitByBit.succ {s u : State} {n : Nat} (h : ReadBitByBit s u n)
    (hn : s.pos + (n + 1) ≤ 8 * s.top.toNat) : ReadBitByBit s (u.readNext 1) (n + 1) where
  config := h.config
  buf := h.buf
  top := h.top
  pos := by rw [State.pos_readNext (by rw [h.pos, h.top]; omega), h.pos, add_assoc]
  responses := by
    rw [State.readNext_responses, Memory.bits_one, h.responses, h.buf, h.pos, bitResponses_succ,
      List.append_assoc]

/-- Where all `n` bits are valid, each of `n` READBITs in turn is admitted (R112, R113). -/
theorem runAll_readbit {s : State} (hcap : s.top.toNat ≤ s.cfg.capacity) {n : Nat}
    (h : n = 0 ∨ s.pos + n ≤ 8 * s.top.toNat) :
    ∃ u, runAll (List.replicate n .readbit) s = some u ∧ ReadBitByBit s u n := by
  induction n with
  | zero => exact ⟨s, rfl, .zero s⟩
  | succ n ih =>
    obtain ⟨u, hrun, hu⟩ := ih (by omega)
    have hroom : u.room 1 = .admitted :=
      State.room_admitted_of_le (by rwa [hu.top, hu.config]) (by rw [hu.pos, hu.top]; omega)
    refine ⟨u.readNext 1, ?_, hu.succ (by omega)⟩
    rw [List.replicate_succ', runAll_append _ hrun, runAll_singleton (exec_readbit_of_admitted hroom)]

/-! ### POSITION and SEEK -/

theorem exec_position (s : State) :
    exec .position s = .next (s.complete .ok (BitVec.ofNat 32 s.pos)) := rfl

theorem exec_position_completes {s : State} {p : Nat} (h : s.pos = p) :
    ∃ t, exec .position s = .next t ∧ Completed s t .ok (BitVec.ofNat 32 p) :=
  ⟨_, exec_position s, h ▸ s.completed _ _⟩

theorem exec_seek (p : BitVec 15) (s : State) :
    exec (.seek p) s = .next ((s.setPos p.toNat).complete .ok 0) := rfl

theorem exec_seek_completes (p : BitVec 15) (s : State) :
    ∃ t, exec (.seek p) s = .next t ∧ Completed s t .ok 0 :=
  ⟨_, exec_seek p s, State.completed_of_same s _ _ _⟩

/-- Every operand of SEEK is a cursor (R117, R119). -/
theorem State.pos_sought (s : State) (p : BitVec 15) :
    ((s.setPos p.toNat).complete .ok 0).pos = p.toNat :=
  State.pos_setPos s p.toNat p.isLt

/-! ### The obligations -/

/-- Settles O17: READBIT is READBITS 1, and the bit it reads is the one at the cursor. -/
theorem readBitReturnsTheBitAtTheCursor : Obligations.ReadBitReturnsTheBitAtTheCursor := by
  intro s hcap
  have hpos : s.pos = s.bytePos.toNat * 8 + s.bitIdx.toNat := rfl
  have hidx := s.bitIdx.isLt
  refine ⟨fun hlt => ?_, fun hge => ?_, exec_readbit_eq_readbits s⟩
  · have hin : s.pos + 1 ≤ 8 * s.top.toNat := by omega
    have hmoved := State.pos_readNext (.inr hin)
    have h7 : s.bitIdx = 7 ↔ s.bitIdx.toNat = 7 := BitVec.toNat_eq
    have hbyte := (s.readNext 1).toNat_bytePos
    have hbit := (s.readNext 1).toNat_bitIdx
    rw [hmoved] at hbyte hbit
    refine ⟨_, exec_readbit_of_admitted (State.room_admitted_of_le hcap (.inr hin)), ?_,
      s.readNext_onlyCursor 1, fun hi => ?_, fun hi => ?_⟩
    · rw [← State.bitAt_pos, ← Memory.bits_one]
      exact s.readNext_completed 1
    · have hi := h7.mp hi
      have hzero : (s.pos + 1) % 8 = 0 := by omega
      exact ⟨by omega, BitVec.eq_of_toNat_eq (hbit.trans hzero)⟩
    · have hi := mt h7.mpr hi
      exact ⟨BitVec.eq_of_toNat_eq (by omega), by omega⟩
  · exact refuses_readbit ((s.room_beyondTop_iff 1).mpr (by omega))

/-- Settles O18: the operand's check, the read of no bits, and the read guard in turn. -/
theorem readBitsReturnsTheBitsAtTheCursor : Obligations.ReadBitsReturnsTheBitsAtTheCursor := by
  intro s n hcap
  refine ⟨fun hbad => ?_, fun hz => ?_, fun h1 hn hbeyond => ?_, fun h1 hn hin => ?_⟩
  · exact refuses_of_raise (exec_of_not_wellFormed s (decide_eq_false (Nat.not_le.mpr hbad)))
  · subst hz
    exact ⟨_, exec_readbits_zero s, s.completed _ _, s.complete_onlyFlags _ _, rfl⟩
  · exact refuses_readbits hn ((s.room_beyondTop_iff _).mpr ⟨by omega, hbeyond⟩)
  · have hdata := toNat_ofNat_bits s.buf s.pos hn
    have hmoved := State.pos_readNext (.inr hin)
    exact ⟨_, _, exec_readbits_of_admitted hn (State.room_admitted_of_le hcap (.inr hin)),
      s.readNext_completed _, hdata.trans (s.buf.bits_eq_sum _ _), hdata.trans_lt (s.buf.bits_lt _ _),
      s.readNext_onlyCursor _, by rw [State.toNat_bytePos, hmoved], by rw [State.toNat_bitIdx, hmoved]⟩

/-- Settles O19, by induction on the number of READBITs. -/
theorem multiBitReadIsSingleBitReads : Obligations.MultiBitReadIsSingleBitReads := by
  intro s n hcap hn
  refine ⟨fun hin => ?_, fun hz hbeyond =>
    refuses_readbits hn ((s.room_beyondTop_iff _).mpr ⟨hz, hbeyond⟩)⟩
  obtain ⟨u, hrun, hu⟩ := runAll_readbit hcap hin
  have hnew : u.responses.drop s.responses.length = bitResponses s.buf s.pos n.toNat := by
    rw [hu.responses, List.drop_left]
  obtain ⟨hbyte, hbit⟩ :=
    State.cursor_eq_of_pos_eq u (s.readNext n.toNat) ((State.pos_readNext hin).trans hu.pos.symm)
  rw [← hu.top] at hin
  refine ⟨s.readNext n.toNat, u, _,
    exec_readbits_of_admitted hn (State.room_admitted_of_le hcap (hu.top ▸ hin)),
    s.readNext_completed _, hrun, ?_, ?_, ?_, ⟨hbyte, hbit⟩, ⟨fun a => ?_, hu.top.symm⟩⟩
  · rw [hnew]; exact fun r => code_of_mem_bitResponses
  · rw [hnew, length_bitResponses]
  · rw [hnew, composeBits_bitResponses, toNat_ofNat_bits _ _ hn]
  · rw [hu.buf, State.readNext_buf]

/-- Settles O20: every cursor fits the data word. -/
theorem positionReturnsTheCursor : Obligations.PositionReturnsTheCursor := fun s =>
  ⟨_, _, exec_position s, s.completed _ _, s.toNat_ofNat_pos,
    s.toNat_ofNat_pos.trans_le (Nat.le_of_lt_succ s.pos_lt), s.complete_onlyFlags _ _, rfl⟩

/-- Settles O21: a cursor beyond the valid bits refuses by the read guard alone. -/
theorem seekSetsTheCursor : Obligations.SeekSetsTheCursor := by
  intro s p
  have hpos := s.pos_sought p
  refine ⟨_, exec_seek p s, State.completed_of_same s _ _ _, ?_, ?_,
    ⟨⟨fun _ => rfl, rfl⟩, ⟨rfl, rfl⟩, ⟨rfl, rfl⟩, rfl⟩, fun hbeyond => ?_⟩
  · rw [State.toNat_bytePos, hpos]
  · rw [State.toNat_bitIdx, hpos]
  · have hout : ¬ ((s.setPos p.toNat).complete .ok 0).CursorInside := by
      rw [State.CursorInside, hpos]; exact Nat.not_le.mpr hbeyond
    exact ⟨refuses_readbit (room_of_not_cursorInside hout le_rfl),
      fun n h1 hn => refuses_readbits hn (room_of_not_cursorInside hout h1),
      exec_position_completes hpos, fun q => exec_seek_completes q _,
      ⟨_, exec_readbits_zero _, State.completed _ _ _⟩⟩

/-- Settles O22: POSITION returns the cursor that SEEK set. -/
theorem seekThenPositionReturnsTheOperand : Obligations.SeekThenPositionReturnsTheOperand := fun s p =>
  ⟨_, _, _, exec_seek p s, exec_position _, State.completed _ _ _,
    (State.toNat_ofNat_pos _).trans (s.pos_sought p)⟩

/-- Settles O23: the second read starts where the first one ended. -/
theorem readsSplit : Obligations.ReadsSplit := by
  intro s a b hcap hab hin
  have hsum : (a + b).toNat = a.toNat + b.toNat := by
    rw [BitVec.toNat_add, Nat.mod_eq_of_lt (by omega)]
  have hroom (n : Nat) (hn : s.pos + n ≤ 8 * s.top.toNat) : s.room n = .admitted :=
    State.room_admitted_of_le hcap (.inr hn)
  have hpos : (s.readNext a.toNat).pos = s.pos + a.toNat := State.pos_readNext (.inr (by omega))
  have hin' : (s.readNext a.toNat).pos + b.toNat ≤ 8 * (s.readNext a.toNat).top.toNat := by
    rw [hpos]; exact hin
  have hroom' : (s.readNext a.toNat).room b.toNat = .admitted :=
    State.room_admitted_of_le (s := s.readNext a.toNat) hcap (.inr hin')
  have hend : (s.readNext (a + b).toNat).pos = ((s.readNext a.toNat).readNext b.toNat).pos := by
    rw [State.pos_readNext (.inr hin'), State.pos_readNext (.inr (by omega)), hpos, hsum, add_assoc]
  obtain ⟨hbyte, hbit⟩ := State.cursor_eq_of_pos_eq _ _ hend
  refine ⟨_, _, _, _, _, exec_readbits_of_admitted (by omega) (hroom _ (by omega)),
    s.readNext_completed _, exec_readbits_of_admitted (by omega) hroom',
    State.readNext_completed _ _, exec_readbits_of_admitted (by omega) (hroom _ (by omega)), ?_,
    hbyte, hbit⟩
  rw [hpos, State.readNext_buf, ← ofNat_bits_add s.buf s.pos hab, ← hsum]
  exact s.readNext_completed _

end Sys2Proof.Machine
end

section
/-! The scale-factor decoder (42_scale_factor_decoder.md): each branch as one indexed list of assignments, the state
SFDECODE leaves when its bits are there, and what each entry of that state holds. -/

namespace Sys2Proof.Machine

/-! ### The spec's names -/

theorem extractLsb'_one_ne_zero_iff (x : BitVec 8) (i : Nat) :
    x.extractLsb' i 1 ≠ 0 ↔ x.getLsbD i = true := by
  rw [ne_eq, ← Bool.not_eq_false, not_iff_not]
  constructor
  · intro h
    simpa using congrArg (·.getLsbD 0) h
  · intro h
    ext j hj
    obtain rfl : j = 0 := by omega
    simpa using h

theorem shortOrMixed_iff (gc : BitVec 8) :
    ShortOrMixed gc ↔ windowSwitchFlag gc ≠ 0 ∧ blockType gc = 2 :=
  and_congr (extractLsb'_one_ne_zero_iff gc 4).symm Iff.rfl

theorem mixed_iff (gc : BitVec 8) : Mixed gc ↔ mixedBlockFlag gc ≠ 0 :=
  (extractLsb'_one_ne_zero_iff gc 7).symm

theorem selectBranch_of_mixed {gc : BitVec 8} (h : ShortOrMixed gc) (hm : Mixed gc) :
    selectBranch gc = .mixed := by
  rw [selectBranch, if_pos ((shortOrMixed_iff gc).mp h), if_pos ((mixed_iff gc).mp hm)]

theorem selectBranch_of_short {gc : BitVec 8} (h : ShortOrMixed gc) (hm : ¬ Mixed gc) :
    selectBranch gc = .short := by
  rw [selectBranch, if_pos ((shortOrMixed_iff gc).mp h), if_neg (mt (mixed_iff gc).mpr hm)]

theorem selectBranch_of_long {gc : BitVec 8} (h : ¬ ShortOrMixed gc) : selectBranch gc = .long := by
  rw [selectBranch, if_neg (mt (shortOrMixed_iff gc).mpr h)]

theorem groupFresh_iff (gr : BitVec 1) (scfsi : BitVec 4) (g : Nat) :
    groupFresh gr scfsi g = true ↔ scfsi.getLsbD g = false ∨ gr = 0 := by
  simp [groupFresh, scfsiFlag]

theorem groupNeed_eq_groupBits (gr : BitVec 1) (scfsi : BitVec 4) (slen : Nat × Nat) (g : Nat) :
    groupNeed gr scfsi slen g
      = groupBits gr scfsi g (groupBands g).length (longWidth slen g) := by
  simp only [groupNeed, groupBits, groupFresh_iff]

section
variable (s : State) (gr ch : BitVec 1)

theorem State.widths_eq : s.widths gr ch = s.slen (scalefacCompress (s.gc gr ch)) := by
  refine congrArg s.slen (BitVec.eq_of_toNat_eq ?_)
  simp [scalefacCompress]

theorem State.widths_le : (s.widths gr ch).1 ≤ 4 ∧ (s.widths gr ch).2 ≤ 4 := s.slen_le _

theorem State.bitsNeeded_of_long (h : ¬ ShortOrMixed (s.gc gr ch)) :
    s.bitsNeeded gr ch
      = groupBits gr (s.scfsi ch) 0 6 (s.widths gr ch).1 + groupBits gr (s.scfsi ch) 1 5 (s.widths gr ch).1
        + groupBits gr (s.scfsi ch) 2 5 (s.widths gr ch).2
        + groupBits gr (s.scfsi ch) 3 5 (s.widths gr ch).2 :=
  if_neg h

/-- The `need` of the claims is the decoder's (R134). -/
theorem State.bitsNeeded_eq :
    s.bitsNeeded gr ch
      = needBits (selectBranch (s.gc gr ch)) gr (s.scfsi ch) (s.widths gr ch) := by
  by_cases h : ShortOrMixed (s.gc gr ch)
  · by_cases hm : Mixed (s.gc gr ch)
    · rw [selectBranch_of_mixed h hm]
      exact (if_pos h).trans (if_pos hm)
    · rw [selectBranch_of_short h hm]
      exact (if_pos h).trans (if_neg hm)
  · rw [selectBranch_of_long h, s.bitsNeeded_of_long gr ch h]
    simp only [needBits, groupNeed_eq_groupBits]
    rfl

/-! ### The state SFDECODE leaves -/

/-- The assignments SFDECODE makes in this state, in order. -/
def State.actions : List SfAction :=
  sfActions (selectBranch (s.gc gr ch)) gr (s.scfsi ch) (s.widths gr ch)

/-- The state after an SFDECODE whose bits are all there (R135). -/
def State.sfdecoded : State :=
  (runSf gr ch s (s.actions gr ch)).complete .ok (BitVec.ofNat 32 (s.pos + s.bitsNeeded gr ch))

theorem State.sfWidth_actions : sfWidth (s.actions gr ch) = s.bitsNeeded gr ch := by
  rw [s.bitsNeeded_eq, State.actions, sfWidth_sfActions]

theorem State.inTable_of_mem_actions {a : SfAction} (h : a ∈ s.actions gr ch) : a.inTable = true :=
  (sfActions_inTable _ _ _ _ a h).1

theorem State.longEntry_sfdecoded_of_not_written (gr' ch' : BitVec 1) {band : Nat} (hb : band < 21)
    (h : ¬ (gr = gr' ∧ ch = ch') ∨ ∀ a ∈ s.actions gr ch, a.writesLong band = false) :
    (s.sfdecoded gr ch).longEntry gr' ch' band = s.longEntry gr' ch' band :=
  longEntry_runSf_of_not_written gr ch s _ (fun _ => s.inTable_of_mem_actions gr ch) gr' ch' band hb h

theorem State.shortEntry_sfdecoded_of_not_written (gr' ch' : BitVec 1) {band win : Nat} (hb : band < 13)
    (hw : win < 3)
    (h : ¬ (gr = gr' ∧ ch = ch') ∨ ∀ a ∈ s.actions gr ch, a.writesShort band win = false) :
    (s.sfdecoded gr ch).shortEntry gr' ch' band win = s.shortEntry gr' ch' band win :=
  shortEntry_runSf_of_not_written gr ch s _ (fun _ => s.inTable_of_mem_actions gr ch) gr' ch' band win
    hb hw h

theorem State.sfdecoded_others : OtherEntriesSame s (s.sfdecoded gr ch) gr ch where
  long gr' ch' hne band hb :=
    s.longEntry_sfdecoded_of_not_written gr ch gr' ch' hb
      (.inl fun ⟨hgr, hch⟩ => hne (by rw [hgr, hch]))
  short gr' ch' hne band hb win hw :=
    s.shortEntry_sfdecoded_of_not_written gr ch gr' ch' hb hw
      (.inl fun ⟨hgr, hch⟩ => hne (by rw [hgr, hch]))

theorem State.sfdecoded_onlyDecoded : OnlyDecoded s (s.sfdecoded gr ch) gr ch where
  reservoir := ⟨by simp [State.sfdecoded], by simp [State.sfdecoded]⟩
  sideInfo := ⟨by simp [State.sfdecoded], by simp [State.sfdecoded]⟩
  source := by simp [State.sfdecoded]
  others := s.sfdecoded_others gr ch

theorem State.sfdecoded_completed :
    Completed s (s.sfdecoded gr ch) .ok (BitVec.ofNat 32 (s.pos + s.bitsNeeded gr ch)) :=
  s.completed_of_same (runSf gr ch s (s.actions gr ch)) .ok _

end

/-! ### SFDECODE by its guard -/

section
variable {s : State} {gr ch : BitVec 1}

/-- Admitted fields end inside the 15 bits of the cursor. -/
theorem State.pos_add_bitsNeeded_lt (h : s.room (s.bitsNeeded gr ch) = .admitted) :
    s.pos + s.bitsNeeded gr ch < 32768 := by
  have htop := s.top.isLt
  have hpos := s.pos_lt
  rw [State.room_admitted_iff] at h
  omega

theorem State.pos_runSf_actions (h : s.room (s.bitsNeeded gr ch) = .admitted) :
    (runSf gr ch s (s.actions gr ch)).pos = s.pos + s.bitsNeeded gr ch := by
  have hlt := State.pos_add_bitsNeeded_lt h
  rw [← s.sfWidth_actions gr ch] at hlt ⊢
  exact pos_runSf gr ch s _ hlt

theorem State.pos_sfdecoded (h : s.room (s.bitsNeeded gr ch) = .admitted) :
    (s.sfdecoded gr ch).pos = s.pos + s.bitsNeeded gr ch :=
  State.pos_runSf_actions h

theorem State.sfdecoded_sameCursor (h : s.bitsNeeded gr ch = 0) : SameCursor s (s.sfdecoded gr ch) := by
  have hroom : s.room (s.bitsNeeded gr ch) = .admitted := (s.room_admitted_iff _).mpr (.inl h)
  have hpos : (s.sfdecoded gr ch).pos = s.pos := by rw [State.pos_sfdecoded hroom, h, add_zero]
  obtain ⟨hbyte, hbit⟩ := State.cursor_eq_of_pos_eq s (s.sfdecoded gr ch) hpos
  exact ⟨hbyte, hbit⟩

theorem exec_sfdecode_of_admitted (h : s.room (s.bitsNeeded gr ch) = .admitted) :
    exec (.sfdecode gr ch) s = .next (s.sfdecoded gr ch) := by
  have hpos := State.pos_runSf_actions h
  rw [s.bitsNeeded_eq, s.widths_eq] at h
  rw [State.actions, s.widths_eq] at hpos
  simp only [exec, execSfdecode, h, hpos, State.sfdecoded, State.actions, s.widths_eq, State.returnOk_eq]

theorem exec_sfdecode_beyondTop (h : s.room (s.bitsNeeded gr ch) = .beyondTop) :
    exec (.sfdecode gr ch) s = .next (s.raise .readBeyondTop 0) := by
  rw [s.bitsNeeded_eq, s.widths_eq] at h
  simp only [exec, execSfdecode, h]

theorem exec_sfdecode_noSuchOffset (h : s.room (s.bitsNeeded gr ch) = .noSuchOffset) :
    exec (.sfdecode gr ch) s = .fault .offsetOutsideReservoir := by
  rw [s.bitsNeeded_eq, s.widths_eq] at h
  simp only [exec, execSfdecode, h]

/-- SFDECODE refuses and writes only flags, or decodes (R136). -/
theorem exec_sfdecode_cases {t : State} (h : exec (.sfdecode gr ch) s = .next t) :
    t = s.complete .readBeyondTop 0
    ∨ s.room (s.bitsNeeded gr ch) = .admitted ∧ t = s.sfdecoded gr ch := by
  cases hroom : s.room (s.bitsNeeded gr ch) with
  | beyondTop =>
    rw [exec_sfdecode_beyondTop hroom] at h
    exact .inl (Host.Outcome.next.inj h).symm
  | noSuchOffset =>
    rw [exec_sfdecode_noSuchOffset hroom] at h
    cases h
  | admitted =>
    rw [exec_sfdecode_of_admitted hroom] at h
    exact .inr ⟨rfl, (Host.Outcome.next.inj h).symm⟩

/-- An OK response tells that SFDECODE decoded. -/
theorem exec_sfdecode_ok {t : State} {data : Word} (h : exec (.sfdecode gr ch) s = .next t)
    (hr : t.responses = s.responses ++ [⟨.ok, data⟩]) :
    s.room (s.bitsNeeded gr ch) = .admitted ∧ t = s.sfdecoded gr ch
      ∧ data = BitVec.ofNat 32 (s.pos + s.bitsNeeded gr ch) := by
  rcases exec_sfdecode_cases h with rfl | ⟨hroom, rfl⟩
  · simp at hr
  · rw [(s.sfdecoded_completed gr ch).responses] at hr
    exact ⟨hroom, rfl, by simpa using hr.symm⟩

end

/-! ### Each branch as one indexed list of assignments -/

/-- Branch B's assignment to one band, fresh or copied with its group (R138). -/
def bandAction (gr : BitVec 1) (scfsi : BitVec 4) (slen : Nat × Nat) (band : Nat) : SfAction :=
  if scfsi.getLsbD (bandGroup band) = false ∨ gr = 0 then .freshLong band (bandWidth slen band)
  else .copyLong band

/-- The assignment to the `k`-th window of the short bands, counted from band 0 (R137). -/
def windowAction (slen : Nat × Nat) (k : Nat) : SfAction :=
  .freshShort (k / 3) (k % 3) (shortWidth slen (k / 3))

/-- The mixed branch's `k`-th assignment: eight long bands, then the windows from band 3 on, whose first is the
ninth window of the short bands (R137). -/
def mixedAction (slen : Nat × Nat) (k : Nat) : SfAction :=
  if k < 8 then .freshLong k slen.1 else windowAction slen (k + 1)

section
variable {gr : BitVec 1} {scfsi : BitVec 4} {slen : Nat × Nat} {band win k : Nat}

theorem bandAction_of_fresh (h : BandFresh gr scfsi band) :
    bandAction gr scfsi slen band = .freshLong band (bandWidth slen band) := if_pos h

theorem bandAction_of_reused (h : ¬ BandFresh gr scfsi band) :
    bandAction gr scfsi slen band = .copyLong band := if_neg h

theorem mixedAction_of_lt (h : k < 8) : mixedAction slen k = .freshLong k slen.1 := if_pos h

theorem mixedAction_of_le (h : 8 ≤ k) : mixedAction slen k = windowAction slen (k + 1) :=
  if_neg (Nat.not_lt.mpr h)

theorem windowAction_eq (h : win < 3) :
    windowAction slen (band * 3 + win) = .freshShort band win (shortBandWidth slen band) := by
  have hdiv : (band * 3 + win) / 3 = band := by omega
  have hmod : (band * 3 + win) % 3 = win := by omega
  rw [windowAction, hdiv, hmod]
  rfl

theorem longWidth_bandGroup (slen : Nat × Nat) (band : Nat) :
    longWidth slen (bandGroup band) = bandWidth slen band := by
  have hgroup : bandGroup band < 2 ↔ band < 11 := by
    unfold bandGroup
    split_ifs <;> omega
  simp only [longWidth, bandWidth, hgroup]

theorem bandGroup_of_mem_groupBands : ∀ g < 4, ∀ band ∈ groupBands g, bandGroup band = g := by decide

theorem groupActions_eq_map (gr : BitVec 1) (scfsi : BitVec 4) (slen : Nat × Nat) {g : Nat} (hg : g < 4) :
    groupActions gr scfsi slen g = (groupBands g).map (bandAction gr scfsi slen) := by
  by_cases hf : scfsi.getLsbD g = false ∨ gr = 0
  · rw [groupActions, if_pos ((groupFresh_iff _ _ _).mpr hf)]
    refine List.map_congr_left fun band hb => ?_
    obtain rfl := bandGroup_of_mem_groupBands g hg band hb
    rw [longWidth_bandGroup, bandAction_of_fresh hf]
  · rw [groupActions, if_neg (mt (groupFresh_iff _ _ _).mp hf)]
    refine List.map_congr_left fun band hb => ?_
    obtain rfl := bandGroup_of_mem_groupBands g hg band hb
    rw [bandAction_of_reused hf]

theorem sfActions_long (gr : BitVec 1) (scfsi : BitVec 4) (slen : Nat × Nat) :
    sfActions .long gr scfsi slen = (List.range 21).map (bandAction gr scfsi slen) := by
  have hbands : List.range 21 = (List.range 4).flatMap groupBands := by decide
  rw [hbands, List.map_flatMap]
  exact List.flatMap_congr fun g hg => groupActions_eq_map gr scfsi slen (List.mem_range.mp hg)

theorem sfActions_short (gr : BitVec 1) (scfsi : BitVec 4) (slen : Nat × Nat) :
    sfActions .short gr scfsi slen = (List.range 36).map (windowAction slen) := rfl

theorem sfActions_mixed (gr : BitVec 1) (scfsi : BitVec 4) (slen : Nat × Nat) :
    sfActions .mixed gr scfsi slen = (List.range 35).map (mixedAction slen) := rfl

end

section
variable {s : State} {gr ch : BitVec 1}

theorem State.actions_of_long (h : ¬ ShortOrMixed (s.gc gr ch)) :
    s.actions gr ch = (List.range 21).map (bandAction gr (s.scfsi ch) (s.widths gr ch)) := by
  rw [State.actions, selectBranch_of_long h, sfActions_long]

theorem State.actions_of_short (h : ShortOrMixed (s.gc gr ch)) (hm : ¬ Mixed (s.gc gr ch)) :
    s.actions gr ch = (List.range 36).map (windowAction (s.widths gr ch)) := by
  rw [State.actions, selectBranch_of_short h hm, sfActions_short]

theorem State.actions_of_mixed (h : ShortOrMixed (s.gc gr ch)) (hm : Mixed (s.gc gr ch)) :
    s.actions gr ch = (List.range 35).map (mixedAction (s.widths gr ch)) := by
  rw [State.actions, selectBranch_of_mixed h hm, sfActions_mixed]

end

/-! ### Which assignment writes an entry -/

theorem writesLong_bandAction (gr : BitVec 1) (scfsi : BitVec 4) (slen : Nat × Nat) (b band : Nat) :
    (bandAction gr scfsi slen b).writesLong band = decide (b = band) := by
  unfold bandAction
  split <;> rfl

theorem writesLong_windowAction (slen : Nat × Nat) (k band : Nat) :
    (windowAction slen k).writesLong band = false := rfl

theorem writesShort_windowAction (slen : Nat × Nat) {k band win : Nat}
    (h : (windowAction slen k).writesShort band win = true) : k = band * 3 + win := by
  simp only [windowAction, SfAction.writesShort, Bool.and_eq_true, decide_eq_true_eq] at h
  omega

theorem writesLong_mixedAction (slen : Nat × Nat) {k band : Nat}
    (h : (mixedAction slen k).writesLong band = true) : k = band ∧ k < 8 := by
  by_cases hk : k < 8
  · rw [mixedAction_of_lt hk] at h
    exact ⟨by simpa [SfAction.writesLong] using h, hk⟩
  · rw [mixedAction_of_le (Nat.not_lt.mp hk), writesLong_windowAction] at h
    cases h

theorem writesShort_mixedAction (slen : Nat × Nat) {k band win : Nat}
    (h : (mixedAction slen k).writesShort band win = true) : k + 1 = band * 3 + win ∧ 8 ≤ k := by
  by_cases hk : k < 8
  · rw [mixedAction_of_lt hk] at h
    cases h
  · rw [mixedAction_of_le (Nat.not_lt.mp hk)] at h
    exact ⟨writesShort_windowAction slen h, Nat.not_lt.mp hk⟩

/-- A branch all of whose assignments are of short entries leaves the long table. -/
theorem runSf_scalefacL {actions : List SfAction} (gr ch : BitVec 1) (s : State)
    (h : ∀ a ∈ actions, ∃ band win w, a = .freshShort band win w) :
    (runSf gr ch s actions).scalefacL = s.scalefacL := by
  refine List.foldlRecOn (motive := fun t : State => t.scalefacL = s.scalefacL) actions _ rfl
    fun t ht a ha => ?_
  obtain ⟨band, win, w, rfl⟩ := h a ha
  exact ht

/-- A branch none of whose assignments is of a short entry leaves the short table. -/
theorem runSf_scalefacS {actions : List SfAction} (gr ch : BitVec 1) (s : State)
    (h : ∀ a ∈ actions, ∀ band win w, a ≠ .freshShort band win w) :
    (runSf gr ch s actions).scalefacS = s.scalefacS := by
  refine List.foldlRecOn (motive := fun t : State => t.scalefacS = s.scalefacS) actions _ rfl
    fun t ht a ha => ?_
  cases a with
  | freshLong band w => exact ht
  | copyLong band => exact ht
  | freshShort band win w => exact absurd rfl (h _ ha band win w)

/-! ### What an entry holds that one assignment writes -/

theorem map_range_eq_append {α : Type} (f : Nat → α) {k n : Nat} (h : k < n) :
    (List.range n).map f
      = (List.range k).map f ++ f k :: (List.range' (k + 1) (n - k - 1)).map f := by
  have hn : n = k + ((n - k - 1) + 1) := by omega
  rw [hn, List.range_eq_range', ← List.range'_append_1, List.range'_succ, List.range_eq_range']
  simp

/-- The bits of one field fit the 4-bit entry (R146). -/
theorem toNat_ofNat_four_bits (m : Memory) (p : Nat) {w : Nat} (hw : w ≤ 4) :
    (BitVec.ofNat 4 (m.bits p w)).toNat = m.bits p w := by
  rw [BitVec.toNat_ofNat, Nat.mod_eq_of_lt]
  exact (m.bits_lt p w).trans_le (Nat.pow_le_pow_right (by decide) hw)

section
variable {s : State} {gr ch : BitVec 1} {n k : Nat} {f : Nat → SfAction}

/-- The assignments after the `k`-th do not write what only the `k`-th writes. -/
theorem not_written_after {p : SfAction → Bool} (honce : ∀ j, p (f j) = true → j = k) :
    ∀ a ∈ (List.range' (k + 1) (n - k - 1)).map f, p a = false := by
  intro a ha
  obtain ⟨j, hj, rfl⟩ := List.mem_map.mp ha
  rw [List.mem_range'_1] at hj
  by_contra hp
  have := honce j (by simpa using hp)
  omega

section
variable (hact : s.actions gr ch = (List.range n).map f) (hk : k < n)
include hact hk

theorem State.actions_eq_append :
    s.actions gr ch
      = (List.range k).map f ++ f k :: (List.range' (k + 1) (n - k - 1)).map f :=
  hact.trans (map_range_eq_append f hk)

theorem State.inTable_of_actions_eq : (f k).inTable = true := by
  refine s.inTable_of_mem_actions gr ch ?_
  rw [hact]
  exact List.mem_map_of_mem (List.mem_range.mpr hk)

variable (hroom : s.room (s.bitsNeeded gr ch) = .admitted)
include hroom

theorem State.pos_add_sfWidth_lt : s.pos + sfWidth ((List.range k).map f) < 32768 := by
  have hlt := State.pos_add_bitsNeeded_lt hroom
  rw [← s.sfWidth_actions, State.actions_eq_append hact hk, sfWidth_append] at hlt
  omega

variable {band win w : Nat} (hw : w ≤ 4)
include hw

theorem State.longEntry_sfdecoded_fresh (hf : f k = .freshLong band w)
    (honce : ∀ j, (f j).writesLong band = true → j = k) :
    ((s.sfdecoded gr ch).longEntry gr ch band).toNat
      = s.buf.bits (s.pos + sfWidth ((List.range k).map f)) w := by
  have hsplit := State.actions_eq_append hact hk
  have hband : band < 21 := by simpa [hf, SfAction.inTable] using State.inTable_of_actions_eq hact hk
  rw [hf] at hsplit
  rw [State.sfdecoded, State.complete_longEntry, hsplit,
    longEntry_runSf_fresh gr ch s _ _ band w hband
      (fun a ha => s.inTable_of_mem_actions gr ch (hsplit ▸ ha)) (not_written_after honce)
      (State.pos_add_sfWidth_lt hact hk hroom),
    toNat_ofNat_four_bits _ _ hw]

theorem State.shortEntry_sfdecoded_fresh (hf : f k = .freshShort band win w)
    (honce : ∀ j, (f j).writesShort band win = true → j = k) :
    ((s.sfdecoded gr ch).shortEntry gr ch band win).toNat
      = s.buf.bits (s.pos + sfWidth ((List.range k).map f)) w := by
  have hsplit := State.actions_eq_append hact hk
  obtain ⟨hband, hwin⟩ : band < 13 ∧ win < 3 := by
    simpa [hf, SfAction.inTable] using State.inTable_of_actions_eq hact hk
  rw [hf] at hsplit
  rw [State.sfdecoded, State.complete_shortEntry, hsplit,
    shortEntry_runSf_fresh gr ch s _ _ band win w hband hwin
      (fun a ha => s.inTable_of_mem_actions gr ch (hsplit ▸ ha)) (not_written_after honce)
      (State.pos_add_sfWidth_lt hact hk hroom),
    toNat_ofNat_four_bits _ _ hw]

end

/-- A long entry copied in granule 1 holds granule 0's value, which the decoder does not write (R138). -/
theorem State.longEntry_sfdecoded_copied (hact : s.actions gr ch = (List.range n).map f) (hk : k < n)
    (hgr : gr ≠ 0) {band : Nat} (hf : f k = .copyLong band)
    (honce : ∀ j, (f j).writesLong band = true → j = k) :
    (s.sfdecoded gr ch).longEntry gr ch band = s.longEntry 0 ch band := by
  have hsplit := State.actions_eq_append hact hk
  have hband : band < 21 := by simpa [hf, SfAction.inTable] using State.inTable_of_actions_eq hact hk
  rw [hf] at hsplit
  have hin : ∀ a ∈ (List.range k).map f ++ .copyLong band :: (List.range' (k + 1) (n - k - 1)).map f,
      a.inTable = true := fun a ha => s.inTable_of_mem_actions gr ch (hsplit ▸ ha)
  rw [State.sfdecoded, State.complete_longEntry, hsplit, runSf, List.foldl_append, List.foldl_cons,
    longEntry_runSf_of_not_written gr ch _ _
      (fun a ha => hin a (List.mem_append_right _ (List.mem_cons_of_mem _ ha))) gr ch band hband
      (.inr (not_written_after honce)),
    runSfAction, State.longEntry_setLong _ _ _ _ _ _ _ _ hband hband, if_pos ⟨rfl, rfl, rfl⟩]
  exact longEntry_runSf_of_not_written gr ch s _ (fun a ha => hin a (List.mem_append_left _ ha)) 0 ch
    band hband (.inl fun ⟨h, _⟩ => hgr h)

end

/-! ### Where a field lies in the stream -/

theorem width_bandAction (gr : BitVec 1) (scfsi : BitVec 4) (slen : Nat × Nat) (band : Nat) :
    (bandAction gr scfsi slen band).width
      = if scfsi.getLsbD (bandGroup band) = false ∨ gr = 0 then bandWidth slen band else 0 := by
  unfold bandAction
  split <;> rfl

theorem sfWidth_range_bandAction (gr : BitVec 1) (scfsi : BitVec 4) (slen : Nat × Nat) (band : Nat) :
    sfWidth ((List.range band).map (bandAction gr scfsi slen)) = longOffset gr scfsi slen band := by
  simp only [sfWidth, longOffset, List.map_map, Function.comp_def, width_bandAction]

/-- Assignments of one width up to the `c`-th and of another from it on. -/
theorem sfWidth_range_of_two_widths {f : Nat → SfAction} {c a b : Nat}
    (h : ∀ k, (f k).width = if k < c then a else b) (k : Nat) :
    sfWidth ((List.range k).map f) = min k c * a + (k - c) * b := by
  have hnil : sfWidth [] = 0 := rfl
  induction k with
  | zero => simp [hnil]
  | succ k ih =>
    rw [List.range_succ, List.map_append, sfWidth_append, ih, List.map_singleton, sfWidth_cons, hnil, h]
    by_cases hk : k < c
    · have hmin : min (k + 1) c = min k c + 1 := by omega
      have hsub : k + 1 - c = k - c := by omega
      rw [if_pos hk, hmin, hsub, Nat.succ_mul]
      omega
    · have hmin : min (k + 1) c = min k c := by omega
      have hsub : k + 1 - c = k - c + 1 := by omega
      rw [if_neg hk, hmin, hsub, Nat.succ_mul]
      omega

theorem width_windowAction (slen : Nat × Nat) (k : Nat) :
    (windowAction slen k).width = if k < 18 then slen.1 else slen.2 := by
  have hband : k / 3 < 6 ↔ k < 18 := by omega
  simp only [windowAction, SfAction.width, shortWidth, hband]

theorem width_mixedAction (slen : Nat × Nat) (k : Nat) :
    (mixedAction slen k).width = if k < 17 then slen.1 else slen.2 := by
  by_cases hk : k < 8
  · rw [mixedAction_of_lt hk, if_pos (by omega)]
    rfl
  · have hwin : k + 1 < 18 ↔ k < 17 := by omega
    simp only [mixedAction_of_le (Nat.not_lt.mp hk), width_windowAction, hwin]

theorem sfWidth_range_windowAction (slen : Nat × Nat) {band win : Nat} (hw : win < 3) :
    sfWidth ((List.range (band * 3 + win)).map (windowAction slen)) = shortOffset slen band win := by
  rw [sfWidth_range_of_two_widths (width_windowAction slen), shortOffset]
  by_cases hb : band < 6
  · rw [if_pos hb, min_eq_left (by omega), Nat.sub_eq_zero_of_le (by omega), zero_mul, add_zero]
  · rw [if_neg hb, min_eq_right (by omega)]

theorem sfWidth_range_mixedAction_long (slen : Nat × Nat) {band : Nat} (hb : band < 8) :
    sfWidth ((List.range band).map (mixedAction slen)) = band * slen.1 := by
  rw [sfWidth_range_of_two_widths (width_mixedAction slen), min_eq_left (by omega),
    Nat.sub_eq_zero_of_le (by omega), zero_mul, add_zero]

theorem sfWidth_range_mixedAction_short (slen : Nat × Nat) {band win k : Nat} (h3 : 3 ≤ band)
    (hw : win < 3) (hk : k + 1 = band * 3 + win) :
    sfWidth ((List.range k).map (mixedAction slen)) = mixedOffset slen band win := by
  rw [sfWidth_range_of_two_widths (width_mixedAction slen), mixedOffset]
  by_cases hb : band < 6
  · have hcount : k = 8 + (band * 3 + win - 9) := by omega
    rw [if_pos hb, min_eq_left (by omega), Nat.sub_eq_zero_of_le (by omega), zero_mul, add_zero,
      ← Nat.add_mul, ← hcount]
  · have hcount : k - 17 = band * 3 + win - 18 := by omega
    rw [if_neg hb, min_eq_right (by omega), hcount, ← Nat.add_assoc, ← Nat.add_mul]

/-! ### The entries after each branch -/

theorem bandWidth_le {slen : Nat × Nat} (h : slen.1 ≤ 4 ∧ slen.2 ≤ 4) (band : Nat) :
    bandWidth slen band ≤ 4 := by
  unfold bandWidth
  split
  · exact h.1
  · exact h.2

theorem shortBandWidth_le {slen : Nat × Nat} (h : slen.1 ≤ 4 ∧ slen.2 ≤ 4) (band : Nat) :
    shortBandWidth slen band ≤ 4 := by
  unfold shortBandWidth
  split
  · exact h.1
  · exact h.2

section
variable {s : State} {gr ch : BitVec 1}

section
variable (hroom : s.room (s.bitsNeeded gr ch) = .admitted) {band win : Nat}
include hroom

theorem State.longEntry_of_fresh (hlong : ¬ ShortOrMixed (s.gc gr ch)) (hb : band < 21)
    (hfresh : BandFresh gr (s.scfsi ch) band) :
    ((s.sfdecoded gr ch).longEntry gr ch band).toNat
      = s.buf.bits (s.pos + longOffset gr (s.scfsi ch) (s.widths gr ch) band)
          (bandWidth (s.widths gr ch) band) := by
  rw [State.longEntry_sfdecoded_fresh (State.actions_of_long hlong) hb hroom
    (bandWidth_le (s.widths_le gr ch) band) (bandAction_of_fresh hfresh)
    (fun j hj => by simpa [writesLong_bandAction] using hj), sfWidth_range_bandAction]

theorem State.shortEntry_of_short (h : ShortOrMixed (s.gc gr ch)) (hm : ¬ Mixed (s.gc gr ch))
    (hb : band < 12) (hw : win < 3) :
    ((s.sfdecoded gr ch).shortEntry gr ch band win).toNat
      = s.buf.bits (s.pos + shortOffset (s.widths gr ch) band win)
          (shortBandWidth (s.widths gr ch) band) := by
  rw [State.shortEntry_sfdecoded_fresh (State.actions_of_short h hm) (by omega) hroom
    (shortBandWidth_le (s.widths_le gr ch) band) (windowAction_eq hw)
    (fun j => writesShort_windowAction _), sfWidth_range_windowAction _ hw]

theorem State.longEntry_of_mixed (h : ShortOrMixed (s.gc gr ch)) (hm : Mixed (s.gc gr ch))
    (hb : band < 8) :
    ((s.sfdecoded gr ch).longEntry gr ch band).toNat
      = s.buf.bits (s.pos + band * (s.widths gr ch).1) (s.widths gr ch).1 := by
  rw [State.longEntry_sfdecoded_fresh (State.actions_of_mixed h hm) (by omega) hroom
    (s.widths_le gr ch).1 (mixedAction_of_lt hb) (fun j hj => (writesLong_mixedAction _ hj).1),
    sfWidth_range_mixedAction_long _ hb]

theorem State.shortEntry_of_mixed (h : ShortOrMixed (s.gc gr ch)) (hm : Mixed (s.gc gr ch))
    (h3 : 3 ≤ band) (hb : band ≤ 11) (hw : win < 3) :
    ((s.sfdecoded gr ch).shortEntry gr ch band win).toNat
      = s.buf.bits (s.pos + mixedOffset (s.widths gr ch) band win)
          (shortBandWidth (s.widths gr ch) band) := by
  obtain ⟨k, hk⟩ : ∃ k, k + 1 = band * 3 + win := ⟨band * 3 + win - 1, by omega⟩
  have hf : mixedAction (s.widths gr ch) k
      = .freshShort band win (shortBandWidth (s.widths gr ch) band) := by
    rw [mixedAction_of_le (by omega), hk, windowAction_eq hw]
  rw [State.shortEntry_sfdecoded_fresh (State.actions_of_mixed h hm) (by omega) hroom
    (shortBandWidth_le (s.widths_le gr ch) band) hf
    (fun j hj => by have := (writesShort_mixedAction _ hj).1; omega),
    sfWidth_range_mixedAction_short _ h3 hw hk]

end

variable {band win : Nat}

theorem State.longEntry_of_reused (hlong : ¬ ShortOrMixed (s.gc gr ch)) (hb : band < 21)
    (hreused : ¬ BandFresh gr (s.scfsi ch) band) :
    (s.sfdecoded gr ch).longEntry gr ch band = s.longEntry 0 ch band :=
  State.longEntry_sfdecoded_copied (State.actions_of_long hlong) hb (fun hgr => hreused (.inr hgr))
    (bandAction_of_reused hreused) (fun j hj => by simpa [writesLong_bandAction] using hj)

theorem State.sfdecoded_scalefacS_of_long (hlong : ¬ ShortOrMixed (s.gc gr ch)) :
    (s.sfdecoded gr ch).scalefacS = s.scalefacS := by
  refine runSf_scalefacS gr ch s ?_
  simp only [State.actions_of_long hlong, List.mem_map]
  rintro _ ⟨b, -, rfl⟩ band win w
  unfold bandAction
  split <;> nofun

theorem State.sfdecoded_scalefacL_of_short (h : ShortOrMixed (s.gc gr ch)) (hm : ¬ Mixed (s.gc gr ch)) :
    (s.sfdecoded gr ch).scalefacL = s.scalefacL := by
  refine runSf_scalefacL gr ch s ?_
  simp only [State.actions_of_short h hm, List.mem_map]
  rintro _ ⟨k, -, rfl⟩
  exact ⟨_, _, _, rfl⟩

theorem State.longEntry_of_mixed_unwritten (h : ShortOrMixed (s.gc gr ch)) (hm : Mixed (s.gc gr ch))
    (h8 : 8 ≤ band) (hb : band < 21) :
    (s.sfdecoded gr ch).longEntry gr ch band = s.longEntry gr ch band := by
  refine s.longEntry_sfdecoded_of_not_written gr ch gr ch hb (.inr ?_)
  simp only [State.actions_of_mixed h hm, List.mem_map]
  rintro _ ⟨k, -, rfl⟩
  by_contra hk
  have := writesLong_mixedAction _ (eq_true_of_ne_false hk)
  omega

theorem State.shortEntry_of_mixed_unwritten (h : ShortOrMixed (s.gc gr ch)) (hm : Mixed (s.gc gr ch))
    (hb : band < 3) (hw : win < 3) :
    (s.sfdecoded gr ch).shortEntry gr ch band win = s.shortEntry gr ch band win := by
  refine s.shortEntry_sfdecoded_of_not_written gr ch gr ch (by omega) hw (.inr ?_)
  simp only [State.actions_of_mixed h hm, List.mem_map]
  rintro _ ⟨k, -, rfl⟩
  by_contra hk
  have := writesShort_mixedAction _ (eq_true_of_ne_false hk)
  omega

end

/-- No command writes short band 12 (R141). -/
theorem exec_keeps_band12 {i : Instr} {s t : State} (h : exec i s = .next t) (gr ch : BitVec 1)
    {win : Nat} (hw : win < 3) : t.shortEntry gr ch 12 win = s.shortEntry gr ch 12 win := by
  have key (ht : t.scalefacS = s.scalefacS) : t.shortEntry gr ch 12 win = s.shortEntry gr ch 12 win := by
    rw [State.shortEntry, ht, State.shortEntry]
  cases exec_effect i s t h with
  | waits _ => rfl
  | status _ => rfl
  | raised _ _ _ => rfl
  | answered _ _ => rfl
  | read _ _ _ _ _ => rfl
  | sought _ _ => rfl
  | decoded gr' ch' _ branch slen _ _ _ _ _ =>
    have hin := sfActions_inTable branch gr' (s.scfsi ch') slen
    exact shortEntry_runSf_of_not_written gr' ch' s _ (fun a ha => (hin a ha).1) gr ch 12 win (by decide)
      hw (.inr fun a ha => (hin a ha).2 win)
  | wrote _ _ _ _ => exact key (by simp)
  | sourceFailed _ _ _ _ _ _ _ => rfl
  | underrun _ _ _ _ _ _ _ _ _ => rfl
  | normal _ _ _ _ _ _ _ _ _ => rfl

/-! ### The bound on the bits needed -/

theorem groupBits_le (gr : BitVec 1) (scfsi : BitVec 4) (g size width : Nat) :
    groupBits gr scfsi g size width ≤ size * width := by
  unfold groupBits
  split
  · exact le_rfl
  · exact Nat.zero_le _

theorem groupBits_of_reused {scfsi : BitVec 4} {g : Nat} (size width : Nat)
    (h : scfsi.getLsbD g = true) : groupBits 1 scfsi g size width = 0 :=
  if_neg (by simp [h])

/-- No branch needs more than the short one (R134). -/
theorem State.bitsNeeded_le (s : State) (gr ch : BitVec 1) :
    s.bitsNeeded gr ch ≤ 18 * ((s.widths gr ch).1 + (s.widths gr ch).2) := by
  have h0 := groupBits_le gr (s.scfsi ch) 0 6 (s.widths gr ch).1
  have h1 := groupBits_le gr (s.scfsi ch) 1 5 (s.widths gr ch).1
  have h2 := groupBits_le gr (s.scfsi ch) 2 5 (s.widths gr ch).2
  have h3 := groupBits_le gr (s.scfsi ch) 3 5 (s.widths gr ch).2
  unfold State.bitsNeeded
  dsimp only
  split_ifs <;> omega

theorem defaultSlenTable_sum_le : ∀ sc : BitVec 4,
    (defaultSlenTable[sc.toNat]?.getD (0, 0)).1.val + (defaultSlenTable[sc.toNat]?.getD (0, 0)).2.val ≤ 7 := by
  decide

theorem State.widths_sum_le_of_default {s : State} (h : s.cfg.slenTable = defaultSlenTable)
    (gr ch : BitVec 1) : (s.widths gr ch).1 + (s.widths gr ch).2 ≤ 7 := by
  unfold State.widths State.slen
  rw [h]
  exact defaultSlenTable_sum_le _

/-! ### The obligations -/

/-- Settles O35: every band is written by the one assignment of its index. -/
theorem longBlockReadsOrCopiesEachGroup : Obligations.LongBlockReadsOrCopiesEachGroup := by
  intro s gr ch hcap hlong hin
  have hroom : s.room (s.bitsNeeded gr ch) = .admitted := State.room_admitted_of_le hcap hin
  exact ⟨_, exec_sfdecode_of_admitted hroom, s.sfdecoded_completed gr ch, State.pos_sfdecoded hroom,
    fun band hb => State.longEntry_of_fresh hroom hlong hb,
    fun band hb => State.longEntry_of_reused hlong hb,
    State.sfdecoded_scalefacS_of_long hlong, s.sfdecoded_onlyDecoded gr ch⟩

/-- Settles O36: the entries of the two branches, written and unwritten. -/
theorem shortAndMixedBlocksReadTheirBands : Obligations.ShortAndMixedBlocksReadTheirBands := by
  intro s gr ch hcap h hin
  have hroom : s.room (s.bitsNeeded gr ch) = .admitted := State.room_admitted_of_le hcap hin
  have hexec := exec_sfdecode_of_admitted hroom
  refine ⟨_, hexec, s.sfdecoded_completed gr ch, State.pos_sfdecoded hroom,
    fun hm => ⟨fun band hb => State.longEntry_of_mixed hroom h hm hb,
      fun band h8 hb => State.longEntry_of_mixed_unwritten h hm h8 hb,
      fun band h3 hb win hw => State.shortEntry_of_mixed hroom h hm h3 hb hw,
      fun band _ hb win hw => ?_⟩,
    fun hm => ⟨State.sfdecoded_scalefacL_of_short h hm,
      fun band hb win hw => State.shortEntry_of_short hroom h hm hb hw,
      fun win hw => exec_keeps_band12 hexec gr ch hw⟩,
    s.sfdecoded_onlyDecoded gr ch⟩
  rcases hb with hb | rfl
  · exact State.shortEntry_of_mixed_unwritten h hm hb hw
  · exact exec_keeps_band12 hexec gr ch hw

/-- Settles O37, by the outcomes of the read guard. -/
theorem sfdecodeIsAllOrNothing : Obligations.SfdecodeIsAllOrNothing := by
  refine fun s gr ch => ⟨fun hpos hbeyond => ?_, fun hcap hin => ?_, fun hzero => ?_⟩
  · exact refuses_of_raise (exec_sfdecode_beyondTop
      ((s.room_beyondTop_iff _).mpr ⟨hpos.ne', hbeyond⟩))
  · have hroom : s.room (s.bitsNeeded gr ch) = .admitted := State.room_admitted_of_le hcap (.inr hin)
    exact ⟨_, exec_sfdecode_of_admitted hroom, rfl, State.pos_sfdecoded hroom⟩
  · have hdone := s.sfdecoded_completed gr ch
    rw [hzero, add_zero] at hdone
    exact ⟨_, exec_sfdecode_of_admitted ((s.room_admitted_iff _).mpr (.inl hzero)), hdone,
      State.sfdecoded_sameCursor hzero⟩

/-- Settles O38: an OK response is the decoded state's. -/
theorem sfdecodeConsumesExactlyWhatItNeeds : Obligations.SfdecodeConsumesExactlyWhatItNeeds := by
  intro s t gr ch data _ _ h hr
  obtain ⟨hroom, rfl, rfl⟩ := exec_sfdecode_ok h hr
  have hpos := State.pos_sfdecoded hroom
  exact ⟨hpos, hpos ▸ State.toNat_ofNat_pos _⟩

/-- Settles O39: no branch needs more than 18 times both widths. -/
theorem bitsNeededAreBounded : Obligations.BitsNeededAreBounded := by
  intro s gr ch
  have hneed := s.bitsNeeded_le gr ch
  have hwidths := s.widths_le gr ch
  refine ⟨by omega, fun hdefault => ?_⟩
  have hsum := State.widths_sum_le_of_default hdefault gr ch
  omega

/-- Settles O40: a reused band is copied, granule 0 is not written, and no fresh group needs bits. -/
theorem scfsiReuseCopiesGranuleZero : Obligations.ScfsiReuseCopiesGranuleZero := by
  intro s t ch data hlong h hr
  obtain ⟨-, rfl, -⟩ := exec_sfdecode_ok h hr
  refine ⟨fun band hb hbit => ?_, fun hall => State.sfdecoded_sameCursor ?_⟩
  · have hreused : ¬ BandFresh 1 (s.scfsi ch) band := by simp [BandFresh, hbit]
    have hzero : (s.sfdecoded 1 ch).longEntry 0 ch band = s.longEntry 0 ch band :=
      (s.sfdecoded_others 1 ch).long 0 ch (by simp) band hb
    exact ⟨(State.longEntry_of_reused hlong hb hreused).trans hzero.symm, hzero⟩
  · rw [s.bitsNeeded_of_long 1 ch hlong]
    rw [groupBits_of_reused _ _ (hall 0 (by decide)), groupBits_of_reused _ _ (hall 1 (by decide)),
      groupBits_of_reused _ _ (hall 2 (by decide)), groupBits_of_reused _ _ (hall 3 (by decide))]

/-- Settles O41, from what each command and each branch of the decoder leaves unwritten. -/
theorem unwrittenEntriesKeepTheirValue : Obligations.UnwrittenEntriesKeepTheirValue := by
  refine ⟨fun i s t h gr ch win hw => exec_keeps_band12 h gr ch hw,
    fun gr ch win _ => State.reset.applyReset_shortEntry gr ch 12 win,
    fun s t h gr ch win hw hs => ?_, fun s t gr ch h => ?_⟩
  · rcases step_outcome h with ⟨-, u, -, rfl⟩ | ⟨-, rfl⟩ | rfl | ⟨w, rest, i, -, -, hx⟩
    · exact u.applyReset_shortEntry gr ch 12 win
    · exact hs
    · exact hs
    · rw [exec_keeps_band12 hx gr ch hw, hs]
  · rcases exec_sfdecode_cases h with rfl | ⟨-, rfl⟩
    · exact ⟨⟨fun _ _ _ _ _ => rfl, fun _ _ _ _ _ _ _ => rfl⟩,
        fun _ _ => ⟨fun _ _ _ => rfl, fun _ _ _ _ => rfl⟩, fun _ _ => rfl, fun _ => rfl⟩
    · exact ⟨s.sfdecoded_others gr ch,
        fun hs hm => ⟨fun band h8 hb => State.longEntry_of_mixed_unwritten hs hm h8 hb,
          fun band hb win hw => State.shortEntry_of_mixed_unwritten hs hm hb hw⟩,
        State.sfdecoded_scalefacL_of_short, State.sfdecoded_scalefacS_of_long⟩

/-- Settles O42: the 21 bands of granule 0 are fresh fields of no bits. -/
theorem zeroWidthFieldsAreWrittenWithZero : Obligations.ZeroWidthFieldsAreWrittenWithZero := by
  intro s ch hwidths hlong
  have hbound := s.bitsNeeded_le 0 ch
  rw [hwidths] at hbound
  have hneed : s.bitsNeeded 0 ch = 0 := Nat.le_zero.mp hbound
  have hroom : s.room (s.bitsNeeded 0 ch) = .admitted := (s.room_admitted_iff _).mpr (.inl hneed)
  have hdone := s.sfdecoded_completed 0 ch
  rw [hneed, add_zero] at hdone
  refine ⟨_, exec_sfdecode_of_admitted hroom, hdone, fun band hb => BitVec.eq_of_toNat_eq ?_,
    State.sfdecoded_sameCursor hneed, s.sfdecoded_onlyDecoded 0 ch⟩
  rw [State.longEntry_of_fresh hroom hlong hb (.inr rfl), hwidths]
  simp [bandWidth]

end Sys2Proof.Machine
end

section
/-! Register access (43_register_access.md): what a WRSI writes, that the side-information registers steer SFDECODE
and nothing else, and what RDSFL, RDSFS and RDSTAT report. -/

namespace Sys2Proof.Machine

/-- Operands out of range are refused as R200 says: nothing but the flags changes (R76). -/
theorem refuses_of_not_wellFormed {i : Instr} (s : State) (h : i.wellFormed = false) :
    Refuses i s .badOperand :=
  refuses_of_raise (exec_of_not_wellFormed s h)

/-! ### What a WRSI writes -/

/-- `SI_GC[k]` after a write to the register at `addr` (R161, R162). -/
theorem State.getElem?_siGC_setSideInfo (s : State) (addr : Nat) (data : BitVec 8) (k : Nat) :
    (s.setSideInfo addr data).siGC[k]? = if addr = k ∧ k < 4 then some data else s.siGC[k]? := by
  by_cases haddr : addr ≤ 3
  · rw [State.setSideInfo, if_pos haddr, Vector.getElem?_setIfInBounds]
    by_cases hk : addr = k
    · rw [if_pos hk, if_pos (by omega), if_pos ⟨hk, by omega⟩]
    · rw [if_neg hk, if_neg (hk ·.1)]
  · rw [s.setSideInfo_siGC data (by omega), if_neg (by omega)]

/-- `SI_SCFSI[k]` after a write to the register at `addr` (R161, R162).  Nothing stands at 6 and 7. -/
theorem State.getElem?_siSCFSI_setSideInfo (s : State) (addr : Nat) (data : BitVec 8) (k : Nat) :
    (s.setSideInfo addr data).siSCFSI[k]?
      = if addr = k + 4 ∧ k < 2 then some (data.extractLsb' 0 4) else s.siSCFSI[k]? := by
  by_cases haddr : addr ≤ 3
  · rw [s.setSideInfo_siSCFSI data haddr, if_neg (by omega)]
  · rw [State.setSideInfo, if_neg haddr, Vector.getElem?_setIfInBounds]
    by_cases hk : addr = k + 4
    · by_cases hk2 : k < 2
      · rw [if_pos (by omega), if_pos (by omega), if_pos ⟨hk, hk2⟩]
      · rw [if_pos (by omega), if_neg (by omega), if_neg (hk2 ·.2), Vector.getElem?_eq_none (by omega)]
    · rw [if_neg (by omega), if_neg (hk ·.1)]

/-- A completed write to a side-information register leaves reservoir, cursor, tables and byte source alone. -/
theorem State.setSideInfo_complete_frame (s : State) (addr : Nat) (data : BitVec 8) (code : ResultCode)
    (d : Word) :
    SameReservoir s ((s.setSideInfo addr data).complete code d)
      ∧ SameCursor s ((s.setSideInfo addr data).complete code d)
      ∧ SameTables s ((s.setSideInfo addr data).complete code d)
      ∧ ((s.setSideInfo addr data).complete code d).source = s.source :=
  ⟨⟨by simp, by simp⟩, ⟨by simp, by simp⟩, ⟨by simp, by simp⟩, by simp⟩

/-- Settles O43: the range of R73 decides, and an accepted WRSI is one write to the register at its address. -/
theorem wrsiWritesOneRegister : Obligations.WrsiWritesOneRegister := by
  intro s addr data
  have hwf : (Instr.wrsi addr data).wellFormed = true
      ↔ addr.toNat ≤ 5 ∧ (addr.toNat ≤ 3 ∨ data.toNat ≤ 15) := by simp [Instr.wellFormed]
  have hrefuse (h : ¬ (addr.toNat ≤ 5 ∧ (addr.toNat ≤ 3 ∨ data.toNat ≤ 15))) :
      Refuses (.wrsi addr data) s .badOperand :=
    refuses_of_not_wellFormed s (by rwa [← Bool.not_eq_true, hwf])
  refine ⟨fun h6 => hrefuse (by omega), fun h4 h16 => hrefuse (by omega), fun h3 => ?_, fun h4 h5 h15 => ?_⟩
  · refine ⟨_, exec_wrsi_of_wellFormed s (hwf.mpr (by omega)), s.completed_of_same _ .ok 0, ?_, fun k hk => ?_,
      s.setSideInfo_siSCFSI data h3, s.setSideInfo_complete_frame _ _ _ _⟩
    · rw [State.complete_siGC, State.getElem?_siGC_setSideInfo, if_pos (by omega)]
    · rw [State.complete_siGC, State.getElem?_siGC_setSideInfo, if_neg (by omega)]
  · have hlow : (data.extractLsb' 0 4).toNat = data.toNat := by
      rw [BitVec.extractLsb'_toNat, Nat.shiftRight_zero, Nat.mod_eq_of_lt (by omega)]
    refine ⟨_, data.extractLsb' 0 4, exec_wrsi_of_wellFormed s (hwf.mpr (by omega)),
      s.completed_of_same _ .ok 0, ?_, hlow, fun k hk => ?_, s.setSideInfo_siGC data (by omega),
      s.setSideInfo_complete_frame _ _ _ _⟩
    · rw [State.complete_siSCFSI, State.getElem?_siSCFSI_setSideInfo, if_pos (by omega)]
    · rw [State.complete_siSCFSI, State.getElem?_siSCFSI_setSideInfo, if_neg (by omega)]

/-! ### Who writes the side-information registers -/

/-- A command leaves the side-information registers alone or is a WRSI, which writes the one at its address. -/
theorem exec_sideInfo {i : Instr} {s t : State} (h : exec i s = .next t) :
    SameSideInfo s t
    ∨ ∃ addr data, i = .wrsi addr data ∧ SameSideInfo (s.setSideInfo addr.toNat data) t := by
  cases exec_effect i s t h with
  | waits _ => exact .inl ⟨rfl, rfl⟩
  | status _ => exact .inl ⟨rfl, rfl⟩
  | raised _ _ _ => exact .inl ⟨rfl, rfl⟩
  | answered _ _ => exact .inl ⟨rfl, rfl⟩
  | read _ _ _ _ _ => exact .inl ⟨rfl, rfl⟩
  | sought _ _ => exact .inl ⟨rfl, rfl⟩
  | decoded _ _ _ _ _ _ _ _ _ _ => exact .inl ⟨by simp, by simp⟩
  | wrote addr data hi _ => exact .inr ⟨addr, data, hi, rfl, rfl⟩
  | sourceFailed _ _ _ _ _ _ _ => exact .inl ⟨rfl, rfl⟩
  | underrun _ _ _ _ _ _ _ _ _ => exact .inl ⟨rfl, rfl⟩
  | normal _ _ _ _ _ _ _ _ _ => exact .inl ⟨rfl, rfl⟩

/-- So does a step that takes no reset, and the WRSI is the command at the port (R163). -/
theorem step_sideInfo {s t : State} (h : step s = .next t) (hnr : ¬ ResetTaken s) :
    SameSideInfo s t
    ∨ ∃ w rest addr data, s.events = .command w :: rest ∧ decode w = .ok (.wrsi addr data)
        ∧ SameSideInfo (s.setSideInfo addr.toNat data) t := by
  rcases step_outcome h with ⟨hr, -⟩ | ⟨-, rfl⟩ | rfl | ⟨w, rest, i, he, hd, hx⟩
  · exact absurd hr hnr
  · exact .inl ⟨rfl, rfl⟩
  · exact .inl ⟨rfl, rfl⟩
  · rcases exec_sideInfo hx with hsame | ⟨addr, data, rfl, hsame⟩
    · exact .inl hsame
    · exact .inr ⟨w, rest, addr, data, he, hd, hsame⟩

/-! ### Who reads the side-information registers -/

/-- `s` with other side information. -/
def State.withSideInfo (s : State) (gc : Vector (BitVec 8) 4) (scfsi : Vector (BitVec 4) 2) : State :=
  { s with siGC := gc, siSCFSI := scfsi }

/-- The outcome with `f` applied to its next state, if there is one. -/
def mapNext (f : State → State) : Host.Outcome State Fault Refusal → Host.Outcome State Fault Refusal
  | .next t => .next (f t)
  | .fault r => .fault r
  | .refused r => .refused r

section
variable (s : State) (gc : Vector (BitVec 8) 4) (scfsi : Vector (BitVec 4) 2)

@[simp] theorem State.withSideInfo_room (n : Nat) : (s.withSideInfo gc scfsi).room n = s.room n := rfl
@[simp] theorem State.withSideInfo_source : (s.withSideInfo gc scfsi).source = s.source := rfl
@[simp] theorem State.withSideInfo_refillPath (size beg : Nat) :
    (s.withSideInfo gc scfsi).refillPath size beg = s.refillPath size beg := rfl

/-- A WRSI writes over whatever side information stands there: the two runs still differ in it alone. -/
theorem State.withSideInfo_setSideInfo (addr : Nat) (data : BitVec 8) :
    ∃ gc' scfsi', (s.withSideInfo gc scfsi).setSideInfo addr data
      = (s.setSideInfo addr data).withSideInfo gc' scfsi' := by
  unfold State.setSideInfo
  split
  · exact ⟨gc.setIfInBounds addr data, scfsi, rfl⟩
  · exact ⟨gc, scfsi.setIfInBounds (addr - 4) (data.extractLsb' 0 4), rfl⟩

theorem execReadbits_withSideInfo (n : BitVec 6) :
    execReadbits n (s.withSideInfo gc scfsi) = mapNext (·.withSideInfo gc scfsi) (execReadbits n s) := by
  simp only [execReadbits, State.withSideInfo_room]
  split
  · split
    · rfl
    · cases s.room n.toNat <;> rfl
  · rfl

theorem acquireThen_withSideInfo (size : Nat) {commit : List Byte → State → State} (code : ResultCode)
    (hcommit : ∀ fresh t, commit fresh (t.withSideInfo gc scfsi) = (commit fresh t).withSideInfo gc scfsi) :
    (s.withSideInfo gc scfsi).acquireThen size commit code
      = mapNext (·.withSideInfo gc scfsi) (s.acquireThen size commit code) := by
  simp only [State.acquireThen, State.withSideInfo_source]
  cases acquire size s.source with
  | done fresh rest =>
    exact congrArg (fun u => Host.Outcome.next (u.complete code 0)) (hcommit fresh { s with source := rest })
  | sourceError e rest => rfl
  | endOfStream rest => rfl
  | waiting => rfl

theorem execRefill_withSideInfo (size beg : BitVec 12) :
    execRefill size beg (s.withSideInfo gc scfsi)
      = mapNext (·.withSideInfo gc scfsi) (execRefill size beg s) := by
  simp only [execRefill, State.withSideInfo_refillPath]
  cases s.refillPath size.toNat beg.toNat with
  | tooLarge => rfl
  | overflow => rfl
  | noSuchOffset => rfl
  | underrun => exact acquireThen_withSideInfo s gc scfsi _ _ fun _ _ => rfl
  | normal => exact acquireThen_withSideInfo s gc scfsi _ _ fun _ _ => rfl

/-- A command that neither decodes scale factors nor writes the registers carries them through unread (R163). -/
theorem exec_withSideInfo {i : Instr} (hsf : ∀ gr ch, i ≠ .sfdecode gr ch)
    (hwr : ∀ addr data, i ≠ .wrsi addr data) :
    exec i (s.withSideInfo gc scfsi) = mapNext (·.withSideInfo gc scfsi) (exec i s) := by
  cases i with
  | readbit =>
    rw [exec_readbit_eq_readbits, exec_readbit_eq_readbits]
    exact execReadbits_withSideInfo s gc scfsi 1
  | readbits n => exact execReadbits_withSideInfo s gc scfsi n
  | position => rfl
  | seek p => rfl
  | refill size beg => exact execRefill_withSideInfo s gc scfsi size beg
  | sfdecode gr ch => exact absurd rfl (hsf gr ch)
  | wrsi addr data => exact absurd rfl (hwr addr data)
  | rdsfl gr ch band => simp only [exec, execRdsfl]; split <;> rfl
  | rdsfs gr ch band win => simp only [exec, execRdsfs]; split <;> rfl
  | rdstat => rfl

theorem exec_wrsi_withSideInfo (addr : BitVec 3) (data : BitVec 8) {t : State}
    (h : exec (.wrsi addr data) s = .next t) :
    ∃ gc' scfsi', exec (.wrsi addr data) (s.withSideInfo gc scfsi) = .next (t.withSideInfo gc' scfsi') := by
  cases hw : (Instr.wrsi addr data).wellFormed with
  | false =>
    rw [exec_of_not_wellFormed _ hw] at h ⊢
    cases h
    exact ⟨gc, scfsi, rfl⟩
  | true =>
    rw [exec_wrsi_of_wellFormed _ hw] at h ⊢
    cases h
    obtain ⟨gc', scfsi', hset⟩ := s.withSideInfo_setSideInfo gc scfsi addr.toNat data
    exact ⟨gc', scfsi', by rw [hset]; rfl⟩

/-- Only SFDECODE observes the side information: run with other side information, any other command ends in the
same state but for the side information (R163). -/
theorem exec_next_withSideInfo {i : Instr} {t : State} (hsf : ∀ gr ch, i ≠ .sfdecode gr ch)
    (h : exec i s = .next t) :
    ∃ gc' scfsi', exec i (s.withSideInfo gc scfsi) = .next (t.withSideInfo gc' scfsi') := by
  by_cases hwr : ∃ addr data, i = .wrsi addr data
  · obtain ⟨addr, data, rfl⟩ := hwr
    exact exec_wrsi_withSideInfo s gc scfsi addr data h
  · refine ⟨gc, scfsi, ?_⟩
    rw [exec_withSideInfo s gc scfsi hsf fun addr data hi => hwr ⟨addr, data, hi⟩, h]
    rfl

end

/-- Settles O44: the writes through what a step does to the registers, the reads by running every command with
other side information. -/
theorem sideInfoHoldsUntilWrittenOrReset : Obligations.SideInfoHoldsUntilWrittenOrReset := by
  refine ⟨fun s t h hnr => ?_, fun i s t gc scfsi hsf h => ?_⟩
  · rcases step_sideInfo h hnr with ⟨hgc, hscfsi⟩ | ⟨w, rest, addr, data, he, hd, hgc, hscfsi⟩
    · exact ⟨fun k _ hne => absurd (by rw [hgc]) hne, fun k _ hne => absurd (by rw [hscfsi]) hne⟩
    · refine ⟨fun k _ hne => ⟨w, rest, addr, data, he, hd, ?_⟩,
        fun k _ hne => ⟨w, rest, addr, data, he, hd, ?_⟩⟩
      · rw [hgc, State.getElem?_siGC_setSideInfo] at hne
        exact (ite_ne_right_iff.mp hne).1.1
      · rw [hscfsi, State.getElem?_siSCFSI_setSideInfo] at hne
        exact (ite_ne_right_iff.mp hne).1.1
  · obtain ⟨gc', scfsi', h'⟩ := exec_next_withSideInfo s gc scfsi hsf h
    exact ⟨_, h', rfl, ⟨fun _ => rfl, rfl⟩, ⟨rfl, rfl⟩, ⟨rfl, rfl⟩, rfl, rfl⟩

/-! ### What the reads report -/

/-- A table entry as a data word: its four bits, so at most 15 (R27, R28). -/
theorem toNat_entryWord (v : BitVec 4) : (v.setWidth 32).toNat = v.toNat :=
  BitVec.toNat_setWidth_of_le (by decide)

theorem State.getElem?_scalefacL (s : State) (gr ch : BitVec 1) {band : Nat} (h : band < 21) :
    s.scalefacL[longIndex gr ch band]? = some (s.longEntry gr ch band) := by
  rw [State.longEntry, Vector.getElem?_eq_getElem (longIndex_lt gr ch band h), Option.getD_some]

theorem State.getElem?_scalefacS (s : State) (gr ch : BitVec 1) {band win : Nat} (hb : band < 13)
    (hw : win < 3) : s.scalefacS[shortIndex gr ch band win]? = some (s.shortEntry gr ch band win) := by
  rw [State.shortEntry, Vector.getElem?_eq_getElem (shortIndex_lt gr ch band win hb hw), Option.getD_some]

theorem exec_rdsfl_of_wellFormed {gr ch : BitVec 1} {band : BitVec 5} (s : State)
    (h : (Instr.rdsfl gr ch band).wellFormed = true) :
    exec (.rdsfl gr ch band) s
      = .next (s.complete .ok ((s.longEntry gr ch band.toNat).setWidth 32)) :=
  if_pos h

theorem exec_rdsfs_of_wellFormed {gr ch : BitVec 1} {band : BitVec 4} {win : BitVec 2} (s : State)
    (h : (Instr.rdsfs gr ch band win).wellFormed = true) :
    exec (.rdsfs gr ch band win) s
      = .next (s.complete .ok ((s.shortEntry gr ch band.toNat win.toNat).setWidth 32)) :=
  if_pos h

/-- Settles O45, by the range of `band`. -/
theorem rdsflReturnsTheLongEntry : Obligations.RdsflReturnsTheLongEntry := by
  intro s gr ch band
  refine ⟨fun h => refuses_of_not_wellFormed s (by simpa [Instr.wellFormed] using h), fun h => ?_⟩
  refine ⟨_, _, exec_rdsfl_of_wellFormed s (by simpa [Instr.wellFormed] using h), s.completed _ _, ?_, ?_,
    s.complete_onlyFlags _ _, rfl⟩
  · rw [toNat_entryWord]
    exact congrArg (Option.map BitVec.toNat) (s.getElem?_scalefacL gr ch (by omega))
  · rw [toNat_entryWord]
    exact Nat.le_of_lt_succ (s.longEntry gr ch band.toNat).isLt

/-- Settles O46, by the ranges of `band` and `win`; band 12 is the invariant's. -/
theorem rdsfsReturnsTheShortEntry : Obligations.RdsfsReturnsTheShortEntry := by
  intro s gr ch band win
  have hwf : (Instr.rdsfs gr ch band win).wellFormed = true ↔ band.toNat ≤ 12 ∧ win.toNat ≤ 2 := by
    simp [Instr.wellFormed]
  refine ⟨fun h => refuses_of_not_wellFormed s ?_, fun hb hw => ?_⟩
  · rw [← Bool.not_eq_true, hwf]
    omega
  · refine ⟨_, _, exec_rdsfs_of_wellFormed s (hwf.mpr ⟨hb, hw⟩), s.completed _ _, ?_, ?_,
      s.complete_onlyFlags _ _, rfl, ?_⟩
    · rw [toNat_entryWord]
      exact congrArg (Option.map BitVec.toNat) (s.getElem?_scalefacS gr ch (by omega) (by omega))
    · rw [toNat_entryWord]
      exact Nat.le_of_lt_succ (s.shortEntry gr ch band.toNat win.toNat).isLt
    · rintro hs rfl
      rw [show (12 : BitVec 4).toNat = 12 from rfl, hs.band12 gr ch win.toNat (by omega)]
      rfl

/-! ### STATUS -/

theorem exec_rdstat (s : State) : exec .rdstat s = .next (s.respond .ok s.statusWord) := rfl

/-- RDSTAT leaves STATUS as it reports it. -/
@[simp] theorem State.respond_statusWord (s : State) (code : ResultCode) (data : Word) :
    (s.respond code data).statusWord = s.statusWord := rfl

theorem State.responded (s : State) (code : ResultCode) (data : Word) :
    Responded s (s.respond code data) code data := ⟨rfl, rfl, rfl⟩

theorem State.respond_onlyFlags (s : State) (code : ResultCode) (data : Word) :
    OnlyFlags s (s.respond code data) :=
  ⟨⟨fun _ => rfl, rfl⟩, ⟨rfl, rfl⟩, ⟨rfl, rfl⟩, ⟨rfl, rfl⟩⟩

/-- The three fields of STATUS do not overlap (R33): `top` below bit 12, `lastResult` in bits 12 to 15. -/
theorem State.toNat_statusWord (s : State) :
    s.statusWord.toNat
      = s.guardFault.toNat * 2 ^ 16 + s.lastResult.toBits.toNat * 2 ^ 12 + s.top.toNat := by
  have htop := s.top.isLt
  have hlast := s.lastResult.toBits.isLt
  have hflag : ((if s.guardFault then 1#32 else 0#32) <<< 16).toNat = s.guardFault.toNat <<< 16 := by
    cases s.guardFault <;> rfl
  have hcode : (s.lastResult.toBits.setWidth 32 <<< 12).toNat = s.lastResult.toBits.toNat <<< 12 := by
    rw [BitVec.toNat_shiftLeft, toNat_entryWord, Nat.shiftLeft_eq, Nat.mod_eq_of_lt (by omega)]
  have hpair : s.guardFault.toNat <<< 16 ||| s.lastResult.toBits.toNat <<< 12
      = (s.guardFault.toNat <<< 4 + s.lastResult.toBits.toNat) <<< 12 := by
    rw [Nat.shiftLeft_add_eq_or_of_lt hlast, Nat.shiftLeft_or_distrib, ← Nat.shiftLeft_add]
  rw [State.statusWord, BitVec.toNat_or, BitVec.toNat_or, hflag, hcode, hpair,
    BitVec.toNat_setWidth_of_le (by decide), ← Nat.shiftLeft_add_eq_or_of_lt htop]
  simp only [Nat.shiftLeft_eq]
  omega

/-- Settles O47: the response leaves the three fields of STATUS, so the next RDSTAT finds the same word. -/
theorem rdstatReportsAndChangesNothing : Obligations.RdstatReportsAndChangesNothing := fun s =>
  ⟨_, _, s.statusWord, exec_rdstat s, s.responded _ _, s.toNat_statusWord, s.respond_onlyFlags _ _, rfl,
    rfl, rfl, exec_rdstat _, State.responded _ _ _⟩

end Sys2Proof.Machine
end

section
/-! The host's sequence (44_frame_sequence.md): its arithmetic of sizes, and how a frame follows its REFILL, its
SFDECODEs and the Huffman collaborator. -/

namespace Sys2Proof.Machine

/-! ### Sizes -/

theorem checkFrameSize_eq_error_iff (size : Nat) :
    checkFrameSize size = .error .frameSizeInvalid ↔ 2000 < size := by
  unfold checkFrameSize
  split <;> simp [*]

theorem frameSizeBytes_sub_padding (bitrate rate : Nat) (padding : Bool) :
    frameSizeBytes bitrate rate padding - padding.toNat = 144 * bitrate / rate :=
  Nat.add_sub_cancel ..

theorem mainDataSize_eq_some_iff (size : Nat) (channels : Channels) (crc : Bool) (m : Nat) :
    mainDataSize size channels crc = some m
      ↔ m + sideInfoSize channels + 4 + (if crc then 2 else 0) = size := by
  have hcrc : (if crc then 2 else 0) = 2 * crc.toNat := by cases crc <;> rfl
  rw [hcrc, mainDataSize]
  split
  · rw [Option.some.injEq]
    omega
  · exact iff_of_false nofun (by omega)

/-- Settles O57: the padding bit cancels, and what is left is the floor of the division. -/
theorem hostComputesTheMainDataSize : Obligations.HostComputesTheMainDataSize := by
  refine ⟨checkFrameSize_eq_error_iff, fun bitrate rate hrate padding => ?_, fun size crc m =>
    ⟨mainDataSize_eq_some_iff size .mono crc m, mainDataSize_eq_some_iff size .stereo crc m⟩⟩
  rw [frameSizeBytes_sub_padding]
  exact ⟨Nat.mul_div_le .., Nat.lt_mul_div_succ _ hrate⟩

/-! ### One command of the host -/

theorem hostCommand_of_ok {i : Instr} {s t : State} {r : Response} (onOk : Word → State → HostOutcome)
    (he : exec i s = .next t) (hr : t.responses = s.responses ++ [r]) (hok : r.code = .ok) :
    hostCommand i s onOk = onOk r.data t :=
  (hostCommand_of_response onOk he hr).trans (if_pos hok)

theorem hostCommand_of_not_ok {i : Instr} {s t : State} {r : Response}
    (onOk : Word → State → HostOutcome) (he : exec i s = .next t)
    (hr : t.responses = s.responses ++ [r]) (hne : r.code ≠ .ok) :
    hostCommand i s onOk = .next (t, .aborted r.code) :=
  (hostCommand_of_response onOk he hr).trans (if_neg hne)

/-- Settles O59: the frame begins with its REFILL, and the host goes on from a command only on OK. -/
theorem frameStopsWhenItsRefillFails : Obligations.FrameStopsWhenItsRefillFails :=
  fun _ _ _ _ _ _ _ he hr hne => hostCommand_of_not_ok _ he hr hne

/-! ### The responses of a sequence of commands -/

theorem exec_responses_prefix {i : Instr} {s t : State} (h : exec i s = .next t) :
    s.responses <+: t.responses := by
  rcases oneResponsePerCommand i s t h with ⟨-, rfl⟩ | ⟨r, hr, -⟩
  · exact List.prefix_rfl
  · exact ⟨[r], hr.symm⟩

theorem runAll_cons_eq_some {i : Instr} {l : List Instr} {s u : State}
    (h : runAll (i :: l) s = some u) : ∃ t, exec i s = .next t ∧ runAll l t = some u := by
  rw [runAll] at h
  cases he : exec i s with
  | next t => rw [he] at h; exact ⟨t, rfl, h⟩
  | fault f => rw [he] at h; cases h
  | refused r => rw [he] at h; cases h

theorem runAll_responses_prefix {l : List Instr} {s u : State} (h : runAll l s = some u) :
    s.responses <+: u.responses := by
  induction l generalizing s with
  | nil => cases h; exact List.prefix_rfl
  | cons i l ih =>
    obtain ⟨t, he, hrest⟩ := runAll_cons_eq_some h
    exact (exec_responses_prefix he).trans (ih hrest)

/-- The collaborator's commands never wait, so each is answered once (R78). -/
theorem ReadCommand.exec_responses {c : ReadCommand} {s t : State} (h : exec c.instr s = .next t) :
    ∃ r, t.responses = s.responses ++ [r] := by
  rcases oneResponsePerCommand c.instr s t h with ⟨hw, -⟩ | ⟨r, hr, -⟩
  · rw [c.waits_instr s] at hw; cases hw
  · exact ⟨r, hr⟩

/-! ### The collaborator's commands -/

@[simp] theorem hostReads_nil (onDone : State → HostOutcome) (s : State) :
    hostReads onDone [] s = onDone s := rfl

/-- Every response given after `s` on the way to `u` is OK. -/
def AnsweredOkSince (s u : State) : Prop :=
  ∀ q ∈ u.responses.drop s.responses.length, q.code = .ok

/-- What all the responses after `s` say, the first of them and those after it say too. -/
theorem AnsweredOkSince.cons {s t u : State} {r : Response} (h : AnsweredOkSince s u)
    (hr : t.responses = s.responses ++ [r]) (hpre : t.responses <+: u.responses) :
    r.code = .ok ∧ AnsweredOkSince t u := by
  obtain ⟨l, hl⟩ := hpre
  have hs : u.responses.drop s.responses.length = r :: l := by
    rw [← hl, hr, List.append_assoc, List.drop_left, List.singleton_append]
  have ht : u.responses.drop t.responses.length = l := by rw [← hl, List.drop_left]
  unfold AnsweredOkSince at h ⊢
  rw [hs, List.forall_mem_cons] at h
  rwa [ht]

/-- Commands that are all answered with OK lead the host to the state in which they leave the block. -/
theorem hostReads_append_of_ok (onDone : State → HostOutcome) {before : List ReadCommand}
    (after : List ReadCommand) {s u : State} (hrun : runAll (before.map ReadCommand.instr) s = some u)
    (hok : AnsweredOkSince s u) :
    hostReads onDone (before ++ after) s = hostReads onDone after u := by
  induction before generalizing s with
  | nil => cases hrun; rfl
  | cons c before ih =>
    obtain ⟨t, he, hrest⟩ := runAll_cons_eq_some hrun
    obtain ⟨r, hr⟩ := ReadCommand.exec_responses he
    obtain ⟨hrok, hokt⟩ := hok.cons hr (runAll_responses_prefix hrest)
    exact (hostCommand_of_ok _ he hr hrok).trans (ih hrest hokt)

theorem hostReads_of_ok (onDone : State → HostOutcome) {reads : List ReadCommand} {s u : State}
    (hrun : runAll (reads.map ReadCommand.instr) s = some u) (hok : AnsweredOkSince s u) :
    hostReads onDone reads s = onDone u := by
  simpa using hostReads_append_of_ok onDone [] hrun hok

/-! ### One (granule, channel) -/

theorem hostSteps_cons (huffman : Collaborator) (gr ch : BitVec 1) (rest : List (BitVec 1 × BitVec 1))
    (s : State) :
    hostSteps huffman ((gr, ch) :: rest) s = hostStep huffman gr ch (hostSteps huffman rest) s := rfl

/-- An SFDECODE answered with OK hands its data word and its state to the collaborator (R182). -/
theorem hostSteps_cons_of_ok {huffman : Collaborator} {gr ch : BitVec 1}
    (rest : List (BitVec 1 × BitVec 1)) {s t : State} {r : Response}
    (he : exec (.sfdecode gr ch) s = .next t) (hr : t.responses = s.responses ++ [r])
    (hok : r.code = .ok) :
    hostSteps huffman ((gr, ch) :: rest) s
      = hostReads
          (fun u => if (huffman gr ch r.data).succeeded then hostSteps huffman rest u
            else .next (u, .aborted .huffmanDecodeError))
          (huffman gr ch r.data).commands t := by
  rw [hostSteps_cons]
  exact hostCommand_of_ok _ he hr hok

/-- Settles O60: the host runs the collaborator's commands up to the first that is not answered with OK, and
then, where there is none, follows the verdict. -/
theorem frameStepFollowsTheCollaborator : Obligations.FrameStepFollowsTheCollaborator := by
  intro s t huffman gr ch rest r he hr
  refine ⟨fun hne => ?_, fun hok => ?_⟩
  · rw [hostSteps_cons]
    exact hostCommand_of_not_ok _ he hr hne
  rw [hostSteps_cons_of_ok rest he hr hok]
  refine ⟨fun u hrun hall => ?_, fun before c after u v q hcommands hrun hall hc hq hne => ?_⟩
  · rw [hostReads_of_ok _ hrun hall]
    exact ⟨fun hfailed => by rw [hfailed]; rfl, fun hsucceeded => if_pos hsucceeded⟩
  · rw [hcommands, hostReads_append_of_ok _ (c :: after) hrun hall]
    exact hostCommand_of_not_ok _ hc hq hne

end Sys2Proof.Machine
end

section
/-! The exceptions (60_exceptions.md): how a step ends that answers a code other than OK, the codes of each command,
and the status flags, which no command but RDSTAT reads. -/

namespace Sys2Proof.Machine

/-! ### Steps that answer an error -/

theorem Acquired.after_eq_endOfStream {got : List Byte} {a : Acquired} {rest : List PullAnswer} :
    a.after got = .endOfStream rest ↔ a = .endOfStream rest := by
  cases a <;> simp [Acquired.after]

/-- A source that ends before the request is satisfied has been asked for at least one answer (R93). -/
theorem acquire_endOfStream_length {m : Nat} {source rest : List PullAnswer}
    (h : acquire m source = .endOfStream rest) : rest.length < source.length := by
  fun_induction acquire m source with
  | case5 => -- the answer that ends the stream
    cases h
    exact Nat.lt_succ_self _
  | case7 _ _ _ _ _ ih => -- an answer with More is gathered
    exact (ih (Acquired.after_eq_endOfStream.mp h)).trans (Nat.lt_succ_self _)
  | _ => cases h

/-- A step that answers has completed an illegal word or has run the command at the port (R20, R75). -/
theorem step_answered {s t : State} {r : Response} (h : step s = .next t)
    (hr : t.responses = s.responses ++ [r]) :
    t = s.complete .illegalCommand 0
    ∨ ∃ w later i, s.events = .command w :: later ∧ decode w = .ok i ∧ exec i s = .next t := by
  rcases step_cases s t h with ⟨-, rfl⟩ | ⟨_, -, rfl⟩ | ⟨_, _, _, -, -, rfl⟩
    | ⟨_, _, _, -, -, -, -, rfl⟩ | ⟨w, later, i, he, hd, -, hx⟩
  · simp at hr
  · simp at hr
  · exact .inl rfl
  · simp at hr
  · exact .inr ⟨w, later, i, he, hd, hx⟩

/-- Every way a step can end that answers a code other than OK (R200). -/
inductive ErrorEnd (s : State) : State → Response → Prop where
  /-- An error found before anything is changed, the byte source not asked. -/
  | refused (code : ResultCode) (heos : code ≠ .unexpectedEndOfStream) (hfu : code ≠ .frameUndecodable) :
      ErrorEnd s (s.complete code 0) ⟨code, 0⟩
  /-- REFILL's Acquire failed: the byte source has moved on (R93, R98). -/
  | sourceFailed (code : ResultCode) (data : Word) (rest : List PullAnswer)
      (hover : code ≠ .reservoirOverflow) (hfu : code ≠ .frameUndecodable)
      (hrest : code = .unexpectedEndOfStream → rest.length < s.source.length) :
      ErrorEnd s ({ s with source := rest }.complete code data) ⟨code, data⟩
  /-- The underrun commit of the REFILL at the port (R96). -/
  | underrun (w : Word) (later : List PortEvent) (size beg : BitVec 12) (fresh : List Byte)
      (rest : List PullAnswer) (he : s.events = .command w :: later)
      (hd : decode w = .ok (.refill size beg)) (hacq : acquire size.toNat s.source = .done fresh rest)
      (hroom : s.top.toNat + fresh.length ≤ s.cfg.capacity) :
      ErrorEnd s (({ s with source := rest }.commitUnderrun fresh).complete .frameUndecodable 0)
        ⟨.frameUndecodable, 0⟩

theorem step_errorEnd {s t : State} {r : Response} (h : step s = .next t)
    (hr : t.responses = s.responses ++ [r]) (hok : r.code ≠ .ok) : ErrorEnd s t r := by
  rcases step_answered h hr with rfl | ⟨w, later, i, he, hd, hx⟩
  · obtain rfl : ⟨.illegalCommand, 0⟩ = r := by simpa using hr
    exact .refused _ nofun nofun
  cases exec_effect i s t hx with
  | waits _ => simp at hr
  | raised code hcode _ =>
    obtain rfl : ⟨code, 0⟩ = r := by simpa using hr
    exact .refused code (by rcases hcode with rfl | rfl | rfl | rfl <;> nofun)
      (by rcases hcode with rfl | rfl | rfl | rfl <;> nofun)
  | sourceFailed size beg _ code data rest hacq =>
    obtain rfl : ⟨code, data⟩ = r := by simpa using hr
    rcases hacq with ⟨rfl, rfl, hacq⟩ | ⟨rfl, -⟩
    · exact .sourceFailed _ 0 rest nofun nofun fun _ => acquire_endOfStream_length hacq
    · exact .sourceFailed _ data rest nofun nofun nofun
  | underrun size beg hi fresh rest hacq hlen _ hroom =>
    obtain rfl : ⟨.frameUndecodable, 0⟩ = r := by simpa using hr
    exact .underrun w later size beg fresh rest he (hi ▸ hd) hacq (hlen ▸ hroom)
  | _ =>
    obtain rfl : ⟨.ok, _⟩ = r := by simpa using hr
    exact absurd rfl hok

/-! ### The bytes after an underrun commit, whatever the capacity -/

theorem State.read_commitUnderrun_fresh (s : State) {fresh : List Byte} {j : Nat} (hj : j < fresh.length) :
    fresh[j]? = some ((s.commitUnderrun fresh).buf.read (s.top.toNat + j)) := by
  rw [State.commitUnderrun_buf, Memory.read_writeBytes, if_pos (by omega), Nat.add_sub_cancel_left,
    List.getElem?_eq_getElem hj, Option.getD_some]

theorem State.read_commitUnderrun_other (s : State) {fresh : List Byte} {a : Nat}
    (ha : a < s.top.toNat ∨ s.top.toNat + fresh.length ≤ a) :
    (s.commitUnderrun fresh).buf.read a = s.buf.read a := by
  rw [State.commitUnderrun_buf, Memory.read_writeBytes, if_neg (by omega)]

/-- Settles O48: the three ways a step can end with an error. -/
theorem nonOkCompletionsArePrecise : Obligations.NonOkCompletionsArePrecise := by
  intro s t r h hr hok
  cases step_errorEnd h hr hok with
  | refused code heos hfu =>
    exact ⟨rfl, rfl, fun _ => s.complete_onlyFlags code 0, fun _ => rfl, fun hc => absurd hc heos,
      fun hc => absurd hc hfu⟩
  | sourceFailed code data rest hover hfu hrest =>
    exact ⟨rfl, rfl, fun _ => ⟨⟨fun _ => rfl, rfl⟩, ⟨rfl, rfl⟩, ⟨rfl, rfl⟩, ⟨rfl, rfl⟩⟩,
      fun hc => absurd hc hover, hrest, fun hc => absurd hc hfu⟩
  | underrun w later size beg fresh rest he hd hacq hroom =>
    refine ⟨rfl, rfl, fun hfu => absurd rfl hfu, nofun, nofun,
      fun _ => ⟨⟨w, later, size, beg, fresh, he, hd, hacq, ?_⟩, rfl, rfl, ⟨rfl, rfl⟩, ⟨rfl, rfl⟩⟩⟩
    rw [← (acquire_done _ _ _ _ hacq).1]
    exact ⟨toNat_ofNat_of_le_capacity hroom,
      fun _ => State.read_commitUnderrun_fresh { s with source := rest },
      fun _ => State.read_commitUnderrun_other { s with source := rest }⟩

/-! ### The codes of a command -/

theorem ok_mem_possibleCodes (i : Instr) : .ok ∈ possibleCodes i := by
  cases i <;> exact List.mem_cons_self

/-- Settles O49: an error is one its command can raise, and every command can complete with OK. -/
theorem commandsReportOnlyTheirCodes : Obligations.CommandsReportOnlyTheirCodes := by
  intro i s t r h hr
  cases exec_effect i s t h with
  | waits _ => simp at hr
  | raised code _ hi =>
    obtain rfl : ⟨code, 0⟩ = r := by simpa using hr
    exact hi
  | sourceFailed size beg hi code data rest hcode =>
    obtain rfl : ⟨code, data⟩ = r := by simpa using hr
    subst hi
    rcases hcode with ⟨rfl, -⟩ | ⟨rfl, -⟩ <;> simp [possibleCodes]
  | underrun size beg hi _ _ _ _ _ _ =>
    obtain rfl : ⟨.frameUndecodable, 0⟩ = r := by simpa using hr
    subst hi
    simp [possibleCodes]
  | _ =>
    obtain rfl : ⟨.ok, _⟩ = r := by simpa using hr
    exact ok_mem_possibleCodes i

/-! ### Who reads the status flags -/

/-- `s` with other status flags. -/
def State.withFlags (s : State) (last : ResultCode) (guard : Bool) : State :=
  { s with lastResult := last, guardFault := guard }

/-- The second outcome is the first but for the status flags of its next state. -/
def DifferOnlyInFlags (o o' : Host.Outcome State Fault Refusal) : Prop :=
  ∃ last guard, o' = mapNext (·.withFlags last guard) o

section
variable (s : State) (last : ResultCode) (guard : Bool)

@[simp] theorem State.withFlags_room (n : Nat) : (s.withFlags last guard).room n = s.room n := rfl
@[simp] theorem State.withFlags_source : (s.withFlags last guard).source = s.source := rfl
@[simp] theorem State.withFlags_refillPath (size beg : Nat) :
    (s.withFlags last guard).refillPath size beg = s.refillPath size beg := rfl

/-- A completion overwrites `lastResult` and carries `guardFault` on, so that it hides no other difference. -/
theorem differOnlyInFlags_complete (code : ResultCode) (data : Word) :
    DifferOnlyInFlags (.next (s.complete code data)) (.next ((s.withFlags last guard).complete code data)) :=
  ⟨code, guard || code.isGuard, rfl⟩

theorem State.withFlags_setSideInfo (addr : Nat) (data : BitVec 8) :
    (s.withFlags last guard).setSideInfo addr data = (s.setSideInfo addr data).withFlags last guard := by
  unfold State.setSideInfo
  split <;> rfl

theorem runSf_withFlags (gr ch : BitVec 1) (actions : List SfAction) :
    runSf gr ch (s.withFlags last guard) actions = (runSf gr ch s actions).withFlags last guard :=
  List.foldl_hom (fun u : State => u.withFlags last guard) (g₁ := runSfAction gr ch)
    fun _ a => by cases a <;> rfl

theorem execReadbits_withFlags (n : BitVec 6) :
    DifferOnlyInFlags (execReadbits n s) (execReadbits n (s.withFlags last guard)) := by
  simp only [execReadbits, State.withFlags_room]
  split
  · split
    · exact differOnlyInFlags_complete s last guard .ok 0
    · cases s.room n.toNat with
      | beyondTop => exact differOnlyInFlags_complete s last guard .readBeyondTop 0
      | noSuchOffset => exact ⟨last, guard, rfl⟩
      | admitted => exact differOnlyInFlags_complete (s.advance n.toNat) last guard .ok _
  · exact differOnlyInFlags_complete s last guard .badOperand 0

theorem acquireThen_withFlags (size : Nat) {commit : List Byte → State → State} (code : ResultCode)
    (hcommit : ∀ fresh t, commit fresh (t.withFlags last guard) = (commit fresh t).withFlags last guard) :
    DifferOnlyInFlags (s.acquireThen size commit code)
      ((s.withFlags last guard).acquireThen size commit code) := by
  simp only [State.acquireThen, State.withFlags_source]
  cases acquire size s.source with
  | done fresh rest =>
    have hdiff := differOnlyInFlags_complete (commit fresh { s with source := rest }) last guard code 0
    rwa [← hcommit] at hdiff
  | sourceError e rest => exact differOnlyInFlags_complete { s with source := rest } last guard .sourceError e
  | endOfStream rest =>
    exact differOnlyInFlags_complete { s with source := rest } last guard .unexpectedEndOfStream 0
  | waiting => exact ⟨last, guard, rfl⟩

theorem execRefill_withFlags (size beg : BitVec 12) :
    DifferOnlyInFlags (execRefill size beg s) (execRefill size beg (s.withFlags last guard)) := by
  simp only [execRefill, State.withFlags_refillPath]
  cases s.refillPath size.toNat beg.toNat with
  | tooLarge => exact differOnlyInFlags_complete s last guard .mainDataTooLarge 0
  | overflow => exact differOnlyInFlags_complete s last guard .reservoirOverflow 0
  | noSuchOffset => exact ⟨last, guard, rfl⟩
  | underrun => exact acquireThen_withFlags s last guard _ _ fun _ _ => rfl
  | normal => exact acquireThen_withFlags s last guard _ _ fun _ _ => rfl

theorem execSfdecode_withFlags (gr ch : BitVec 1) :
    DifferOnlyInFlags (exec (.sfdecode gr ch) s) (exec (.sfdecode gr ch) (s.withFlags last guard)) := by
  have hsame : (s.withFlags last guard).room ((s.withFlags last guard).bitsNeeded gr ch)
      = s.room (s.bitsNeeded gr ch) := rfl
  cases hroom : s.room (s.bitsNeeded gr ch) with
  | beyondTop =>
    rw [exec_sfdecode_beyondTop hroom, exec_sfdecode_beyondTop (hsame.trans hroom)]
    exact differOnlyInFlags_complete s last guard .readBeyondTop 0
  | noSuchOffset =>
    rw [exec_sfdecode_noSuchOffset hroom, exec_sfdecode_noSuchOffset (hsame.trans hroom)]
    exact ⟨last, guard, rfl⟩
  | admitted =>
    rw [exec_sfdecode_of_admitted hroom, exec_sfdecode_of_admitted (hsame.trans hroom)]
    have hdiff := differOnlyInFlags_complete (runSf gr ch s (s.actions gr ch)) last guard .ok
      (BitVec.ofNat 32 (s.pos + s.bitsNeeded gr ch))
    rwa [← runSf_withFlags] at hdiff

/-- Every command but RDSTAT, which reports them, carries the flags through unread (R203). -/
theorem exec_withFlags {i : Instr} (hi : i ≠ .rdstat) :
    DifferOnlyInFlags (exec i s) (exec i (s.withFlags last guard)) := by
  cases i with
  | readbit =>
    rw [exec_readbit_eq_readbits, exec_readbit_eq_readbits]
    exact execReadbits_withFlags s last guard 1
  | readbits n => exact execReadbits_withFlags s last guard n
  | position => exact differOnlyInFlags_complete s last guard .ok _
  | seek p => exact differOnlyInFlags_complete (s.setPos p.toNat) last guard .ok 0
  | refill size beg => exact execRefill_withFlags s last guard size beg
  | sfdecode gr ch => exact execSfdecode_withFlags s last guard gr ch
  | wrsi addr data =>
    simp only [exec, execWrsi, State.withFlags_setSideInfo]
    split
    · exact differOnlyInFlags_complete (s.setSideInfo addr.toNat data) last guard .ok 0
    · exact differOnlyInFlags_complete s last guard .badOperand 0
  | rdsfl gr ch band =>
    simp only [exec, execRdsfl]
    split
    · exact differOnlyInFlags_complete s last guard .ok _
    · exact differOnlyInFlags_complete s last guard .badOperand 0
  | rdsfs gr ch band win =>
    simp only [exec, execRdsfs]
    split
    · exact differOnlyInFlags_complete s last guard .ok _
    · exact differOnlyInFlags_complete s last guard .badOperand 0
  | rdstat => exact absurd rfl hi

end

/-- Settles O16: run with other flags, the command ends in the same state but for the flags. -/
theorem statusFlagsAreNoInputs : Obligations.StatusFlagsAreNoInputs := by
  intro i s t last guard hi h
  obtain ⟨last', guard', h'⟩ := exec_withFlags s last guard hi
  rw [h] at h'
  exact ⟨t.withFlags last' guard', h', rfl⟩

end Sys2Proof.Machine
end

section
/-! Reset and hazards (70_reset_and_hazards.md): what a reset event leaves of the state, and how many bytes of the
stream a REFILL consumes with each result. -/

namespace Sys2Proof.Machine

/-! ### Reset events -/

/-- Settles O12: a reset at the port is applied before any word is looked at. -/
theorem resetEventIsTaken : Obligations.ResetEventIsTaken := by
  intro s rest he
  exact ⟨s.applyReset, step_of_reset he, by rw [State.applyReset, he, List.tail_cons]⟩

/-- Settles O13: the waiting command is abandoned and the source emptied before the reset is applied. -/
theorem resetAbandonsAWaitingRefill : Obligations.ResetAbandonsAWaitingRefill := by
  intro s w rest i he hd hw
  refine ⟨s.abandon, step_of_abandoned he hd hw rfl, ?_⟩
  rw [State.abandon, State.applyReset, he, List.tail_cons, List.tail_cons]

/-! ### The bytes a REFILL consumes -/

/-- A failed Acquire has consumed what it pulled (R93, R230). -/
theorem acquire_sourceError {m : Nat} {source rest : List PullAnswer} {e : Word}
    (h : acquire m source = .sourceError e rest) :
    ∃ pulled : List Byte, pulled.length ≤ m ∧ streamBytes source = pulled ++ streamBytes rest := by
  have hspec := acquire_spec m source
  rwa [h] at hspec

/-- The stream has ended before the request was satisfied (R93, R230). -/
theorem acquire_endOfStream {m : Nat} {source rest : List PullAnswer}
    (h : acquire m source = .endOfStream rest) :
    ∃ pulled : List Byte, pulled.length < m ∧ streamBytes source = pulled ++ streamBytes rest := by
  have hspec := acquire_spec m source
  rwa [h] at hspec

/-- What an answered REFILL has made of the byte source: left it alone when a check refused, and otherwise moved it on
as far as its Acquire did (R92, R93). -/
theorem exec_refill_source {s t : State} {size beg : BitVec 12} {r : Response}
    (h : exec (.refill size beg) s = .next t) (hr : t.responses = s.responses ++ [r]) :
    ((r.code = .mainDataTooLarge ∨ r.code = .reservoirOverflow) ∧ t.source = s.source)
    ∨ (r.code = .unexpectedEndOfStream ∧ acquire size.toNat s.source = .endOfStream t.source)
    ∨ (r.code = .sourceError ∧ acquire size.toNat s.source = .sourceError r.data t.source)
    ∨ ((r.code = .ok ∨ r.code = .frameUndecodable)
        ∧ ∃ fresh, acquire size.toNat s.source = .done fresh t.source) := by
  cases exec_effect _ s t h with
  | waits _ => simp at hr
  | raised code hcode hpossible =>
    obtain rfl : ⟨code, 0⟩ = r := by simpa using hr
    rcases hcode with rfl | rfl | rfl | rfl
    · simp [possibleCodes] at hpossible
    · simp [possibleCodes] at hpossible
    · exact .inl ⟨.inr rfl, rfl⟩
    · exact .inl ⟨.inl rfl, rfl⟩
  | sourceFailed size' beg' hi code data rest hacq =>
    cases hi
    obtain rfl : ⟨code, data⟩ = r := by simpa using hr
    rcases hacq with ⟨rfl, -, hacq⟩ | ⟨rfl, hacq⟩
    · exact .inr (.inl ⟨rfl, hacq⟩)
    · exact .inr (.inr (.inl ⟨rfl, hacq⟩))
  | underrun size' beg' hi fresh rest hacq _ _ _ =>
    cases hi
    obtain rfl : ⟨.frameUndecodable, 0⟩ = r := by simpa using hr
    exact .inr (.inr (.inr ⟨.inr rfl, fresh, hacq⟩))
  | normal size' beg' hi fresh rest hacq _ _ _ =>
    cases hi
    obtain rfl : ⟨.ok, 0⟩ = r := by simpa using hr
    exact .inr (.inr (.inr ⟨.inl rfl, fresh, hacq⟩))
  | answered _ hi => simp at hi
  | read _ _ hi _ _ => simp at hi
  | status hi => cases hi
  | sought _ hi => cases hi
  | decoded _ _ hi _ _ _ _ _ _ _ => cases hi
  | wrote _ _ hi _ => cases hi

/-- Settles O29: a refusal pulls nothing, and otherwise the bytes gone are those the Acquire pulled. -/
theorem refillConsumesTheStreamInOrder : Obligations.RefillConsumesTheStreamInOrder := by
  intro s t size beg r h hr
  rcases exec_refill_source h hr with ⟨hcode, hsource⟩ | ⟨hcode, hacq⟩ | ⟨hcode, hacq⟩
    | ⟨hcode, fresh, hacq⟩
  · refine ⟨[], by rw [hsource, List.nil_append], ?_⟩
    rcases hcode with hcode | hcode <;> simp [hcode]
  · obtain ⟨pulled, hlen, hstream⟩ := acquire_endOfStream hacq
    exact ⟨pulled, hstream, by simp [hcode, hlen]⟩
  · obtain ⟨pulled, hlen, hstream⟩ := acquire_sourceError hacq
    exact ⟨pulled, hstream, by simp [hcode, hlen]⟩
  · obtain ⟨hlen, hstream⟩ := acquire_done _ _ _ _ hacq
    refine ⟨fresh, hstream, ?_⟩
    rcases hcode with hcode | hcode <;> simp [hcode, hlen]

end Sys2Proof.Machine
end
